-- ==== Sys2Proof/Word.lean ====
section
/-! DEFINITION. The word types of the RTP ANC packet parser (spec 00_scope.md rule R11: bit 0 is the
least significant bit, every quantity is unsigned). -/

namespace Sys2Proof

/-- A byte of `PKT`, `ACC` or `UBUF`, and the data byte of an ANC word (R93). -/
abbrev Byte := BitVec 8

/-- A raw 10-bit ANC word of the bitstream (R86, R140). -/
abbrev AncWord10 := BitVec 10

/-- The 20-bit identifier pair of an ANC unit, DID word in bits [19:10] and SDID word in bits [9:0] (R88). -/
abbrev UnitId := BitVec 20

/-- A `CSR` register or a command word (R22, R80). -/
abbrev Word := BitVec 32

end Sys2Proof
end

