-- ==== Sys2Proof/Syntax.lean ====
section
/-! DEFINITION. The rows of spec/opcode_table.json as one inductive type: the six commands the host issues
through `CMD` (30_encoding.md section 1) and the two kinds of ANC unit the bitstream holds (section 3). -/

namespace Sys2Proof

/-- One constructor per row of the opcode table. -/
inductive Instr where
  /-- `PROCESS_PACKET m` (R183): process one packet payload; `m` is the marker, bit `M` (R82). -/
  | processPacket (m : Bool)
  /-- `FORCE_FINALIZE` (R201). -/
  | forceFinalize
  /-- `SOFT_RESET` (R202). -/
  | softReset
  /-- `READ_BITS n` (R125). Every value of the 6-bit field `N` is a form of the row; R83 makes 1 to 32 legal,
  and the others fail with `ERR_BADCMD`. -/
  | readBits (n : BitVec 6)
  /-- `DECODE_WORD` (R143). -/
  | decodeWord
  /-- `EXTRACT_UNIT` (R160). -/
  | extractUnit
  /-- `CDP_UNIT` (R88, R152): an ANC unit with identifier bytes 0x61 and 0x01. The operands are bits 9:8 of
  the DID word and of the SDID word, which the block ignores (R141). -/
  | cdpUnit (didHi sdidHi : BitVec 2)
  /-- `OTHER_UNIT` (R88, R156): an ANC unit with any other identifier pair, its two words whole. -/
  | otherUnit (didw sdidw : AncWord10)
deriving DecidableEq, Repr

end Sys2Proof
end

