-- ==== Sys2Proof/WellFormed.lean ====
section
/-! DEFINITION. Which terms of `Instr` an encoding stands for. The types of the operands carry every width, so
one check is left: an `OTHER_UNIT` may not hold the identifier pair of a `CDP_UNIT`, since the table gives
`CDP_UNIT` priority (R88). A `READ_BITS` of an illegal width is a form of its row, and it is the machine
that fails it (R128). -/

namespace Sys2Proof

/-- The identifier bytes of a CDP unit, compared as R152 compares them: the low 8 bits of each word. -/
def isCdpPair (didw sdidw : AncWord10) : Bool :=
  didw.extractLsb' 0 8 == 0x61#8 && sdidw.extractLsb' 0 8 == 0x01#8

/-- The term is the reading of some encoding. -/
def Instr.wellFormed : Instr → Bool
  | .processPacket _ => true
  | .forceFinalize => true
  | .softReset => true
  | .readBits _ => true
  | .decodeWord => true
  | .extractUnit => true
  | .cdpUnit _ _ => true
  | .otherUnit didw sdidw => !isCdpPair didw sdidw

end Sys2Proof
end

