-- ==== Sys2Proof/Decode.lean ====
section
/-! DEFINITION. The two decoders of 30_encoding.md, the command word (R80 to R83, R96) and the identifier pair
of an ANC unit (R88), and after them the encoder, from the same tables. -/

namespace Sys2Proof

/-- What the block decodes: a command word written to `CMD` (R80), or the 20-bit identifier pair that begins
an ANC unit (R88). -/
inductive Encoded where
  | command (w : Word)
  | unitId (k : UnitId)
deriving DecidableEq, Repr

/-- Why a command word is illegal (R96). Condition (e), a `READ_BITS` of an illegal width, is no error of the
decoder: the word is a form of its row, and the machine fails it (R128). -/
inductive DecodeError where
  /-- R96 (a): `OP` is 0x0 or 0x7 to 0xF. -/
  | reservedOpcode (op : BitVec 4)
  /-- R96 (b): a reserved bit, [7:5] or [31:14], is 1. -/
  | reservedBits
  /-- R96 (c): `M = 1` with an opcode other than `PROCESS_PACKET`. -/
  | markerSet
  /-- R96 (d): `N != 0` with an opcode other than `READ_BITS`. -/
  | widthSet
deriving DecidableEq, Repr

/-- Field `OP`, bits [3:0] (R80). -/
def opField (w : Word) : BitVec 4 := w.extractLsb' 0 4

/-- Field `M`, bit [4] (R82). -/
def markerField (w : Word) : Bool := w.getLsbD 4

/-- Field `N`, bits [13:8] (R83). -/
def widthField (w : Word) : BitVec 6 := w.extractLsb' 8 6

/-- The reserved bits [7:5] and [31:14] are 0 (R80). -/
def reservedClear (w : Word) : Bool := w.extractLsb' 5 3 == 0#3 && w.extractLsb' 14 18 == 0#18

/-- The opcode has neither `M` nor `N` (R81): both must be 0. -/
def noOperands (w : Word) (i : Instr) : Except DecodeError Instr :=
  if markerField w then .error .markerSet
  else if widthField w ≠ 0 then .error .widthSet
  else .ok i

/-- The command decoder (R80, R81), total on every word. -/
def decodeCommand (w : Word) : Except DecodeError Instr :=
  if reservedClear w then
    match (opField w).toNat with
    | 1 => if widthField w ≠ 0 then .error .widthSet else .ok (.processPacket (markerField w))
    | 2 => noOperands w .forceFinalize
    | 3 => noOperands w .softReset
    | 4 => if markerField w then .error .markerSet else .ok (.readBits (widthField w))
    | 5 => noOperands w .decodeWord
    | 6 => noOperands w .extractUnit
    | _ => .error (.reservedOpcode (opField w))
  else .error .reservedBits

/-- The DID word of an identifier pair (R88). -/
def didOfId (k : UnitId) : AncWord10 := k.extractLsb' 10 10

/-- The SDID word of an identifier pair (R88). -/
def sdidOfId (k : UnitId) : AncWord10 := k.extractLsb' 0 10

/-- The mask and match of R88: the pair is a CDP unit's, whatever bits 9:8 of each word hold. -/
def isCdpId (k : UnitId) : Bool := k &&& 0x3FCFF#20 == 0x18401#20

/-- The unit-kind decoder (R88), total on every pair. -/
def decodeUnitId (k : UnitId) : Instr :=
  if isCdpId k then .cdpUnit ((didOfId k).extractLsb' 8 2) ((sdidOfId k).extractLsb' 8 2)
  else .otherUnit (didOfId k) (sdidOfId k)

/-- Both decoders as one. -/
def decode : Encoded → Except DecodeError Instr
  | .command w => decodeCommand w
  | .unitId k => .ok (decodeUnitId k)

/-- `BadCmd(w)` as R96 writes it, conditions (a) to (e). -/
def badCmd (w : Word) : Bool :=
  let op := (opField w).toNat
  (op == 0 || 7 ≤ op)
    || !reservedClear w
    || (markerField w && op != 1)
    || (widthField w != 0 && op != 4)
    || (op == 4 && (widthField w == 0 || 32 < (widthField w).toNat))

/-- A command word from its fields (R80): `OP` in [3:0], `M` in [4], `N` in [13:8], every other bit 0. -/
def commandWord (op : BitVec 4) (m : Bool) (n : BitVec 6) : Word :=
  0#18 ++ n ++ 0#3 ++ BitVec.ofBool m ++ op

/-- The encoder (R81, R99 for commands; R88 for identifier pairs). -/
def encode : Instr → Encoded
  | .processPacket m => .command (commandWord 1 m 0)
  | .forceFinalize => .command (commandWord 2 false 0)
  | .softReset => .command (commandWord 3 false 0)
  | .readBits n => .command (commandWord 4 false n)
  | .decodeWord => .command (commandWord 5 false 0)
  | .extractUnit => .command (commandWord 6 false 0)
  | .cdpUnit didHi sdidHi => .unitId (didHi ++ 0x61#8 ++ sdidHi ++ 0x01#8)
  | .otherUnit didw sdidw => .unitId (didw ++ sdidw)

/-- The instruction the decoder reads from a table word. A row of format CMD32 has 32 bits; a row of format
ANC_ID20 has 20, which whole bytes round up to 24. -/
def decodeTableWord (nbits w : Nat) : Option Instr :=
  if nbits = 32 then (decode (.command (BitVec.ofNat 32 w))).toOption
  else if nbits ≤ 24 ∧ w < 2 ^ 20 then (decode (.unitId (BitVec.ofNat 20 w))).toOption
  else none

end Sys2Proof
end

