-- ==== Sys2Proof/Config.lean ====
section
/-! DEFINITION. The build parameters of spec 00_scope.md rules R5 to R9, and the free values of the
points the spec leaves open: each an opaque constant with no body, so that no proof can know its value. -/

namespace Sys2Proof

/-- `UNIT_SKIP_POLICY` (R7): what a unit that is not a CDP unit consumes. -/
inductive SkipPolicy where
  /-- Encoded 0: its three header words, 30 bits. -/
  | reference
  /-- Encoded 1: its header words and `10 × declaredDataCount` further bits. -/
  | declared
deriving DecidableEq, Repr

/-- `UNWRITTEN_PKT_READ` (R9): what a command's read of a byte of `PKT_RAM` not in `PKT_WRITTEN` does. -/
inductive UnwrittenRead where
  /-- The model records a fault and the command has no meaning. -/
  | fault
  /-- The byte is a draw, any of the 256 values. -/
  | any
deriving DecidableEq, Repr

/-- The parameters a build of the block fixes. `State` holds them, no step changes them (R40, R41), and a
statement about every state is a statement about every build. -/
structure Config where
  /-- `CAP` (R5), read through `CAPACITY`. -/
  cap : BitVec 16
  /-- `PKT_MAX_BYTES` (R6), read through `CONFIG.PKT_MAX`. -/
  pktMax : BitVec 16
  /-- `UNIT_SKIP_POLICY` (R7), read through `CONFIG.SKIP_POLICY`. -/
  skipPolicy : SkipPolicy
  /-- `ALLOC_MAY_FAIL` (R8). -/
  allocMayFail : Bool
  /-- `UNWRITTEN_PKT_READ` (R9). -/
  unwrittenRead : UnwrittenRead
deriving DecidableEq, Repr

/-- The default values of R5 to R9. -/
def Config.default : Config where
  cap := 512
  pktMax := 2048
  skipPolicy := .reference
  allocMayFail := true
  unwrittenRead := .fault

/-- The legal ranges of R5 and R6 (their upper bounds are the 16-bit width). -/
abbrev Config.Legal (c : Config) : Prop :=
  1 ≤ c.cap.toNat ∧ 16 ≤ c.pktMax.toNat

/-- The draw `alloc_ok` of R8 and R186, for the step of the given index: a free value. -/
opaque Config.allocOk : Nat → Bool

/-- The byte an unwritten offset of `PKT` reads as in the step of the given index (R9 under `ANY`; a host
read, R62): a free value. -/
opaque Config.unwrittenPkt : Nat → Nat → Byte

/-- The byte an offset of `ACC` that nothing has written holds (R49, unspecified): a free value. -/
opaque Config.unwrittenAcc : Nat → Nat → Byte

/-- The byte a host read of `UBUF` returns at or above `UNIT_LEN` (R64): a free value. -/
opaque Config.unspecifiedUnit : Nat → Nat → Byte

end Sys2Proof
end

