-- ==== Sys2Proof/Machine/State.lean ====
section
/-! DEFINITION. The state of the block and of its host as plain data: every register, buffer and history of
10_state.md, the build parameters, and the host's pending accesses (00_scope.md rule R4). A register's
reserved bits read 0 (R23), so a register is held as its fields; Machine/Flags.lean gives the 32-bit views. -/

namespace Sys2Proof.Machine

/-- The bytes of one byte-addressed space, as (offset, byte) pairs in strictly rising order of offset. An
unlisted offset has no value: nothing has written it since reset. -/
abbrev Memory := List Host.Cell

/-- `STATUS.ACC` (R31): the frame state machine (R180). -/
inductive FrameState where
  /-- `ACC = 0`: no accumulator. -/
  | idle
  /-- `ACC = 1`: an accumulator is open for `CUR_TS`. -/
  | accumulating
deriving DecidableEq, Repr

/-- The four errors of R230. -/
inductive ErrorCode where
  | exhausted
  | overflow
  | alloc
  | badCmd
deriving DecidableEq, Repr

/-- The values of `RESP.RESULT` a command can write, and the reset value (R95). -/
inductive Result where
  | none
  | ok
  | pending
  | complete
  | finalEmpty
  | error (e : ErrorCode)
deriving DecidableEq, Repr

/-- `RESP` (R30); bits [31:24] are reserved. -/
structure Resp where
  /-- `RESULT` [3:0]. -/
  result : Result
  /-- `STALE` [4]. -/
  stale : Bool
  /-- `MARK` [5]. -/
  mark : Bool
  /-- `NEMIT` [7:6]. -/
  nemit : BitVec 2
  /-- `NUNITS` [15:8]. -/
  nunits : Byte
  /-- `ANC_COUNT` [23:16]. -/
  ancCount : Byte
deriving DecidableEq, Repr

/-- `LAST_UNIT` (R36); bits [31:25] are reserved. -/
structure LastUnit where
  /-- `DID` [7:0]. -/
  did : Byte
  /-- `SDID` [15:8]. -/
  sdid : Byte
  /-- `DC` [23:16]. -/
  dc : Byte
  /-- `CDP` [24]. -/
  cdp : Bool
deriving DecidableEq, Repr

/-- `LAST_CDP_A` (R37). -/
structure LastCdpA where
  /-- `ID0` [7:0]. -/
  id0 : Byte
  /-- `ID1` [15:8]. -/
  id1 : Byte
  /-- `CDPLEN` [23:16]. -/
  cdpLen : Byte
  /-- `RATE` [31:24]. -/
  rate : Byte
deriving DecidableEq, Repr

/-- `LAST_CDP_B` (R38); bits [31:16] are reserved. -/
structure LastCdpB where
  /-- `FLAGS` [7:0]. -/
  flags : Byte
  /-- `CCWORD` [15:8]. -/
  ccWord : Byte
deriving DecidableEq, Repr

/-- `KIND` of an output record (R94): the cause of the finalize. -/
inductive RecordKind where
  | complete
  | stale
  | forced
  | overflow
deriving DecidableEq, Repr

/-- An output record (R52, R94); `DLEN` is the length of `data`. -/
structure OutRecord where
  kind : RecordKind
  ts : Word
  data : List Byte
deriving DecidableEq, Repr

/-- One access of the host (20_memory.md rules R61 to R64), or the block's reset input (R260). A `CSR` access
names its width in bits, since the block refuses every width but 32 (R61). -/
inductive HostAction where
  | writePkt (a : Nat) (b : Byte)
  | readPkt (a : Nat)
  | writeCsr (off width : Nat) (v : Word)
  | readCsr (off width : Nat)
  | writeUnit (a : Nat) (b : Byte)
  | readUnit (a : Nat)
  | hardReset
deriving DecidableEq, Repr

/-- The registers of the map of 10_state.md section 3, with their offsets in Machine/Flags.lean. -/
inductive Reg where
  | cmd | argTs | argLen | argHdrLen | argCursor | resp | status | curTs | wrOff | dbgValue | unitLen
  | lastUnit | lastCdpA | lastCdpB | lastCdpC | capacity | config
  | cntFrames | cntStale | cntExhausted | cntOverflow | cntAlloc | cntBadcmd
deriving DecidableEq, Repr

/-- Why a run stops with a fault. -/
inductive Fault where
  /-- Raised by a command that reads a byte of `PKT_RAM` at an offset not in `PKT_WRITTEN`, under
  `UNWRITTEN_PKT_READ = FAULT` (R9, R247 (a)): the event that sets `FAULTED`. Safe: the model stops where
  a chip goes on with some byte. -/
  | unwrittenPkt (a : Nat)
  /-- Raised by `step` in a state whose `FAULTED` mark is set: no later step is defined (R247 (a)). Safe. -/
  | runFaulted
deriving DecidableEq, Repr

/-- Why a step is refused. -/
inductive Refusal where
  /-- The arm of an instruction that has no meaning yet; no arm of this model is refused. Safe. -/
  | notModelled (mnemonic : String)
  /-- Raised by a host `CSR` access that is misaligned, above offset 0xFC or not 32 bits wide (R61, R247 (b)).
  Safe: the model has no transition. -/
  | csrAccess (off width : Nat)
  /-- Raised by a host `PKT` access at an offset of at least `PKT_MAX_BYTES` (R62, R247 (b)). Safe. -/
  | pktAccess (a : Nat)
  /-- Raised by a host `UBUF` read at an offset above 95 (R64, R247 (b)). Safe. -/
  | unitRead (a : Nat)
deriving DecidableEq, Repr

/-- The state of the block, and of the host beside it. -/
structure State where
  /-- The build parameters (R5 to R9): `CAPACITY` (R40) and `CONFIG` (R41) read from here. No step changes it. -/
  cfg : Config
  /-- `CMD` (R25): the last command word written. -/
  cmd : Word
  /-- `ARG_TS` (R26). -/
  argTs : Word
  /-- `ARG_LEN.LEN` (R27). -/
  argLen : BitVec 16
  /-- `ARG_HDRLEN.HDR` (R28). -/
  argHdrLen : BitVec 16
  /-- `ARG_CURSOR` (R29): a stream bit index of the debug slice. -/
  argCursor : Word
  /-- `RESP` (R30). -/
  resp : Resp
  /-- `STATUS.ACC` (R31). -/
  status : FrameState
  /-- `CUR_TS` (R32). -/
  curTs : Word
  /-- `WR_OFF` (R33). -/
  wrOff : BitVec 16
  /-- `DBG_VALUE` (R34). -/
  dbgValue : Word
  /-- `UNIT_LEN` (R35). -/
  unitLen : BitVec 7
  /-- `LAST_UNIT` (R36). -/
  lastUnit : LastUnit
  /-- `LAST_CDP_A` (R37). -/
  lastCdpA : LastCdpA
  /-- `LAST_CDP_B` (R38). -/
  lastCdpB : LastCdpB
  /-- `LAST_CDP_C.COMPOSITE` (R39). -/
  lastCdpC : BitVec 20
  /-- `CNT_FRAMES` (R43). -/
  cntFrames : Word
  /-- `CNT_STALE` (R44). -/
  cntStale : Word
  /-- `CNT_EXHAUSTED` (R45). -/
  cntExhausted : Word
  /-- `CNT_OVERFLOW` (R46). -/
  cntOverflow : Word
  /-- `CNT_ALLOC` (R47). -/
  cntAlloc : Word
  /-- `CNT_BADCMD` (R48). -/
  cntBadcmd : Word
  /-- `ACC_BUF` (R49), in the space `ACC`. -/
  accBuf : Memory
  /-- `PKT_RAM` (R50), in the space `PKT`. Its listed offsets are `PKT_WRITTEN` (R53). -/
  pktRam : Memory
  /-- `UNIT_BUF` (R51), in the space `UBUF`. -/
  unitBuf : Memory
  /-- `OUT` (R52): the output records, oldest first. -/
  out : List OutRecord
  /-- `FAULTED` (R53): no step leaves a state that holds it, and nothing clears it. -/
  faulted : Bool
  /-- The model's own: the index of the current step's free inputs (R12, `draw`). Each host access advances it. -/
  draw : Nat
  /-- The model's own: the accesses the host has still to make, in its program order (R73). -/
  host : List HostAction
  /-- The model's own, the host's register: the value the last host read returned. -/
  hostData : Word
deriving DecidableEq, Repr

/-- `RESP` after reset: `RESULT = NONE`, every other field 0 (R260). -/
def Resp.reset : Resp := ⟨.none, false, false, 0, 0, 0⟩

/-- The machine right after power-on reset (R260): Idle, `ARG_HDRLEN = 12`, every other register 0, no byte of
any buffer written, no record emitted, and the default build (R5 to R9). The host has no access pending. -/
def State.reset : State where
  cfg := Config.default
  cmd := 0
  argTs := 0
  argLen := 0
  argHdrLen := 12
  argCursor := 0
  resp := Resp.reset
  status := .idle
  curTs := 0
  wrOff := 0
  dbgValue := 0
  unitLen := 0
  lastUnit := ⟨0, 0, 0, false⟩
  lastCdpA := ⟨0, 0, 0, 0⟩
  lastCdpB := ⟨0, 0⟩
  lastCdpC := 0
  cntFrames := 0
  cntStale := 0
  cntExhausted := 0
  cntOverflow := 0
  cntAlloc := 0
  cntBadcmd := 0
  accBuf := []
  pktRam := []
  unitBuf := []
  out := []
  faulted := false
  draw := 0
  host := []
  hostData := 0

end Sys2Proof.Machine
end

