-- ==== Sys2Proof/Machine/Ops.lean ====
section
/-! DEFINITION. The named operations over the memories and the registers that every command is written with:
the three byte spaces (20_memory.md), the response and the one shared way a command reports an error
(60_exceptions.md rule R236), the capture registers (R159) and the frame buffer (44_frame_reassembler.md). -/

namespace Sys2Proof.Machine

/-! ### Memories -/

/-- The byte an offset holds, or no value where nothing has written it. -/
def Memory.read : Memory → Nat → Option Byte
  | [], _ => none
  | (x, y) :: m, a => if a = x then some y else Memory.read m a

/-- Store one byte, keeping the offsets in strictly rising order. -/
def Memory.write : Memory → Nat → Byte → Memory
  | [], a, b => [(a, b)]
  | (x, y) :: m, a, b =>
    if a < x then (a, b) :: (x, y) :: m
    else if a = x then (a, b) :: m
    else (x, y) :: Memory.write m a b

/-- Store a list of bytes at consecutive offsets from `a`, one byte at a time (R68). -/
def Memory.writeRange : Memory → Nat → List Byte → Memory
  | m, _, [] => m
  | m, a, b :: bs => Memory.writeRange (Memory.write m a b) (a + 1) bs

/-- The canonical form: offsets strictly rising. An unlisted offset has no value, so no entry can repeat it. -/
abbrev Memory.wf (m : Memory) : Prop := m.Pairwise (fun x y => x.1 < y.1)

/-- The offset is in `PKT_WRITTEN` (R53). -/
def State.pktWritten (s : State) (a : Nat) : Bool := (s.pktRam.read a).isSome

/-- `MemRead(PKT:a, 1)` inside a command (R62): the stored byte; at an unwritten offset, as
`UNWRITTEN_PKT_READ` says (R9), a fault or the step's draw. -/
def pktByte (s : State) (a : Nat) : Except Fault Byte :=
  match s.pktRam.read a with
  | some b => .ok b
  | none =>
    match s.cfg.unwrittenRead with
    | .fault => .error (.unwrittenPkt a)
    | .any => .ok (Config.unwrittenPkt s.draw a)

/-- `MemRead(ACC:a, 1)`: the stored byte; where nothing has written it, an unspecified byte (R49). -/
def accByte (s : State) (a : Nat) : Byte :=
  (s.accBuf.read a).getD (Config.unwrittenAcc s.draw a)

/-- `MemRead(ACC:0, n)` (R181). -/
def accBytes (s : State) (n : Nat) : List Byte := (List.range n).map (accByte s)

/-- What a host read of `UBUF` returns (R64): below `UNIT_LEN` the byte the last successful `EXTRACT_UNIT`
wrote, and at or above it an unspecified byte, whatever the buffer holds there. -/
def unitByte (s : State) (a : Nat) : Byte :=
  if a < s.unitLen.toNat then (s.unitBuf.read a).getD (Config.unspecifiedUnit s.draw a)
  else Config.unspecifiedUnit s.draw a

/-- What a host read of `PKT` returns (R62): the stored byte, or an unspecified byte if nothing wrote it. -/
def hostPktByte (s : State) (a : Nat) : Byte :=
  (s.pktRam.read a).getD (Config.unwrittenPkt s.draw a)

/-! ### The response and errors -/

/-- `RESP` with the given `RESULT` and 0 in every other field. -/
def Resp.only (r : Result) : Resp := ⟨r, false, false, 0, 0, 0⟩

/-- Write `RESP`, at the end of a command (R30). -/
def State.respond (s : State) (r : Resp) : State := { s with resp := r }

/-- Count one error in its counter, modulo 2^32 (R42, R45 to R48). -/
def State.countError (s : State) (e : ErrorCode) : State :=
  match e with
  | .exhausted => { s with cntExhausted := s.cntExhausted + 1 }
  | .overflow => { s with cntOverflow := s.cntOverflow + 1 }
  | .alloc => { s with cntAlloc := s.cntAlloc + 1 }
  | .badCmd => { s with cntBadcmd := s.cntBadcmd + 1 }

/-- How a command fails with nothing of its effect done (R127, R161, R234, R236): the error's code in `RESP`, 0
in every other field of it, and the error's counter. -/
def State.failCommand (s : State) (e : ErrorCode) : State :=
  (s.countError e).respond (Resp.only (.error e))

/-! ### The debug registers -/

/-- Write `DBG_VALUE` (R34). -/
def State.setDbg (s : State) (v : Word) : State := { s with dbgValue := v }

/-- Write the advanced cursor to `ARG_CURSOR` (R29). -/
def State.setCursor (s : State) (c : Nat) : State := { s with argCursor := BitVec.ofNat 32 c }

/-- Store a unit's caption bytes in `UNIT_BUF` from offset 0, and their number in `UNIT_LEN` (R160). -/
def State.storeUnit (s : State) (bs : List Byte) : State :=
  { s with unitBuf := s.unitBuf.writeRange 0 bs, unitLen := BitVec.ofNat 7 bs.length }

/-! ### Decoded units -/

/-- The record `U` that `ExtractUnit` returns (R150). -/
structure AncUnit where
  did : Byte
  sdid : Byte
  dc : Byte
  isCdp : Bool
  id0 : Byte
  id1 : Byte
  cdpLen : Byte
  rate : Byte
  flags : Byte
  composite : BitVec 20
  ccWord : Byte
  bytes : List Byte
  next : Nat
deriving DecidableEq, Repr

/-- `CaptureUnit(U)` (R159): the header of every unit decoded, and the preamble of a CDP unit. -/
def State.capture (s : State) (u : AncUnit) : State :=
  if u.isCdp then
    { s with
      lastUnit := ⟨u.did, u.sdid, u.dc, true⟩
      lastCdpA := ⟨u.id0, u.id1, u.cdpLen, u.rate⟩
      lastCdpB := ⟨u.flags, u.ccWord⟩
      lastCdpC := u.composite }
  else { s with lastUnit := ⟨u.did, u.sdid, u.dc, false⟩ }

/-! ### The frame -/

/-- `alloc_ok` of an open (R8, R186): the draw where `ALLOC_MAY_FAIL`, and true otherwise. -/
def State.allocOk (s : State) : Bool := !s.cfg.allocMayFail || Config.allocOk s.draw

/-- Open a frame for `ARG_TS` (R185). -/
def State.openFrame (s : State) : State :=
  { s with status := .accumulating, curTs := s.argTs, wrOff := 0 }

/-- Write a unit's caption bytes to `ACC_BUF` from `WR_OFF` upward, and advance `WR_OFF` (R190). -/
def State.appendBytes (s : State) (bs : List Byte) : State :=
  { s with
    accBuf := s.accBuf.writeRange s.wrOff.toNat bs
    wrOff := BitVec.ofNat 16 (s.wrOff.toNat + bs.length) }

/-- The bytes of the open frame, `ACC_BUF[0 .. WR_OFF-1]` (R180). -/
def State.frameBytes (s : State) : List Byte := accBytes s s.wrOff.toNat

/-- `Emit` (R12) of the open frame's bytes, with its counter (R181, R43). -/
def State.emit (s : State) (k : RecordKind) : State :=
  { s with out := s.out ++ [⟨k, s.curTs, s.frameBytes⟩], cntFrames := s.cntFrames + 1 }

/-- Go to Idle and clear `WR_OFF`; `CUR_TS` stays (R181, R198). -/
def State.closeFrame (s : State) : State := { s with status := .idle, wrOff := 0 }

/-- A finalize has something to emit (R182). -/
def State.hasBytes (s : State) : Bool := s.wrOff ≠ 0

/-- `Finalize(kind)` (R181): emit the frame's bytes, if any, and go to Idle. Whether it emits is
`State.hasBytes` of the state before it. -/
def State.finalize (s : State) (k : RecordKind) : State :=
  if s.hasBytes then (s.emit k).closeFrame else s.closeFrame

end Sys2Proof.Machine
end

