-- ==== Sys2Proof/Machine/Operands.lean ====
section
/-! DEFINITION. The operand forms: the slices the commands read, the bit reader (41_bit_reader.md), the ANC word
decoder (42_anc_word.md) and the unit extractor (43_cdp_extractor.md), all functions of the state that write
nothing (R124). -/

namespace Sys2Proof.Machine

/-- A slice of `PKT` (R120): its first byte and its length in bits. -/
structure Slice where
  base : Nat
  bitLen : Nat
deriving DecidableEq, Repr

/-- Why a read gives no value. -/
inductive ReadStop where
  /-- `BitstreamExhausted` (R122): fewer bits remain than the read needs. -/
  | exhausted
  /-- A byte the read touches is unwritten and the build faults on it (R9). -/
  | fault (f : Fault)
deriving DecidableEq, Repr

/-- The slice of the debug commands (R126): `PKT_RAM[0 .. LEN-1]`. -/
def debugSlice (s : State) : Slice := ⟨0, 8 * s.argLen.toNat⟩

/-- The slice of `PROCESS_PACKET` (R84, R187): `PKT_RAM[HDR .. LEN-1]`. -/
def packetSlice (s : State) : Slice :=
  ⟨s.argHdrLen.toNat, 8 * (s.argLen.toNat - s.argHdrLen.toNat)⟩

/-- `ARG_LEN[15:0] > PKT_MAX_BYTES` (R234). -/
def lenTooLong (s : State) : Bool := s.cfg.pktMax < s.argLen

/-- `ARG_HDRLEN[15:0]` is below 5 or above `PKT_MAX_BYTES` (R28, R234). -/
def hdrOutOfRange (s : State) : Bool := s.argHdrLen.toNat < 5 || s.cfg.pktMax < s.argHdrLen

/-- `Bit(base, k)` (R120): stream bit 0 is the most significant bit of the slice's first byte. -/
def streamBit (s : State) (sl : Slice) (k : Nat) : Except Fault Bool :=
  match pktByte s (sl.base + k / 8) with
  | .ok b => .ok (b.getLsbD (7 - k % 8))
  | .error f => .error f

/-- The loop of `ReadBits` (R121): `n` more bits from `cur`, in stream order, onto the value `v`. -/
def readLoop (s : State) (sl : Slice) : Nat → Nat → Nat → Except Fault Nat
  | 0, _, v => .ok v
  | n + 1, cur, v =>
    match streamBit s sl cur with
    | .ok b => readLoop s sl n (cur + 1) (2 * v + b.toNat)
    | .error f => .error f

/-- `ReadBits(base, bitLen, cur, n)` (R121, R122): the value of `n` stream bits from `cur`, the first the most
significant, and the advanced cursor. -/
def readBits (s : State) (sl : Slice) (cur n : Nat) : Except ReadStop (Nat × Nat) :=
  if sl.bitLen < cur ∨ sl.bitLen - cur < n then .error .exhausted
  else
    match readLoop s sl n cur 0 with
    | .ok v => .ok (v, cur + n)
    | .error f => .error (.fault f)

/-- What `DecodeWord` returns (R140): the data byte, the advanced cursor and the raw word. -/
structure DecodedWord where
  data : Byte
  next : Nat
  raw : AncWord10
deriving DecidableEq, Repr

/-- `DecodeWord(base, bitLen, cur)` (R140): bits 9:8 of the word are discarded (R141). -/
def decodeAncWord (s : State) (sl : Slice) (cur : Nat) : Except ReadStop DecodedWord :=
  match readBits s sl cur 10 with
  | .ok (v, c) => .ok ⟨BitVec.ofNat 8 v, c, BitVec.ofNat 10 v⟩
  | .error e => .error e

/-- `k` caption words from `cur` (R155): their data bytes in stream order, and the advanced cursor. -/
def captionWords (s : State) (sl : Slice) : Nat → Nat → Except ReadStop (List Byte × Nat)
  | 0, cur => .ok ([], cur)
  | k + 1, cur => do
    let w ← decodeAncWord s sl cur
    let (bs, c) ← captionWords s sl k w.next
    return (w.data :: bs, c)

/-- `captionCount`, bits [4:0] of the caption-count word's data byte (R90, R154). -/
def captionCount (ccWord : Byte) : Nat := (ccWord.extractLsb' 0 5).toNat

/-- The rest of a CDP unit after its identifier words, from `cur` (R153 to R155, R157): the data count, which
bounds nothing; the preamble, unchecked; the caption count; the caption words. -/
def cdpUnitBody (s : State) (sl : Slice) (cur : Nat) : Except ReadStop AncUnit := do
  let dc ← decodeAncWord s sl cur
  let id0 ← decodeAncWord s sl dc.next
  let id1 ← decodeAncWord s sl id0.next
  let len ← decodeAncWord s sl id1.next
  let rate ← decodeAncWord s sl len.next
  let flags ← decodeAncWord s sl rate.next
  let (comp, c) ← readBits s sl flags.next 20
  let ccw ← decodeAncWord s sl c
  let (bytes, next) ← captionWords s sl (3 * captionCount ccw.data) ccw.next
  return {
    did := 0x61, sdid := 0x01, dc := dc.data, isCdp := true
    id0 := id0.data, id1 := id1.data, cdpLen := len.data, rate := rate.data, flags := flags.data
    composite := BitVec.ofNat 20 comp, ccWord := ccw.data, bytes := bytes, next := next }

/-- An other unit with the given header bytes that ends at `next` (R156): no caption byte, every CDP field 0. -/
def otherUnitRecord (did sdid dc : Byte) (next : Nat) : AncUnit :=
  { did := did, sdid := sdid, dc := dc, isCdp := false
    id0 := 0, id1 := 0, cdpLen := 0, rate := 0, flags := 0
    composite := 0, ccWord := 0, bytes := [], next := next }

/-- The rest of an other unit after its identifier words, from `cur` (R156): the data count, and under
`DECLARED` the words it declares, which are skipped without being read. -/
def otherUnitBody (s : State) (sl : Slice) (didw sdidw : AncWord10) (cur : Nat) :
    Except ReadStop AncUnit := do
  let dc ← decodeAncWord s sl cur
  let unit := otherUnitRecord (didw.extractLsb' 0 8) (sdidw.extractLsb' 0 8) dc.data
  match s.cfg.skipPolicy with
  | .reference => return unit dc.next
  | .declared =>
    if sl.bitLen - dc.next < 10 * dc.data.toNat then .error .exhausted
    else return unit (dc.next + 10 * dc.data.toNat)

/-- `ExtractUnit(base, bitLen, cur, policy)` (R150 to R158): the identifier words, the unit's kind (R88, R152)
and the rest of the unit. -/
def extractAncUnit (s : State) (sl : Slice) (cur : Nat) : Except ReadStop AncUnit := do
  let did ← decodeAncWord s sl cur
  let sdid ← decodeAncWord s sl did.next
  if isCdpId (did.raw ++ sdid.raw) then cdpUnitBody s sl sdid.next
  else otherUnitBody s sl did.raw sdid.raw sdid.next

end Sys2Proof.Machine
end

