-- ==== Sys2Proof/Machine/BitReader.lean ====
section
/-! DEFINITION. The bit-field reader's command (41_bit_reader.md) and the form all three debug commands share. -/

namespace Sys2Proof.Machine

/-- The form of a debug command (R125, R143, R160): `ERR_BADCMD` where the guard holds (R234), `ERR_EXHAUSTED`
where the read runs out of bits (R127, R161), and `done` on the value read. -/
def debugCommand {α : Type} (bad : Bool) (r : Except ReadStop α) (done : α → State) (s : State) :
    Host.Outcome State Fault Refusal :=
  if bad then .next (s.failCommand .badCmd)
  else
    match r with
    | .ok v => .next (done v)
    | .error .exhausted => .next (s.failCommand .exhausted)
    | .error (.fault f) => .fault f

/-- The width field holds 0 or 33 to 63, which is illegal (R83, R128). -/
def illegalWidth (n : BitVec 6) : Bool := n = 0 || 32 < n.toNat

/-- `READ_BITS n` (R125 to R128). -/
def execReadBits (n : BitVec 6) (s : State) : Host.Outcome State Fault Refusal :=
  debugCommand (illegalWidth n || lenTooLong s)
    (readBits s (debugSlice s) s.argCursor.toNat n.toNat)
    (fun (v, c) => ((s.setDbg (BitVec.ofNat 32 v)).setCursor c).respond (Resp.only .ok)) s

end Sys2Proof.Machine
end

