-- ==== Sys2Proof/Machine/AncWord.lean ====
section
/-! DEFINITION. The ANC word decoder's command (42_anc_word.md). -/

namespace Sys2Proof.Machine

/-- `DECODE_WORD` (R143). -/
def execDecodeWord (s : State) : Host.Outcome State Fault Refusal :=
  debugCommand (lenTooLong s) (decodeAncWord s (debugSlice s) s.argCursor.toNat)
    (fun w => ((s.setDbg (w.data.setWidth 32)).setCursor w.next).respond (Resp.only .ok)) s

end Sys2Proof.Machine
end

