-- ==== Sys2Proof/Machine/Extractor.lean ====
section
/-! DEFINITION. The CDP triplet extractor (43_cdp_extractor.md): the command `EXTRACT_UNIT` and the two unit
kinds. A unit as an instruction of its own runs where the host can drive the extractor, at `ARG_CURSOR` of the
debug slice: it is what `EXTRACT_UNIT` does once it has read identifier words that decode to that kind
(assumption 3). -/

namespace Sys2Proof.Machine

/-- What a successful extraction leaves (R160): the captured header, the caption bytes in `UNIT_BUF`, the
cursor after the unit, and a response of one unit. -/
def finishUnit (s : State) (u : AncUnit) : State :=
  (((s.capture u).storeUnit u.bytes).setCursor u.next).respond
    { Resp.only .ok with nunits := 1 }

/-- `EXTRACT_UNIT` (R160, R161). -/
def execExtractUnit (s : State) : Host.Outcome State Fault Refusal :=
  debugCommand (lenTooLong s) (extractAncUnit s (debugSlice s) s.argCursor.toNat) (finishUnit s) s

/-- `CDP_UNIT` (R152 to R155, R157): the unit at `ARG_CURSOR`, its two identifier words read. Bits 9:8 of
those words, the operands, play no part (R141). -/
def execCdpUnit (_didHi _sdidHi : BitVec 2) (s : State) : Host.Outcome State Fault Refusal :=
  debugCommand (lenTooLong s) (cdpUnitBody s (debugSlice s) (s.argCursor.toNat + 20)) (finishUnit s) s

/-- `OTHER_UNIT` (R156): the unit at `ARG_CURSOR`, its two identifier words read. -/
def execOtherUnit (didw sdidw : AncWord10) (s : State) : Host.Outcome State Fault Refusal :=
  debugCommand (lenTooLong s) (otherUnitBody s (debugSlice s) didw sdidw (s.argCursor.toNat + 20))
    (finishUnit s) s

end Sys2Proof.Machine
end

