-- ==== Sys2Proof/Machine/Reassembler.lean ====
section
/-! DEFINITION. The frame reassembler (44_frame_reassembler.md): `PROCESS_PACKET`, `FORCE_FINALIZE` and
`SOFT_RESET`. -/

namespace Sys2Proof.Machine

/-- `PROCESS_PACKET` while it runs: the machine so far and the command's own variables (R183). -/
structure PacketRun where
  /-- The machine. -/
  st : State
  /-- `err`. -/
  err : Option ErrorCode
  /-- `stale`. -/
  stale : Bool
  /-- `mark`. -/
  mark : Bool
  /-- `e`: the marker finalize emitted a record. -/
  emitted : Bool
  /-- `nemit`. -/
  nemit : Nat
  /-- `nunits`. -/
  nunits : Nat
  /-- `count`. -/
  count : Byte
  /-- How many bytes the command has written to `ACC` (for statements; no rule reads it). -/
  stored : Nat
deriving DecidableEq, Repr

/-- The variables at the start of the command (R183). -/
def packetStart (s : State) : PacketRun := ⟨s, none, false, false, false, 0, 0, 0, 0⟩

/-- Record an error, once, with its counter (R194, R237). -/
def packetError (r : PacketRun) (e : ErrorCode) : PacketRun :=
  { r with err := some e, st := r.st.countError e }

/-- `Finalize(kind)` with the command's count of records (R181). -/
def packetFinalize (r : PacketRun) (k : RecordKind) : PacketRun :=
  { r with st := r.st.finalize k, nemit := r.nemit + r.st.hasBytes.toNat }

/-- An open frame has another timestamp than the packet, compared for equality only (R184, R199). -/
def discontinuous (s : State) : Bool := s.status = .accumulating && s.argTs != s.curTs

/-- Phase 1, the discontinuity (R184). -/
def packetDiscontinuity (r : PacketRun) : PacketRun :=
  if discontinuous r.st then
    let r' := packetFinalize r .stale
    { r' with stale := true, st := { r'.st with cntStale := r'.st.cntStale + 1 } }
  else r

/-- Phase 2, the open (R185, R186). -/
def packetOpen (r : PacketRun) : PacketRun :=
  if r.st.status = .idle then
    if r.st.allocOk then { r with st := r.st.openFrame } else packetError r .alloc
  else r

/-- The capacity check of a unit's bytes (R190): they would take `WR_OFF` past `CAP`. -/
def overflows (s : State) (bs : List Byte) : Bool := s.cfg.cap.toNat < s.wrOff.toNat + bs.length

/-- A unit that decoded completely, captured and accepted (R189, R190). -/
def packetAccept (r : PacketRun) (u : AncUnit) : PacketRun :=
  { r with
    st := (r.st.capture u).appendBytes u.bytes
    nunits := r.nunits + 1
    stored := r.stored + u.bytes.length }

/-- A unit that decoded completely, captured, whose bytes overflow the frame (R191). -/
def packetOverflow (r : PacketRun) (u : AncUnit) : PacketRun :=
  packetFinalize (packetError { r with st := r.st.capture u } .overflow) .overflow

/-- Phase 3, the loop over `n` more units from cursor `cur` (R189 to R192). -/
def unitLoop (sl : Slice) : Nat → Nat → PacketRun → Except Fault PacketRun
  | 0, _, r => .ok r
  | n + 1, cur, r =>
    match extractAncUnit r.st sl cur with
    | .error (.fault f) => .error f
    | .error .exhausted => .ok (packetError r .exhausted)
    | .ok u =>
      if overflows r.st u.bytes then .ok (packetOverflow r u)
      else unitLoop sl n u.next (packetAccept r u)

/-- Phase 3 (R187 to R192) of the packet whose registers are those of `s`: the ANC count and the units, or the
short payload of R188. After an allocation failure it does nothing (R186). -/
def packetUnits (s : State) (r : PacketRun) : Except Fault PacketRun :=
  if s.argHdrLen ≤ s.argLen ∧ r.err = none then
    match pktByte r.st 4 with
    | .ok count => unitLoop (packetSlice s) count.toNat 0 { r with count := count }
    | .error f => .error f
  else .ok (if r.err = none then packetError r .exhausted else r)

/-- Phase 4, the marker (R193). -/
def packetMarker (m : Bool) (r : PacketRun) : PacketRun :=
  if m = true ∧ r.st.status = .accumulating then
    { packetFinalize r .complete with mark := true, emitted := r.st.hasBytes }
  else r

/-- The result (R194). -/
def packetResult (r : PacketRun) : Result :=
  match r.err with
  | some e => .error e
  | none => if r.mark then (if r.emitted then .complete else .finalEmpty) else .pending

/-- Phase 5, the response (R194, R195). -/
def packetResp (r : PacketRun) : Resp :=
  { result := packetResult r, stale := r.stale, mark := r.mark
    nemit := BitVec.ofNat 2 r.nemit, nunits := BitVec.ofNat 8 r.nunits, ancCount := r.count }

/-- The packet up to the end of its units (phases 1 to 3). -/
def packetBody (s : State) : Except Fault PacketRun :=
  packetUnits s (packetOpen (packetDiscontinuity (packetStart s)))

/-- The packet's end (phases 4 and 5). -/
def packetEnd (m : Bool) (r : PacketRun) : State :=
  (packetMarker m r).st.respond (packetResp (packetMarker m r))

/-- `PROCESS_PACKET m` (R183). -/
def execProcessPacket (m : Bool) (s : State) : Host.Outcome State Fault Refusal :=
  if lenTooLong s || hdrOutOfRange s then .next (s.failCommand .badCmd)
  else
    match packetBody s with
    | .ok r => .next (packetEnd m r)
    | .error f => .fault f

/-- `FORCE_FINALIZE` (R201). -/
def execForceFinalize (s : State) : Host.Outcome State Fault Refusal :=
  match s.status with
  | .idle => .next (s.respond (Resp.only .ok))
  | .accumulating =>
    .next ((s.finalize .forced).respond
      (if s.hasBytes then { Resp.only .complete with nemit := 1 } else Resp.only .finalEmpty))

/-- `SOFT_RESET` (R202): the frame state, the result registers and the counters; the argument registers, the
buffers and `OUT` stay. -/
def execSoftReset (s : State) : Host.Outcome State Fault Refusal :=
  .next { s with
    status := .idle, curTs := 0, wrOff := 0, dbgValue := 0, unitLen := 0
    lastUnit := ⟨0, 0, 0, false⟩, lastCdpA := ⟨0, 0, 0, 0⟩, lastCdpB := ⟨0, 0⟩, lastCdpC := 0
    cntFrames := 0, cntStale := 0, cntExhausted := 0, cntOverflow := 0, cntAlloc := 0, cntBadcmd := 0
    resp := Resp.only .ok }

end Sys2Proof.Machine
end

