-- ==== Sys2Proof/Machine/Dispatch.lean ====
section
/-! DEFINITION. One arm per constructor of `Instr`, each one call of that instruction's meaning. -/

namespace Sys2Proof.Machine

def exec (i : Instr) (s : State) : Host.Outcome State Fault Refusal :=
  match i with
  | .processPacket m => Sys2Proof.Machine.execProcessPacket m s
  | .forceFinalize => Sys2Proof.Machine.execForceFinalize s
  | .softReset => Sys2Proof.Machine.execSoftReset s
  | .readBits n => Sys2Proof.Machine.execReadBits n s
  | .decodeWord => Sys2Proof.Machine.execDecodeWord s
  | .extractUnit => Sys2Proof.Machine.execExtractUnit s
  | .cdpUnit didHi sdidHi => Sys2Proof.Machine.execCdpUnit didHi sdidHi s
  | .otherUnit didw sdidw => Sys2Proof.Machine.execOtherUnit didw sdidw s

end Sys2Proof.Machine
end

