-- ==== Sys2Proof/Machine/Flags.lean ====
section
/-! DEFINITION. The coded values and the 32-bit views of the registers: the `RESULT` codes (R95), the record
kinds (R94), the layout of every register (10_state.md section 3) and the register map. -/

namespace Sys2Proof.Machine

/-- The code of an error (R230). -/
def ErrorCode.code : ErrorCode → BitVec 4
  | .exhausted => 8
  | .overflow => 9
  | .alloc => 10
  | .badCmd => 11

/-- The code of a result in `RESP.RESULT` (R95). -/
def Result.code : Result → BitVec 4
  | .none => 0
  | .ok => 1
  | .pending => 2
  | .complete => 3
  | .finalEmpty => 4
  | .error e => e.code

/-- The result is an error: bit 3 of its code (R56, R95). -/
def Result.isError : Result → Bool
  | .error _ => true
  | _ => false

/-- The code of `KIND` (R94). -/
def RecordKind.code : RecordKind → BitVec 2
  | .complete => 0
  | .stale => 1
  | .forced => 2
  | .overflow => 3

/-- `DLEN` of a record (R94). -/
def OutRecord.dlen (r : OutRecord) : BitVec 16 := BitVec.ofNat 16 r.data.length

/-- The bit `STATUS.ACC` (R31). -/
def FrameState.acc : FrameState → Bool
  | .idle => false
  | .accumulating => true

/-- `RESP` as a word (R30). -/
def Resp.word (r : Resp) : Word :=
  0#8 ++ r.ancCount ++ r.nunits ++ r.nemit ++ BitVec.ofBool r.mark ++ BitVec.ofBool r.stale ++ r.result.code

/-- `LAST_UNIT` as a word (R36, R159). -/
def LastUnit.word (u : LastUnit) : Word :=
  0#7 ++ BitVec.ofBool u.cdp ++ u.dc ++ u.sdid ++ u.did

/-- `LAST_CDP_A` as a word (R37, R159). -/
def LastCdpA.word (u : LastCdpA) : Word := u.rate ++ u.cdpLen ++ u.id1 ++ u.id0

/-- `LAST_CDP_B` as a word (R38, R159). -/
def LastCdpB.word (u : LastCdpB) : Word := 0#16 ++ u.ccWord ++ u.flags

/-- `CONFIG.SKIP_POLICY` (R41). -/
def SkipPolicy.bit : SkipPolicy → Bool
  | .reference => false
  | .declared => true

/-- `CONFIG` as a word (R41). -/
def configWord (c : Config) : Word := c.pktMax ++ 0#15 ++ BitVec.ofBool (SkipPolicy.bit c.skipPolicy)

/-- The register map of 10_state.md section 3. -/
def registerMap : List (Nat × Reg) :=
  [(0x00, .cmd), (0x04, .argTs), (0x08, .argLen), (0x0C, .argHdrLen), (0x10, .argCursor), (0x14, .resp),
   (0x18, .status), (0x1C, .curTs), (0x20, .wrOff), (0x24, .dbgValue), (0x28, .unitLen), (0x2C, .lastUnit)]
  ++ [(0x30, .lastCdpA), (0x34, .lastCdpB), (0x38, .lastCdpC), (0x3C, .capacity), (0x40, .config),
   (0x44, .cntFrames), (0x48, .cntStale), (0x4C, .cntExhausted), (0x50, .cntOverflow), (0x54, .cntAlloc),
   (0x58, .cntBadcmd)]

/-- The register at an offset of `CSR`, or none at a reserved offset (R23). -/
def regAt (off : Nat) : Option Reg := registerMap.lookup off

/-- The value a host read of a register returns; reserved bits read 0 (R23). -/
def readReg (s : State) : Reg → Word
  | .cmd => s.cmd
  | .argTs => s.argTs
  | .argLen => s.argLen.setWidth 32
  | .argHdrLen => s.argHdrLen.setWidth 32
  | .argCursor => s.argCursor
  | .resp => s.resp.word
  | .status => (BitVec.ofBool s.status.acc).setWidth 32
  | .curTs => s.curTs
  | .wrOff => s.wrOff.setWidth 32
  | .dbgValue => s.dbgValue
  | .unitLen => s.unitLen.setWidth 32
  | .lastUnit => s.lastUnit.word
  | .lastCdpA => s.lastCdpA.word
  | .lastCdpB => s.lastCdpB.word
  | .lastCdpC => s.lastCdpC.setWidth 32
  | .capacity => s.cfg.cap.setWidth 32
  | .config => configWord s.cfg
  | .cntFrames => s.cntFrames
  | .cntStale => s.cntStale
  | .cntExhausted => s.cntExhausted
  | .cntOverflow => s.cntOverflow
  | .cntAlloc => s.cntAlloc
  | .cntBadcmd => s.cntBadcmd

/-- The value a host read of an offset of `CSR` returns: a reserved offset reads 0 (R23). -/
def readCsr (s : State) (off : Nat) : Word :=
  match regAt off with
  | some r => readReg s r
  | none => 0

/-- A host write to an offset of `CSR` (R22, R23): the four argument registers and `CMD` store the bits
written, less the reserved ones; a write to a read-only, constant or reserved offset is ignored. -/
def writeCsr (s : State) (off : Nat) (v : Word) : State :=
  match regAt off with
  | some .cmd => { s with cmd := v }
  | some .argTs => { s with argTs := v }
  | some .argLen => { s with argLen := v.setWidth 16 }
  | some .argHdrLen => { s with argHdrLen := v.setWidth 16 }
  | some .argCursor => { s with argCursor := v }
  | _ => s

end Sys2Proof.Machine
end

