-- ==== Sys2Proof/Machine/HostPort.lean ====
section
/-! DEFINITION. The host's side of the interface: its accesses to `CSR`, `PKT` and `UBUF` (20_memory.md rules R61
to R64, 60_exceptions.md rule R247), the reset input (70_reset_and_hazards.md rule R260), and where the next
command word comes from. -/

namespace Sys2Proof.Machine

/-- Hard reset (R260 to R262): every register at its reset value and every buffer unspecified; `OUT`, `FAULTED`
and the build stay, and so do the host's own fields. -/
def hardReset (s : State) : State :=
  { State.reset with
    cfg := s.cfg, out := s.out, faulted := s.faulted
    draw := s.draw, host := s.host, hostData := s.hostData }

/-- A `CSR` access of the interface (R61): aligned, at most 0xFC and 32 bits wide. -/
def legalCsr (off width : Nat) : Bool := off % 4 == 0 && off ≤ 0xFC && width == 32

/-- A host read returns a value to the host and changes nothing of the block (R24). -/
def State.answer (s : State) (v : Word) : State := { s with hostData := v }

/-- The host writes a byte of the packet buffer, which puts its offset in `PKT_WRITTEN` (R62). -/
def State.storePkt (s : State) (a : Nat) (b : Byte) : State := { s with pktRam := s.pktRam.write a b }

/-- One host access. A write to `CMD` stores the word here (R25); `step` then runs the command. -/
def hostAccess (x : HostAction) (s : State) : Host.Outcome State Fault Refusal :=
  match x with
  | .writePkt a b => if a < s.cfg.pktMax.toNat then .next (s.storePkt a b) else .refused (.pktAccess a)
  | .readPkt a =>
    if a < s.cfg.pktMax.toNat then .next (s.answer ((hostPktByte s a).setWidth 32))
    else .refused (.pktAccess a)
  | .writeCsr off width v =>
    if legalCsr off width then .next (writeCsr s off v) else .refused (.csrAccess off width)
  | .readCsr off width =>
    if legalCsr off width then .next (s.answer (readCsr s off)) else .refused (.csrAccess off width)
  | .writeUnit _ _ => .next s
  | .readUnit a =>
    if a ≤ 95 then .next (s.answer ((unitByte s a).setWidth 32)) else .refused (.unitRead a)
  | .hardReset => .next (hardReset s)

/-- The command word a host access issues (R25): a write of the word to `CMD`. -/
def issuedCommand : HostAction → Option Word
  | .writeCsr 0 32 w => some w
  | _ => none

/-- Take the first of the host's accesses off its list; the rest is `rest`. The step has its own free inputs. -/
def State.advance (s : State) (rest : List HostAction) : State :=
  { s with host := rest, draw := s.draw + 1 }

/-- An illegal command word (R96, R234): `ERR_BADCMD`, and nothing but `RESP` and `CNT_BADCMD` changes. -/
def illegalCommand (s : State) : State := s.failCommand .badCmd

/-- Put a command word where `step` takes its next one: the host's next access writes it to `CMD`. -/
def placeCommand (s : State) (w : Word) : State := { s with host := .writeCsr 0 32 w :: s.host }

/-- The bytes of a unit with the given identifier pair and every later bit 0: 14 bytes, the whole of a CDP unit
with no caption word (110 bits, R92). -/
def unitImage (k : UnitId) : List Byte :=
  [k.extractLsb' 12 8, k.extractLsb' 4 8, k.extractLsb' 0 4 ++ 0#4] ++ List.replicate 11 0#8

/-- Put a unit where the debug slice begins, and `EXTRACT_UNIT` (0x00000006) where `step` takes its next command. -/
def placeUnit (s : State) (k : UnitId) : State :=
  placeCommand
    { s with pktRam := s.pktRam.writeRange 0 (unitImage k), argLen := 14, argCursor := 0 } 6

end Sys2Proof.Machine
end

