-- ==== Sys2Proof/Machine/Step.lean ====
section
/-! DEFINITION. One step: the host's next access, and with it the whole of the command it issues (R69). -/

namespace Sys2Proof.Machine

/-- One step. A run marked `FAULTED` has none (R247). With no access pending the block holds its state (R246,
R263). A write to `CMD` stores the word and then executes it, as one step (R25, R69). -/
def step (s : State) : Host.Outcome State Fault Refusal :=
  if s.faulted then .fault .runFaulted
  else
    match s.host with
    | [] => .next s
    | x :: rest =>
      match hostAccess x (s.advance rest) with
      | .next t =>
        match issuedCommand x with
        | none => .next t
        | some w =>
          match decodeCommand w with
          | .ok i => exec i t
          | .error _ => .next (illegalCommand t)
      | .fault f => .fault f
      | .refused r => .refused r

/-- `s` with the instruction of an opcode table word where `step` takes its next instruction: a command word as
the host's next write to `CMD`; a unit in the debug slice, with the command that extracts it. -/
def State.withFetchWord (s : State) (nbits w : Nat) : State :=
  if nbits = 32 then placeCommand s (BitVec.ofNat 32 w) else placeUnit s (BitVec.ofNat 20 w)

end Sys2Proof.Machine
end

