-- ==== Sys2Proof/Safety.lean ====
section
/-! DEFINITION. The terms the statements use: the invariant of 10_state.md rule R55 with what makes it
inductive, the conditions under which a command runs, and the wire format of 30_encoding.md written as bits,
apart from the machine that reads it. -/

namespace Sys2Proof.Machine

/-! ### The invariant -/

/-- What holds between any two steps (R55): the frame within its capacity, Idle with no byte, records of 1 to
`CAP` bytes; every memory in canonical form and inside its space (R60); and the bytes the frame and `UNIT_BUF`
hold were stored. -/
structure State.Inv (s : State) : Prop where
  legal : s.cfg.Legal
  wrOff_le : s.wrOff.toNat ≤ s.cfg.cap.toNat
  idle_empty : s.status = .idle → s.wrOff = 0
  record_size : ∀ r ∈ s.out, 1 ≤ r.data.length ∧ r.data.length ≤ s.cfg.cap.toNat
  pkt_wf : Memory.wf s.pktRam
  acc_wf : Memory.wf s.accBuf
  unit_wf : Memory.wf s.unitBuf
  pkt_range : ∀ x ∈ s.pktRam, x.1 < s.cfg.pktMax.toNat
  acc_range : ∀ x ∈ s.accBuf, x.1 < s.cfg.cap.toNat
  unit_range : ∀ x ∈ s.unitBuf, x.1 < 96
  acc_stored : ∀ a < s.wrOff.toNat, (s.accBuf.read a).isSome
  unitLen_le : s.unitLen.toNat ≤ 93
  unit_stored : ∀ a < s.unitLen.toNat, (s.unitBuf.read a).isSome
  nemit_le : s.resp.nemit.toNat ≤ 2

/-! ### When a command runs -/

/-- A command may read the byte at offset `a` of `PKT` (R9): it is written, or the build draws it. -/
abbrev PktReadable (s : State) (a : Nat) : Prop :=
  s.cfg.unwrittenRead = .any ∨ s.pktWritten a = true

/-- Every byte of the payload may be read: the host's duty before a command (R263). -/
def PayloadReadable (s : State) : Prop := ∀ a < s.argLen.toNat, PktReadable s a

/-- One of the bytes that hold the `n` bits from stream bit `c` of the slice is not in `PKT_WRITTEN` (R53, R68). -/
def TouchesUnwritten (s : State) (sl : Slice) (c n : Nat) : Prop :=
  ∃ a, sl.base + c / 8 ≤ a ∧ a ≤ sl.base + (c + n - 1) / 8 ∧ s.pktWritten a = false

/-- `ARG_LEN` is in range (R27, R234). -/
abbrev LenLegal (s : State) : Prop := s.argLen.toNat ≤ s.cfg.pktMax.toNat

/-- `ARG_LEN` and `ARG_HDRLEN` are in range for `PROCESS_PACKET` (R28, R234). -/
abbrev PacketLegal (s : State) : Prop :=
  LenLegal s ∧ 5 ≤ s.argHdrLen.toNat ∧ s.argHdrLen.toNat ≤ s.cfg.pktMax.toNat

/-- A packet of these registers opens a frame (R185): the block is Idle, or its frame has another timestamp. -/
abbrev OpensFrame (s : State) : Prop := s.status = .idle ∨ s.argTs ≠ s.curTs

/-- A packet of these registers finds a discontinuity (R184). -/
abbrev Discontinuity (s : State) : Prop := s.status = .accumulating ∧ s.argTs ≠ s.curTs

/-- The command word `w`, issued in state `s`, fails with `ERR_BADCMD` (R234). -/
def FailsBadCmd (w : Word) (s : State) : Prop :=
  badCmd w = true
    ∨ ((opField w = 1 ∨ opField w = 4 ∨ opField w = 5 ∨ opField w = 6) ∧ ¬ LenLegal s)
    ∨ (opField w = 1 ∧ (s.argHdrLen.toNat < 5 ∨ s.cfg.pktMax.toNat < s.argHdrLen.toNat))

/-- The operands of `i` in state `s` fail with `ERR_BADCMD` (R128, R234). -/
def ArgumentFails (i : Instr) (s : State) : Prop :=
  match i with
  | .processPacket _ => ¬ PacketLegal s
  | .readBits n => n = 0 ∨ 32 < n.toNat ∨ ¬ LenLegal s
  | .decodeWord | .extractUnit | .cdpUnit _ _ | .otherUnit _ _ => ¬ LenLegal s
  | .forceFinalize | .softReset => False

/-! ### Frames and packets -/

/-- The record a finalize of the open frame emits, if the frame has bytes (R181, R182). -/
def finalRecord (k : RecordKind) (s : State) : List OutRecord :=
  if s.wrOff = 0 then [] else [⟨k, s.curTs, s.frameBytes⟩]

/-- The records a packet's discontinuity emits (R184). -/
def staleRecords (s : State) : List OutRecord :=
  if Discontinuity s then finalRecord .stale s else []

/-- The machine once a packet's discontinuity (R184) is done. -/
def afterDiscontinuity (s : State) : State :=
  if Discontinuity s then
    { s with
      status := .idle, wrOff := 0, out := s.out ++ staleRecords s
      cntFrames := s.cntFrames + BitVec.ofNat 32 (staleRecords s).length
      cntStale := s.cntStale + 1 }
  else s

/-- The machine once a packet's frame is open (R184, R185), its allocation having succeeded. -/
def afterOpen (s : State) : State :=
  if OpensFrame s then
    { afterDiscontinuity s with status := .accumulating, curTs := s.argTs, wrOff := 0 }
  else s

/-- `n` ANC units back to back from stream bit `cur` (R85, R189), all complete. -/
def unitsFrom (s : State) (sl : Slice) : Nat → Nat → Except ReadStop (List AncUnit)
  | 0, _ => .ok []
  | n + 1, cur =>
    match extractAncUnit s sl cur with
    | .error e => .error e
    | .ok u =>
      match unitsFrom s sl n u.next with
      | .error e => .error e
      | .ok us => .ok (u :: us)

/-- The first bit after a list of units that begins at `cur` (R85). -/
def unitsEnd (cur : Nat) (us : List AncUnit) : Nat := us.foldl (fun _ u => u.next) cur

/-- The caption bytes of a list of units, in unit order (R189). -/
def captionBytes (us : List AncUnit) : List Byte := us.flatMap (·.bytes)

/-- The machine with `u` captured (R159), register by register and field by field: the header of every unit, the
preamble of a CDP unit. -/
def captured (s : State) (u : AncUnit) : State :=
  { s with
    lastUnit := { did := u.did, sdid := u.sdid, dc := u.dc, cdp := u.isCdp }
    lastCdpA :=
      if u.isCdp then { id0 := u.id0, id1 := u.id1, cdpLen := u.cdpLen, rate := u.rate } else s.lastCdpA
    lastCdpB := if u.isCdp then { flags := u.flags, ccWord := u.ccWord } else s.lastCdpB
    lastCdpC := if u.isCdp then u.composite else s.lastCdpC }

/-- The capture registers after a list of units (R159, R189). -/
def captureAll (s : State) (us : List AncUnit) : State := us.foldl captured s

/-- The machine after a packet has opened its frame and its units `us` are captured and accepted (R189, R190). -/
def afterUnits (s : State) (us : List AncUnit) : State :=
  let t := captureAll (afterOpen s) us
  { t with
    accBuf := t.accBuf.writeRange t.wrOff.toNat (captionBytes us)
    wrOff := BitVec.ofNat 16 (t.wrOff.toNat + (captionBytes us).length) }

/-- The marker's effect on a machine `t` with an open frame (R193): nothing without the marker. -/
def afterMarker (m : Bool) (t : State) : State :=
  if m then
    { t with
      status := .idle, wrOff := 0, out := t.out ++ finalRecord .complete t
      cntFrames := t.cntFrames + BitVec.ofNat 32 (finalRecord .complete t).length }
  else t

/-- The result of a packet that ends with an open frame `t` and no error (R194). -/
def markerResult (m : Bool) (t : State) : Result :=
  if m then (if t.wrOff = 0 then .finalEmpty else .complete) else .pending

/-- How many records the marker emits from an open frame `t` (R193, R195). -/
def markerCount (m : Bool) (t : State) : Nat := if m then (finalRecord .complete t).length else 0

/-- The response of a packet issued in state `s` with the marker `m`, which ends with the open frame `t`
(R194, R195). -/
def packetResponse (m : Bool) (s t : State) (r : Result) (nunits : Nat) (count : Byte) : Resp :=
  { result := r, stale := decide (Discontinuity s), mark := m
    nemit := BitVec.ofNat 2 ((staleRecords s).length + markerCount m t)
    nunits := BitVec.ofNat 8 nunits, ancCount := count }

/-- The caption bytes of all the units a packet counts, in order (R197); none where they do not all decode. -/
def packetCaptions (s : State) : List Byte :=
  match pktByte s 4 with
  | .error _ => []
  | .ok count =>
    match unitsFrom s (packetSlice s) count.toNat 0 with
    | .error _ => []
    | .ok us => captionBytes us

/-- The state in which the command word `w` runs, once the host's write of it to `CMD` is off its list (R25). -/
def issued (s : State) (w : Word) (rest : List HostAction) : State :=
  { s with cmd := w, host := rest, draw := s.draw + 1 }

/-- The host's next access, if any, may come between two packets of a frame (R197): it is no reset, and no
`PROCESS_PACKET`, `FORCE_FINALIZE` or `SOFT_RESET`. -/
def QuietNext (s : State) : Prop :=
  ∀ x rest, s.host = x :: rest → x ≠ .hardReset
    ∧ ∀ w i, x = .writeCsr 0x00 32 w → decodeCommand w = .ok i →
      (∀ m, i ≠ .processPacket m) ∧ i ≠ .forceFinalize ∧ i ≠ .softReset

/-- `FrameRun ts out s bs`: a run of steps ending in state `s`, in which one or more packets with timestamp `ts` and
no marker (command word 0x00000001) ran without error, the first of them opening the frame, and between and after
them only quiet steps. The caption bytes of their units, in order, are `bs`; the records emitted up to the frame's
opening are `out` (R197). -/
inductive FrameRun (ts : Word) : List OutRecord → State → List Byte → Prop where
  | first (s t : State) (rest : List HostAction) : s.host = .writeCsr 0x00 32 0x00000001 :: rest →
      s.argTs = ts → OpensFrame s → step s = .next t → t.resp.result = .pending →
      FrameRun ts (s.out ++ staleRecords (issued s 1 rest)) t (packetCaptions (issued s 1 rest))
  | quiet (out : List OutRecord) (s t : State) (bs : List Byte) : FrameRun ts out s bs → QuietNext s →
      step s = .next t → FrameRun ts out t bs
  | more (out : List OutRecord) (s t : State) (bs : List Byte) (rest : List HostAction) : FrameRun ts out s bs →
      s.host = .writeCsr 0x00 32 0x00000001 :: rest → s.argTs = ts → step s = .next t →
      t.resp.result = .pending → FrameRun ts out t (bs ++ packetCaptions (issued s 1 rest))

/-- The record of a completed frame with these caption bytes, if there are any (R193, R197). -/
def completeRecord (ts : Word) (bs : List Byte) : List OutRecord :=
  if bs = [] then [] else [⟨.complete, ts, bs⟩]

/-- The first offset of `ACC` a packet of these registers can store to (R185, R190): 0 where it opens a frame,
and `WR_OFF` where its frame is open. -/
def firstStored (s : State) : Nat := if OpensFrame s then 0 else s.wrOff.toNat

/-- Change the state of a next outcome, and no other. -/
def onNext (f : State → State) : Host.Outcome State Fault Refusal → Host.Outcome State Fault Refusal
  | .next t => .next (f t)
  | .fault e => .fault e
  | .refused r => .refused r

/-! ### The wire format as bits -/

/-- The bits of a field, most significant first (R65). -/
def msbBits {w : Nat} (v : BitVec w) : List Bool := (List.range w).map v.getMsbD

/-- The slice holds these bits from stream bit `c`, all inside it and all readable (R65, R120). -/
def BitsAt (s : State) (sl : Slice) (c : Nat) (bits : List Bool) : Prop :=
  c + bits.length ≤ sl.bitLen ∧
    ∀ (j : Nat) (h : j < bits.length), streamBit s sl (c + j) = .ok bits[j]

/-- The data byte of an ANC word (R93). -/
def dataByte (w : AncWord10) : Byte := w.extractLsb' 0 8

/-- The fields of a CDP unit after its identifier words, as 10-bit words and the 20-bit field (R87, R89 to R91). -/
structure CdpFields where
  dcw : AncWord10
  id0w : AncWord10
  id1w : AncWord10
  lenw : AncWord10
  ratew : AncWord10
  flagsw : AncWord10
  composite : BitVec 20
  ccw : AncWord10
  captions : List AncWord10
deriving DecidableEq, Repr

/-- The unit holds `3 × captionCount` caption words, `captionCount = CCW[4:0]` (R90, R91). -/
def CdpFields.Counted (f : CdpFields) : Prop := f.captions.length = 3 * (f.ccw.extractLsb' 0 5).toNat

/-- The bits of the fields, in the order of R87 and R89 to R91. -/
def CdpFields.bits (f : CdpFields) : List Bool :=
  msbBits f.dcw ++ msbBits f.id0w ++ msbBits f.id1w ++ msbBits f.lenw ++ msbBits f.ratew
    ++ msbBits f.flagsw ++ msbBits f.composite ++ msbBits f.ccw ++ f.captions.flatMap msbBits

/-- The identifier words of a CDP unit with the given bits 9:8 (R88). -/
def cdpIdBits (didHi sdidHi : BitVec 2) : List Bool :=
  msbBits didHi ++ msbBits 0x61#8 ++ msbBits sdidHi ++ msbBits 0x01#8

/-- What decoding the fields gives (R150 to R155): the data bytes, the raw 20-bit field, the caption bytes in
order, and the first bit after the unit, which begins at `cur`. -/
def CdpFields.unit (f : CdpFields) (cur : Nat) : AncUnit where
  did := 0x61
  sdid := 0x01
  dc := dataByte f.dcw
  isCdp := true
  id0 := dataByte f.id0w
  id1 := dataByte f.id1w
  cdpLen := dataByte f.lenw
  rate := dataByte f.ratew
  flags := dataByte f.flagsw
  composite := f.composite
  ccWord := dataByte f.ccw
  bytes := f.captions.map dataByte
  next := cur + 110 + 30 * (f.ccw.extractLsb' 0 5).toNat

/-- What decoding an other unit gives (R150, R156): its header's data bytes, no caption byte, every CDP field 0, and
the first bit after it. -/
def otherUnitOf (didw sdidw dcw : AncWord10) (next : Nat) : AncUnit where
  did := dataByte didw
  sdid := dataByte sdidw
  dc := dataByte dcw
  isCdp := false
  id0 := 0
  id1 := 0
  cdpLen := 0
  rate := 0
  flags := 0
  composite := 0
  ccWord := 0
  bytes := []
  next := next

/-- How many bits an other unit takes after its header (R92, R156). -/
def skipBits (s : State) (dc : Byte) : Nat :=
  match s.cfg.skipPolicy with
  | .reference => 0
  | .declared => 10 * dc.toNat

/-- The unit a unit-level instruction reads: its function of the state, the same the meaning uses. -/
def unitRead (i : Instr) (s : State) : Except ReadStop AncUnit :=
  match i with
  | .cdpUnit _ _ => cdpUnitBody s (debugSlice s) (s.argCursor.toNat + 20)
  | .otherUnit didw sdidw => otherUnitBody s (debugSlice s) didw sdidw (s.argCursor.toNat + 20)
  | _ => extractAncUnit s (debugSlice s) s.argCursor.toNat

/-- The state a successful extraction of `u` leaves (R160). -/
def afterExtract (s : State) (u : AncUnit) : State :=
  { captured s u with
    unitBuf := s.unitBuf.writeRange 0 u.bytes
    unitLen := BitVec.ofNat 7 u.bytes.length
    argCursor := BitVec.ofNat 32 u.next
    resp := ⟨.ok, false, false, 0, 1, 0⟩ }

end Sys2Proof.Machine
end

