-- ==== Sys2Proof/Certificates/Slice0/Obligations.lean ====
section
/-! DEFINITION. The statements about the model, for the provers. Each docstring names the rule of spec/ it follows. -/

open Sys2Proof Sys2Proof.Machine

/-! ### Encodings -/

/-- Words written out from 30_encoding.md (R80, R81, R88, R99) decode to the instructions they stand for, and
words R96 makes illegal are refused by name. -/
def Obligations.SampleWordsDecode : Prop :=
  decode (.command 0x00000001) = .ok (.processPacket false)
  ∧ decode (.command 0x00000011) = .ok (.processPacket true)
  ∧ decode (.command 0x00000002) = .ok .forceFinalize
  ∧ decode (.command 0x00000003) = .ok .softReset
  ∧ decode (.command 0x00000A04) = .ok (.readBits 10)
  ∧ decode (.command 0x00002004) = .ok (.readBits 32)
  ∧ decode (.command 0x00000005) = .ok .decodeWord
  ∧ decode (.command 0x00000006) = .ok .extractUnit
  ∧ decode (.unitId 0x18401) = .ok (.cdpUnit 0 0)
  ∧ decode (.unitId 0x58501) = .ok (.cdpUnit 1 1)
  ∧ decode (.unitId 0x10405) = .ok (.otherUnit 0x041 0x005)
  ∧ decode (.command 0x00000007) = .error (.reservedOpcode 7)
  ∧ decode (.command 0x00000024) = .error .reservedBits
  ∧ decode (.command 0x00000012) = .error .markerSet
  ∧ decode (.command 0x00000101) = .error .widthSet

/-- Decoding the encoding of a well-formed instruction gives it back, with every operand (R80 to R83, R88). -/
def Obligations.DecodeInvertsEncode : Prop :=
  ∀ i : Instr, i.wellFormed = true → decode (encode i) = .ok i

/-- Each encoding has one meaning: what decodes to an instruction is that instruction's encoding, and the
instruction is well formed (R80 to R83, R88). -/
def Obligations.EncodeInvertsDecode : Prop :=
  ∀ (e : Encoded) (i : Instr), decode e = .ok i → i.wellFormed = true ∧ encode i = e

/-- `BadCmd(w)` of R96 holds exactly of the words the decoder refuses and of the `READ_BITS` words whose width
is 0 or above 32. -/
def Obligations.BadWordsAreTheRefusedOnes : Prop :=
  ∀ w : Word, badCmd w = true ↔
    (∃ e, decodeCommand w = .error e)
      ∨ ∃ n, decodeCommand w = .ok (.readBits n) ∧ (n = 0 ∨ 32 < n.toNat)

/-- R88: the mask and match of an identifier pair say that the low bytes are 0x61 and 0x01; such a pair is a CDP
unit whatever bits 9:8 hold, and every other pair is an other unit. -/
def Obligations.UnitKindByDataBytes : Prop :=
  ∀ d e : AncWord10,
    ((d ++ e : UnitId) &&& 0x3FCFF#20 = 0x18401#20 ↔ dataByte d = 0x61 ∧ dataByte e = 0x01)
    ∧ decode (.unitId (d ++ e)) = .ok
        (if dataByte d = 0x61 ∧ dataByte e = 0x01
          then .cdpUnit (d.extractLsb' 8 2) (e.extractLsb' 8 2) else .otherUnit d e)

/-! ### The step -/

/-- When the host's next access writes a word to `CMD` that decodes to `i`, the step is `exec i` of the state in
which `CMD` holds the word (R25), the access is off the host's list and the step has its own free inputs. -/
def Obligations.StepRunsDecodedCommand : Prop :=
  ∀ (s : State) (w : Word) (rest : List HostAction) (i : Instr),
    s.faulted = false → s.host = .writeCsr 0x00 32 w :: rest → decodeCommand w = .ok i →
    step s = exec i { s with cmd := w, host := rest, draw := s.draw + 1 }

/-- The step of `EXTRACT_UNIT` (0x00000006), where the debug slice holds two words at the cursor, is `exec` of the
unit those words decode to (R88, R160). That a unit is an instruction with an `exec` of its own is the model's choice
(assumption 3). -/
def Obligations.StepRunsDecodedUnit : Prop :=
  ∀ (s s' : State) (rest : List HostAction) (d e : DecodedWord),
    s.faulted = false → s.host = .writeCsr 0x00 32 6 :: rest →
    s' = { s with cmd := 6, host := rest, draw := s.draw + 1 } →
    decodeAncWord s' (debugSlice s') s'.argCursor.toNat = .ok d →
    decodeAncWord s' (debugSlice s') d.next = .ok e →
    step s = exec (decodeUnitId (d.raw ++ e.raw)) s'

/-- A table word placed by `withFetchWord` is what the next step runs: a command word as the next write to `CMD`,
a unit at the start of the debug slice (the model's choice, assumptions 2 and 4). -/
def Obligations.PlacedTableWordRuns : Prop :=
  ∀ s : State, s.faulted = false →
    (∀ (w : Word) (i : Instr), decodeCommand w = .ok i →
      step (s.withFetchWord 32 w.toNat) = exec i { s with cmd := w, draw := s.draw + 1 })
    ∧ (∀ k : UnitId,
      step (s.withFetchWord 24 k.toNat) = exec (decodeUnitId k)
        { s with
          cmd := 6, draw := s.draw + 1, argLen := 14, argCursor := 0
          pktRam := s.pktRam.writeRange 0 (unitImage k) })

/-- With no host access pending the block holds its state (R246, R263). A run marked `FAULTED` has no step, whatever
the host does, a reset included (R53, R247). -/
def Obligations.StepWithoutAccess : Prop :=
  ∀ s : State,
    (s.faulted = false → s.host = [] → step s = .next s)
    ∧ (s.faulted = true → step s = .fault .runFaulted)

/-! ### Reset -/

/-- R260: after hard reset every register offset reads its reset value, no byte of `PKT_RAM` is written, the block
is Idle, and `OUT`, `FAULTED` and the build are as they were. -/
def Obligations.HardResetValues : Prop :=
  ∀ (s : State) (rest : List HostAction), s.faulted = false → s.host = .hardReset :: rest →
    ∃ t, step s = .next t
      ∧ (∀ off, readCsr t off =
          if off = 0x0C then 0x0000000C
          else if off = 0x3C then s.cfg.cap.setWidth 32
          else if off = 0x40 then s.cfg.pktMax ++ 0#15 ++ BitVec.ofBool (s.cfg.skipPolicy = .declared)
          else 0)
      ∧ t.status = .idle ∧ (∀ a, t.pktWritten a = false)
      ∧ t.out = s.out ∧ t.faulted = s.faulted ∧ t.cfg = s.cfg

/-- Power-on reset (R260): the registers as after hard reset, with the default build (R5 to R7), and no record
emitted yet (the model's choice, assumption 12). -/
def Obligations.PowerOnValues : Prop :=
  (∀ off, readCsr State.reset off =
      if off = 0x0C then 0x0000000C
      else if off = 0x3C then 0x00000200
      else if off = 0x40 then 0x08000000
      else 0)
  ∧ State.reset.status = .idle ∧ (∀ a, State.reset.pktWritten a = false) ∧ State.reset.out = []

/-! ### Invariants and whole-machine rules -/

/-- The invariant holds after reset (R55, R260). -/
def Obligations.ResetMeetsInvariant : Prop := State.reset.Inv

/-- Every step keeps the invariant (R55, R203): `WR_OFF` within `CAP`, Idle without bytes, records of 1 to `CAP`
bytes, and every memory in canonical form inside its space. -/
def Obligations.StepKeepsInvariant : Prop :=
  ∀ s t : State, s.Inv → step s = .next t → t.Inv

/-- `CAPACITY` and `CONFIG` never change (R40, R41). No next state has another `FAULTED` than the state before: in this
model the event that sets it is a fault, an outcome with no state (the model's choice, assumption 10). -/
def Obligations.StepKeepsBuild : Prop :=
  ∀ s t : State, step s = .next t →
    t.cfg = s.cfg ∧ t.faulted = s.faulted ∧ (∀ off, off = 0x3C ∨ off = 0x40 → readCsr t off = readCsr s off)

/-- R52: the block only appends to `OUT`, at most two records a step, and reset removes none. -/
def Obligations.OutputOnlyGrows : Prop :=
  ∀ s t : State, step s = .next t → ∃ rs, t.out = s.out ++ rs ∧ rs.length ≤ 2

/-- The block writes neither `PKT_RAM` (R50) nor the registers it only reads (R25 to R28), and `ARG_CURSOR` only in
a successful debug command (R29), a unit on its own among them (assumption 3); nor anything of the host's side. -/
def Obligations.CommandKeepsHostInputs : Prop :=
  ∀ (i : Instr) (s t : State), exec i s = .next t →
    t.pktRam = s.pktRam ∧ t.cmd = s.cmd ∧ t.argTs = s.argTs ∧ t.argLen = s.argLen ∧ t.argHdrLen = s.argHdrLen
    ∧ t.cfg = s.cfg ∧ t.faulted = s.faulted ∧ t.draw = s.draw ∧ t.host = s.host ∧ t.hostData = s.hostData
    ∧ (t.argCursor ≠ s.argCursor → t.resp.result = .ok
        ∧ ((∃ n, i = .readBits n) ∨ i = .decodeWord ∨ i = .extractUnit
          ∨ (∃ a b, i = .cdpUnit a b) ∨ ∃ d e, i = .otherUnit d e))

/-- Every command completes where the payload may be read (R238, R263), with a result other than `NONE` (R95).
An illegal word completes in the step (assumption 14), and the units stand as instructions by assumption 3. -/
def Obligations.EveryCommandCompletes : Prop :=
  ∀ (i : Instr) (s : State), PayloadReadable s → ∃ t, exec i s = .next t ∧ t.resp.result ≠ .none

/-- A command stops only on a byte of the payload the host has not written, under `UNWRITTEN_PKT_READ = FAULT`
(R9, R247), and is never refused. And there it does stop: a read that touches an unwritten byte faults on any slice,
and so do `READ_BITS` and `DECODE_WORD` on their bits, `EXTRACT_UNIT` on its first word, a unit on its own
(assumption 3) on its data count, `PROCESS_PACKET` on byte 4 and on a unit whose extraction faults. -/
def Obligations.OnlyUnwrittenBytesFault : Prop :=
  (∀ (i : Instr) (s : State),
    (∀ f, exec i s = .fault f → s.cfg.unwrittenRead = .fault
      ∧ ∃ a < s.argLen.toNat, s.pktWritten a = false ∧ f = .unwrittenPkt a)
    ∧ ∀ r, exec i s ≠ .refused r)
  ∧ (∀ (s : State) (sl : Slice) (c n : Nat), s.cfg.unwrittenRead = .fault → 1 ≤ n → c + n ≤ sl.bitLen →
    TouchesUnwritten s sl c n → ∃ f, readBits s sl c n = .error (.fault f))
  ∧ (∀ s : State, s.cfg.unwrittenRead = .fault → LenLegal s →
    (∀ n : BitVec 6, 1 ≤ n.toNat → n.toNat ≤ 32 → s.argCursor.toNat + n.toNat ≤ 8 * s.argLen.toNat →
      TouchesUnwritten s (debugSlice s) s.argCursor.toNat n.toNat → ∃ f, exec (.readBits n) s = .fault f)
    ∧ (s.argCursor.toNat + 10 ≤ 8 * s.argLen.toNat → TouchesUnwritten s (debugSlice s) s.argCursor.toNat 10 →
      (∃ f, exec .decodeWord s = .fault f) ∧ ∃ f, exec .extractUnit s = .fault f)
    ∧ (s.argCursor.toNat + 30 ≤ 8 * s.argLen.toNat →
      TouchesUnwritten s (debugSlice s) (s.argCursor.toNat + 20) 10 →
      ∀ i : Instr, (∃ a b, i = .cdpUnit a b) ∨ (∃ d e, i = .otherUnit d e) → ∃ f, exec i s = .fault f))
  ∧ ∀ (m : Bool) (s : State), PacketLegal s → (OpensFrame s → s.allocOk = true) →
    s.argHdrLen.toNat ≤ s.argLen.toNat →
    (s.cfg.unwrittenRead = .fault → s.pktWritten 4 = false →
      exec (.processPacket m) s = .fault (.unwrittenPkt 4))
    ∧ ∀ (count : Byte) (k : Nat) (us : List AncUnit) (f : Fault), pktByte s 4 = .ok count → k < count.toNat →
      unitsFrom s (packetSlice s) k 0 = .ok us →
      extractAncUnit s (packetSlice s) (unitsEnd 0 us) = .error (.fault f) →
      firstStored s + (captionBytes us).length ≤ s.cfg.cap.toNat → exec (.processPacket m) s = .fault f

/-- The four error counters (R45 to R48): each counts, modulo 2^32, the commands whose `RESULT` is its error.
An illegal word is counted in the step (assumption 14), and the units stand as instructions by assumption 3. -/
def Obligations.ErrorCountersCountResults : Prop :=
  ∀ (i : Instr) (s t : State), i ≠ .softReset → exec i s = .next t →
    t.cntExhausted = s.cntExhausted + (if t.resp.result = .error .exhausted then 1 else 0)
    ∧ t.cntOverflow = s.cntOverflow + (if t.resp.result = .error .overflow then 1 else 0)
    ∧ t.cntAlloc = s.cntAlloc + (if t.resp.result = .error .alloc then 1 else 0)
    ∧ t.cntBadcmd = s.cntBadcmd + (if t.resp.result = .error .badCmd then 1 else 0)

/-- `RESP.NEMIT` is the number of records the command appended (R195), `CNT_FRAMES` counts them (R43), and of two
records the `STALE` one comes first. -/
def Obligations.EmissionsAreCounted : Prop :=
  ∀ (i : Instr) (s t : State), i ≠ .softReset → exec i s = .next t →
    ∃ rs, t.out = s.out ++ rs ∧ rs.length = t.resp.nemit.toNat ∧ rs.length ≤ 2
      ∧ t.cntFrames = s.cntFrames + BitVec.ofNat 32 rs.length
      ∧ (∀ r₁ r₂, rs = [r₁, r₂] → r₁.kind = .stale ∧ (r₂.kind = .complete ∨ r₂.kind = .overflow))

/-- `CNT_STALE` counts the discontinuities (R44), which `RESP.STALE` reports, and only a `PROCESS_PACKET` with legal
arguments finds one (R184). -/
def Obligations.StaleCountsDiscontinuities : Prop :=
  ∀ (i : Instr) (s t : State), i ≠ .softReset → exec i s = .next t →
    t.cntStale = s.cntStale + (if t.resp.stale then 1 else 0)
    ∧ (t.resp.stale = true ↔ (∃ m, i = .processPacket m) ∧ PacketLegal s ∧ Discontinuity s)

/-- Which results the meaning of each instruction can report (R95). An illegal command word, which every command
answers with `ERR_BADCMD`, is no instruction here but a case of the step (the model's choice, assumption 14), and the
units stand as instructions by assumption 3. -/
def Obligations.ResultsByCommand : Prop :=
  ∀ (i : Instr) (s t : State), exec i s = .next t →
    match i with
    | .processPacket _ => t.resp.result ≠ .none ∧ t.resp.result ≠ .ok
    | .forceFinalize => t.resp.result = .ok ∨ t.resp.result = .complete ∨ t.resp.result = .finalEmpty
    | .softReset => t.resp.result = .ok
    | .readBits _ | .decodeWord | .extractUnit | .cdpUnit _ _ | .otherUnit _ _ =>
      t.resp.result = .ok ∨ t.resp.result = .error .exhausted ∨ t.resp.result = .error .badCmd

/-- `CUR_TS` is written only when a frame is opened, with `ARG_TS`, and by `SOFT_RESET` (R32). -/
def Obligations.OnlyOpenWritesTimestamp : Prop :=
  ∀ (i : Instr) (s t : State), exec i s = .next t → t.curTs ≠ s.curTs →
    (i = .softReset ∧ t.curTs = 0)
    ∨ ((∃ m, i = .processPacket m) ∧ PacketLegal s ∧ OpensFrame s ∧ s.allocOk = true ∧ t.curTs = s.argTs)

/-- The debug commands, and a unit on its own (assumption 3), touch neither the frame state nor `OUT` (R31, R125, R143, R160). -/
def Obligations.DebugCommandsKeepFrame : Prop :=
  ∀ (i : Instr) (s t : State), (∀ m, i ≠ .processPacket m) → i ≠ .forceFinalize → i ≠ .softReset →
    exec i s = .next t →
    t.status = s.status ∧ t.curTs = s.curTs ∧ t.wrOff = s.wrOff ∧ t.out = s.out
    ∧ (∀ a, t.accBuf.read a = s.accBuf.read a)

/-! ### Errors -/

/-- R234: a command that fails with `ERR_BADCMD`, for its word or for an argument register, changes only `RESP`
(`RESULT = 11`, other fields 0) and `CNT_BADCMD`; `CMD` keeps the word the host wrote. -/
def Obligations.BadCommandChangesNothingElse : Prop :=
  ∀ (s : State) (w : Word) (rest : List HostAction),
    s.faulted = false → s.host = .writeCsr 0x00 32 w :: rest → FailsBadCmd w s →
    step s = .next { s with
      cmd := w, host := rest, draw := s.draw + 1
      resp := ⟨.error .badCmd, false, false, 0, 0, 0⟩, cntBadcmd := s.cntBadcmd + 1 }

/-- R234, by instruction: one whose argument register is out of range, or a `READ_BITS` of an illegal width (R128),
changes only `RESP` and `CNT_BADCMD`. A unit as an instruction has the guard of `EXTRACT_UNIT` (assumption 3). -/
def Obligations.BadArgumentsChangeNothingElse : Prop :=
  ∀ (i : Instr) (s : State), ArgumentFails i s → exec i s = .next { s with
    resp := ⟨.error .badCmd, false, false, 0, 0, 0⟩, cntBadcmd := s.cntBadcmd + 1 }

/-- R95: the codes of `RESULT`; bit 3 is set exactly for the errors; the reserved codes are never produced. -/
def Obligations.ResultCodes : Prop :=
  Result.none.code = 0 ∧ Result.ok.code = 1 ∧ Result.pending.code = 2 ∧ Result.complete.code = 3
  ∧ Result.finalEmpty.code = 4 ∧ (Result.error .exhausted).code = 8 ∧ (Result.error .overflow).code = 9
  ∧ (Result.error .alloc).code = 10 ∧ (Result.error .badCmd).code = 11
  ∧ ∀ r : Result, r.code.getLsbD 3 = r.isError ∧ r.code ≠ 5 ∧ r.code ≠ 6 ∧ r.code ≠ 7 ∧ r.code.toNat < 12

/-! ### The bit reader -/

/-- `READ_BITS n` (R125), where its `n` bits lie in the slice and their bytes may be read: `DBG_VALUE` is their value,
the first bit the most significant (R121), the cursor advances by `n`, and `RESULT` is `OK`. -/
def Obligations.ReadBitsResult : Prop :=
  ∀ (n : BitVec 6) (s : State), 1 ≤ n.toNat → n.toNat ≤ 32 → LenLegal s →
    s.argCursor.toNat + n.toNat ≤ 8 * s.argLen.toNat →
    (∀ a, s.argCursor.toNat / 8 ≤ a → a ≤ (s.argCursor.toNat + n.toNat - 1) / 8 → PktReadable s a) →
    ∃ v < 2 ^ n.toNat,
      (∀ j < n.toNat, streamBit s ⟨0, 8 * s.argLen.toNat⟩ (s.argCursor.toNat + j)
        = .ok (v.testBit (n.toNat - 1 - j)))
      ∧ exec (.readBits n) s = .next { s with
          dbgValue := BitVec.ofNat 32 v, argCursor := s.argCursor + BitVec.ofNat 32 n.toNat
          resp := ⟨.ok, false, false, 0, 0, 0⟩ }

/-- R122, R127: with fewer than `n` bits left, `READ_BITS n` changes only `RESP` and `CNT_EXHAUSTED`. -/
def Obligations.ReadBitsExhausted : Prop :=
  ∀ (n : BitVec 6) (s : State), 1 ≤ n.toNat → n.toNat ≤ 32 → LenLegal s →
    8 * s.argLen.toNat < s.argCursor.toNat + n.toNat →
    exec (.readBits n) s = .next { s with
      resp := ⟨.error .exhausted, false, false, 0, 0, 0⟩, cntExhausted := s.cntExhausted + 1 }

/-- The split law (R129): reading `n1` then `n2` bits gives the two parts of the `n1 + n2`-bit field; with fewer bits
left, the split reads fail where the rule says. -/
def Obligations.SplitLaw : Prop :=
  ∀ (s : State) (sl : Slice) (c n1 n2 : Nat), 1 ≤ n1 → 1 ≤ n2 → n1 + n2 ≤ 32 →
    (∀ v v1 v2, readBits s sl c n1 = .ok (v1, c + n1) → readBits s sl (c + n1) n2 = .ok (v2, c + n1 + n2) →
      readBits s sl c (n1 + n2) = .ok (v, c + n1 + n2) →
      v1 = v >>> n2 ∧ v2 = v &&& (2 ^ n2 - 1) ∧ v = (v1 <<< n2) ||| v2)
    ∧ (∀ v, readBits s sl c (n1 + n2) = .ok (v, c + (n1 + n2)) →
      ∃ v1 v2, readBits s sl c n1 = .ok (v1, c + n1) ∧ readBits s sl (c + n1) n2 = .ok (v2, c + n1 + n2))
    ∧ (sl.bitLen < c + (n1 + n2) →
      readBits s sl c (n1 + n2) = .error .exhausted
      ∧ (sl.bitLen - c < n1 → readBits s sl c n1 = .error .exhausted)
      ∧ (n1 ≤ sl.bitLen - c →
        readBits s sl c n1 ≠ .error .exhausted ∧ readBits s sl (c + n1) n2 = .error .exhausted))

/-- R120: stream bit `k` of a slice is bit `7 - (k mod 8)` of the byte at offset `base + (k div 8)`. -/
def Obligations.StreamBitOrder : Prop :=
  ∀ (s : State) (sl : Slice) (k : Nat) (b : Byte), s.pktRam.read (sl.base + k / 8) = some b →
    streamBit s sl k = .ok (b.getLsbD (7 - k % 8))

/-- The frame of `READ_BITS` and `DECODE_WORD` (R125, R143): only `DBG_VALUE`, `ARG_CURSOR`, `RESP` and the two error
counters may change, and no byte of memory does. -/
def Obligations.DebugReadFrame : Prop :=
  ∀ (i : Instr) (s t : State), (∃ n, i = .readBits n) ∨ i = .decodeWord → exec i s = .next t →
    t = { s with
      dbgValue := t.dbgValue, argCursor := t.argCursor, resp := t.resp
      cntExhausted := t.cntExhausted, cntBadcmd := t.cntBadcmd }
    ∧ ∀ a, t.pktRam.read a = s.pktRam.read a ∧ t.accBuf.read a = s.accBuf.read a
      ∧ t.unitBuf.read a = s.unitBuf.read a

/-! ### The ANC word decoder -/

/-- `DECODE_WORD` (R143): where a word lies at the cursor and its bytes may be read, `DBG_VALUE` is its low 8 bits,
zero-extended (R140), the cursor advances by 10, and `RESULT` is `OK`; with fewer than 10 bits left, only `RESP` and
`CNT_EXHAUSTED` change. -/
def Obligations.DecodeWordResult : Prop :=
  ∀ s : State, LenLegal s →
    (s.argCursor.toNat + 10 ≤ 8 * s.argLen.toNat →
      (∀ a, s.argCursor.toNat / 8 ≤ a → a ≤ (s.argCursor.toNat + 9) / 8 → PktReadable s a) →
      ∃ w : AncWord10,
        (∀ j < 10, streamBit s ⟨0, 8 * s.argLen.toNat⟩ (s.argCursor.toNat + j) = .ok (w.getMsbD j))
        ∧ exec .decodeWord s = .next { s with
            dbgValue := (w.extractLsb' 0 8).setWidth 32, argCursor := s.argCursor + 10
            resp := ⟨.ok, false, false, 0, 0, 0⟩ })
    ∧ (8 * s.argLen.toNat < s.argCursor.toNat + 10 → exec .decodeWord s = .next { s with
        resp := ⟨.error .exhausted, false, false, 0, 0, 0⟩, cntExhausted := s.cntExhausted + 1 })

/-- The range law (R144): the data byte is the word modulo 256, so words that differ only in bits 9:8 give the same. -/
def Obligations.DataByteRange : Prop :=
  ∀ (s : State) (sl : Slice) (c : Nat) (d : DecodedWord), decodeAncWord s sl c = .ok d →
    d.data.toNat ≤ 0xFF ∧ d.data.toNat = d.raw.toNat % 256 ∧ d.next = c + 10
    ∧ ∀ (s' : State) (sl' : Slice) (c' : Nat) (d' : DecodedWord), decodeAncWord s' sl' c' = .ok d' →
      d.raw.extractLsb' 0 8 = d'.raw.extractLsb' 0 8 → d.data = d'.data

/-! ### The extractor -/

/-- The round trip (R150, R160, R162) of a CDP unit with any identifier, preamble and caption words: laid out from
any bit of any slice, `ExtractUnit` returns its fields; laid out in the debug slice at the cursor, `EXTRACT_UNIT` gives
exactly its caption bytes, in order, its captured fields, and the cursor after it. -/
def Obligations.CdpUnitRoundTrip : Prop :=
  ∀ (s : State) (didHi sdidHi : BitVec 2) (f : CdpFields), f.Counted →
    (∀ (sl : Slice) (c : Nat), BitsAt s sl c (cdpIdBits didHi sdidHi ++ f.bits) →
      extractAncUnit s sl c = .ok (f.unit c))
    ∧ (LenLegal s → BitsAt s (debugSlice s) s.argCursor.toNat (cdpIdBits didHi sdidHi ++ f.bits) →
      exec .extractUnit s = .next (afterExtract s (f.unit s.argCursor.toNat))
      ∧ ∀ (j : Nat) (h : j < f.captions.length),
        unitByte (afterExtract s (f.unit s.argCursor.toNat)) j = dataByte f.captions[j])

/-- A CDP unit as an instruction of its own (the model's choice, assumption 3) leaves what `EXTRACT_UNIT` leaves
(R150 to R160), its identifier words taken as read: its fields laid out after them, it is captured and its caption
bytes stored. Either kind of unit that runs out of bits changes only `RESP` and `CNT_EXHAUSTED`. -/
def Obligations.UnitInstructionResult : Prop :=
  ∀ s : State, LenLegal s →
    (∀ (didHi sdidHi : BitVec 2) (f : CdpFields), f.Counted →
      BitsAt s (debugSlice s) (s.argCursor.toNat + 20) f.bits →
      exec (.cdpUnit didHi sdidHi) s = .next (afterExtract s (f.unit s.argCursor.toNat)))
    ∧ ∀ i : Instr, (∃ a b, i = .cdpUnit a b) ∨ (∃ d e, i = .otherUnit d e) →
      unitRead i s = .error .exhausted → exec i s = .next { s with
        resp := ⟨.error .exhausted, false, false, 0, 0, 0⟩, cntExhausted := s.cntExhausted + 1 }

/-- An other unit (R156), its header laid out from any bit of any slice: `ExtractUnit` returns its header and no caption
byte, ending 30 bits on, and under `DECLARED` `10 × dc` bits more, or runs out where those bits do not all lie in the
slice. At the cursor of the debug slice, `EXTRACT_UNIT` captures its header and moves the cursor past it, and so does
the unit as an instruction of its own (the model's choice, assumption 3). -/
def Obligations.OtherUnitResult : Prop :=
  ∀ (s : State) (didw sdidw dcw : AncWord10), ¬ (dataByte didw = 0x61 ∧ dataByte sdidw = 0x01) →
    (∀ (sl : Slice) (c : Nat), BitsAt s sl c (msbBits didw ++ msbBits sdidw ++ msbBits dcw) →
      extractAncUnit s sl c =
        if c + 30 + skipBits s (dataByte dcw) ≤ sl.bitLen then
          .ok (otherUnitOf didw sdidw dcw (c + 30 + skipBits s (dataByte dcw)))
        else .error .exhausted)
    ∧ (LenLegal s →
      BitsAt s (debugSlice s) s.argCursor.toNat (msbBits didw ++ msbBits sdidw ++ msbBits dcw) →
      s.argCursor.toNat + 30 + skipBits s (dataByte dcw) ≤ 8 * s.argLen.toNat →
      let t := { s with
        lastUnit := { did := dataByte didw, sdid := dataByte sdidw, dc := dataByte dcw, cdp := false }
        unitLen := 0
        argCursor := BitVec.ofNat 32 (s.argCursor.toNat + 30 + skipBits s (dataByte dcw))
        resp := ⟨.ok, false, false, 0, 1, 0⟩ }
      exec .extractUnit s = .next t ∧ exec (.otherUnit didw sdidw) s = .next t)

/-- R161: an `EXTRACT_UNIT` whose unit runs out of bits changes only `RESP` and `CNT_EXHAUSTED`. -/
def Obligations.ExtractExhausted : Prop :=
  ∀ s : State, LenLegal s → extractAncUnit s (debugSlice s) s.argCursor.toNat = .error .exhausted →
    exec .extractUnit s = .next { s with
      resp := ⟨.error .exhausted, false, false, 0, 0, 0⟩, cntExhausted := s.cntExhausted + 1 }

/-- The unit lengths (R92) and caption counts (R154, R155) of every unit that decodes: it ends inside the slice, a CDP
unit takes `110 + 30 × captionCount` bits and gives `3 × captionCount` bytes, at most 93, whatever its data count; an
other unit takes 30 bits and what the policy skips, and gives none. -/
def Obligations.UnitLength : Prop :=
  ∀ (s : State) (sl : Slice) (c : Nat) (u : AncUnit), extractAncUnit s sl c = .ok u →
    u.next ≤ sl.bitLen
    ∧ (u.isCdp = true ↔ u.did = 0x61 ∧ u.sdid = 0x01)
    ∧ (u.isCdp = true → u.next = c + 110 + 30 * (u.ccWord.extractLsb' 0 5).toNat
        ∧ u.bytes.length = 3 * (u.ccWord.extractLsb' 0 5).toNat ∧ u.bytes.length ≤ 93)
    ∧ (u.isCdp = false → u.next = c + 30 + skipBits s u.dc ∧ u.bytes = [])

/-- A unit ends where its bits do (R122, R158): a slice with fewer bits than the unit's 30-bit header gives no unit. -/
def Obligations.ShortHeaderGivesNoUnit : Prop :=
  ∀ (s : State) (sl : Slice) (c : Nat), sl.bitLen < c + 30 →
    (∀ a, sl.base ≤ a → a < sl.base + (sl.bitLen + 7) / 8 → PktReadable s a) →
    extractAncUnit s sl c = .error .exhausted

/-- R141: bits 9:8 of the identifier words play no part in a unit, here as an instruction of its own (the model's
choice, assumption 3). -/
def Obligations.ParityBitsIgnored : Prop :=
  (∀ (a b a' b' : BitVec 2) (s : State), exec (.cdpUnit a b) s = exec (.cdpUnit a' b') s)
  ∧ ∀ (d e d' e' : AncWord10) (s : State), dataByte d = dataByte d' → dataByte e = dataByte e' →
    exec (.otherUnit d e) s = exec (.otherUnit d' e') s

/-- The frame of `EXTRACT_UNIT` and of the two unit kinds (R160; as instructions, assumption 3): only the registers of the rule's "Writes" may change;
`UNIT_BUF` changes only below the number of caption bytes of the unit read, and no other memory does. -/
def Obligations.ExtractFrame : Prop :=
  ∀ (i : Instr) (s t : State),
    i = .extractUnit ∨ (∃ a b, i = .cdpUnit a b) ∨ (∃ d e, i = .otherUnit d e) → exec i s = .next t →
    t = { s with
      unitBuf := t.unitBuf, unitLen := t.unitLen, argCursor := t.argCursor, lastUnit := t.lastUnit
      lastCdpA := t.lastCdpA, lastCdpB := t.lastCdpB, lastCdpC := t.lastCdpC, resp := t.resp
      cntExhausted := t.cntExhausted, cntBadcmd := t.cntBadcmd }
    ∧ (∀ a, t.pktRam.read a = s.pktRam.read a ∧ t.accBuf.read a = s.accBuf.read a)
    ∧ ∀ a, (∀ u, LenLegal s → unitRead i s = .ok u → u.bytes.length ≤ a) →
      t.unitBuf.read a = s.unitBuf.read a

/-! ### The frame reassembler -/

/-- `Finalize(kind)` (R181, R182): one record with the frame's bytes if it has any, counted; Idle; `WR_OFF = 0`; and
`CUR_TS` and everything else as it was. -/
def Obligations.FinalizeEmitsFrame : Prop :=
  ∀ (s : State) (k : RecordKind), s.finalize k = { s with
    status := .idle, wrOff := 0
    out := s.out ++ (if s.wrOff = 0 then [] else [⟨k, s.curTs, accBytes s s.wrOff.toNat⟩])
    cntFrames := s.cntFrames + (if s.wrOff = 0 then 0 else 1) }

/-- `FORCE_FINALIZE` (R201): in Idle only `RESP` changes, to `OK`; with an open frame it finalizes it as `FORCED`, and
`RESULT` is `COMPLETE` with `NEMIT = 1`, or `FINAL_EMPTY` where the frame had no byte. -/
def Obligations.ForceFinalizeResult : Prop :=
  ∀ s : State, exec .forceFinalize s = .next
    (if s.status = .idle then { s with resp := ⟨.ok, false, false, 0, 0, 0⟩ }
     else if s.wrOff = 0 then
       { s with status := .idle, wrOff := 0, resp := ⟨.finalEmpty, false, false, 0, 0, 0⟩ }
     else { s with
       status := .idle, wrOff := 0
       out := s.out ++ [⟨.forced, s.curTs, accBytes s s.wrOff.toNat⟩], cntFrames := s.cntFrames + 1
       resp := ⟨.complete, false, false, 1, 0, 0⟩ })

/-- `SOFT_RESET` (R202): the frame state, the result registers and the counters are cleared and `RESULT` is `OK`; the
argument registers, the buffers and `OUT` stay. -/
def Obligations.SoftResetResult : Prop :=
  ∀ s : State, exec .softReset s = .next { s with
    status := .idle, curTs := 0, wrOff := 0, dbgValue := 0, unitLen := 0
    lastUnit := ⟨0, 0, 0, false⟩, lastCdpA := ⟨0, 0, 0, 0⟩, lastCdpB := ⟨0, 0⟩, lastCdpC := 0
    cntFrames := 0, cntStale := 0, cntExhausted := 0, cntOverflow := 0, cntAlloc := 0, cntBadcmd := 0
    resp := ⟨.ok, false, false, 0, 0, 0⟩ }

/-- The frame of `FORCE_FINALIZE` and `SOFT_RESET` (R201, R202): `CMD`, the argument registers and the build stay, and
no byte of any memory changes; `FORCE_FINALIZE` writes no other register than those of its rule. -/
def Obligations.FinalizeAndResetFrame : Prop :=
  ∀ (i : Instr) (s t : State), i = .forceFinalize ∨ i = .softReset → exec i s = .next t →
    t.cmd = s.cmd ∧ t.argTs = s.argTs ∧ t.argLen = s.argLen ∧ t.argHdrLen = s.argHdrLen
    ∧ t.argCursor = s.argCursor ∧ t.cfg = s.cfg ∧ t.faulted = s.faulted
    ∧ (∀ a, t.pktRam.read a = s.pktRam.read a ∧ t.accBuf.read a = s.accBuf.read a
      ∧ t.unitBuf.read a = s.unitBuf.read a)
    ∧ (i = .softReset → t.out = s.out)
    ∧ (i = .forceFinalize → t = { s with
        status := t.status, wrOff := t.wrOff, out := t.out, cntFrames := t.cntFrames, resp := t.resp })

/-- `PROCESS_PACKET` without error (R183 to R185, R189, R190, R193, R194): where the frame may open, every counted unit
decodes and their bytes fit, the discontinuity and the open happen, the units are captured, their caption bytes are
written to `ACC_BUF` from `WR_OFF` in order, the marker finalizes, and `RESP` reports it all. -/
def Obligations.PacketAppendsUnits : Prop :=
  ∀ (m : Bool) (s : State) (count : Byte) (us : List AncUnit), PacketLegal s →
    (OpensFrame s → s.allocOk = true) → s.argHdrLen.toNat ≤ s.argLen.toNat →
    pktByte s 4 = .ok count → unitsFrom s (packetSlice s) count.toNat 0 = .ok us →
    firstStored s + (captionBytes us).length ≤ s.cfg.cap.toNat →
    exec (.processPacket m) s = .next { afterMarker m (afterUnits s us) with
      resp := packetResponse m s (afterUnits s us) (markerResult m (afterUnits s us)) count.toNat count }

/-- Exhaustion in the unit loop (R192, R193): the units before the one that runs out keep their bytes, `RESULT` is
`ERR_EXHAUSTED`, the frame stays open, and the marker is honoured. -/
def Obligations.PacketExhaustedUnit : Prop :=
  ∀ (m : Bool) (s : State) (count : Byte) (k : Nat) (us : List AncUnit), PacketLegal s →
    (OpensFrame s → s.allocOk = true) → s.argHdrLen.toNat ≤ s.argLen.toNat →
    pktByte s 4 = .ok count → k < count.toNat → unitsFrom s (packetSlice s) k 0 = .ok us →
    extractAncUnit s (packetSlice s) (unitsEnd 0 us) = .error .exhausted →
    firstStored s + (captionBytes us).length ≤ s.cfg.cap.toNat →
    let t := { afterUnits s us with cntExhausted := s.cntExhausted + 1 }
    exec (.processPacket m) s = .next { afterMarker m t with
      resp := packetResponse m s t (.error .exhausted) k count }

/-- Overflow (R190, R191): a unit whose bytes would take `WR_OFF` past `CAP` writes none of them; it is captured, the
frame is finalized as `OVERFLOW` with the bytes before it, the rest of the packet and its marker are dropped. -/
def Obligations.PacketOverflowingUnit : Prop :=
  ∀ (m : Bool) (s : State) (count : Byte) (k : Nat) (us : List AncUnit) (u : AncUnit), PacketLegal s →
    (OpensFrame s → s.allocOk = true) → s.argHdrLen.toNat ≤ s.argLen.toNat →
    pktByte s 4 = .ok count → k < count.toNat → unitsFrom s (packetSlice s) k 0 = .ok us →
    extractAncUnit s (packetSlice s) (unitsEnd 0 us) = .ok u →
    firstStored s + (captionBytes us).length ≤ s.cfg.cap.toNat →
    s.cfg.cap.toNat < firstStored s + (captionBytes us).length + u.bytes.length →
    let t := captured (afterUnits s us) u
    exec (.processPacket m) s = .next { t with
      status := .idle, wrOff := 0, out := t.out ++ finalRecord .overflow t
      cntFrames := t.cntFrames + BitVec.ofNat 32 (finalRecord .overflow t).length
      cntOverflow := s.cntOverflow + 1
      resp :=
        { result := .error .overflow, stale := decide (Discontinuity s), mark := false
          nemit := BitVec.ofNat 2 ((staleRecords s).length + (finalRecord .overflow t).length)
          nunits := BitVec.ofNat 8 k, ancCount := count } }

/-- The allocation of an open (R186), for either value of its free draw `alloc_ok`: where a packet opens no frame, or
its open succeeds, it does not end in `ERR_ALLOC`; where the open fails, the block stays Idle with `CUR_TS` as it was,
nothing is read, the marker is ignored, and the discontinuity's finalize stands. -/
def Obligations.PacketAllocationFailure : Prop :=
  ∀ (m : Bool) (s : State), PacketLegal s →
    if OpensFrame s → s.allocOk = true then
      ∀ t, exec (.processPacket m) s = .next t → t.resp.result ≠ .error .alloc ∧ t.cntAlloc = s.cntAlloc
    else exec (.processPacket m) s = .next { afterDiscontinuity s with
      cntAlloc := s.cntAlloc + 1
      resp :=
        { result := .error .alloc, stale := decide (Discontinuity s), mark := false
          nemit := BitVec.ofNat 2 (staleRecords s).length, nunits := 0, ancCount := 0 } }

/-- A payload shorter than its header (R188): `ERR_EXHAUSTED` with no byte read and no unit; the frame is open, and the
marker is honoured. -/
def Obligations.PacketShorterThanHeader : Prop :=
  ∀ (m : Bool) (s : State), PacketLegal s → (OpensFrame s → s.allocOk = true) →
    s.argLen.toNat < s.argHdrLen.toNat →
    let t := { afterOpen s with cntExhausted := s.cntExhausted + 1 }
    exec (.processPacket m) s = .next { afterMarker m t with
      resp := packetResponse m s t (.error .exhausted) 0 0 }

/-- The frame of `PROCESS_PACKET` (R183): only the registers of the rule's "Writes" may change; `ACC_BUF` changes only
where the packet's accepted bytes are stored, from `firstStored` upward, and no other memory does. -/
def Obligations.PacketFrame : Prop :=
  ∀ (m : Bool) (s t : State), exec (.processPacket m) s = .next t →
    t = { s with
      status := t.status, curTs := t.curTs, wrOff := t.wrOff, accBuf := t.accBuf, out := t.out
      lastUnit := t.lastUnit, lastCdpA := t.lastCdpA, lastCdpB := t.lastCdpB, lastCdpC := t.lastCdpC
      resp := t.resp, cntFrames := t.cntFrames, cntStale := t.cntStale, cntExhausted := t.cntExhausted
      cntOverflow := t.cntOverflow, cntAlloc := t.cntAlloc, cntBadcmd := t.cntBadcmd }
    ∧ (∀ a, t.pktRam.read a = s.pktRam.read a ∧ t.unitBuf.read a = s.unitBuf.read a)
    ∧ (¬ PacketLegal s → ∀ a, t.accBuf.read a = s.accBuf.read a)
    ∧ ∀ r, packetBody s = .ok r → ∀ a, a < firstStored s ∨ firstStored s + r.stored ≤ a →
      t.accBuf.read a = s.accBuf.read a

/-- The marker (R193): with `m = 1` a packet always ends in Idle, and `MARK` is 1 except after an allocation failure or
an overflow; without it `MARK` is 0. -/
def Obligations.MarkerEndsFrame : Prop :=
  ∀ (m : Bool) (s t : State), PacketLegal s → exec (.processPacket m) s = .next t →
    (m = true → t.status = .idle)
    ∧ (t.resp.mark = true ↔
        m = true ∧ t.resp.result ≠ .error .alloc ∧ t.resp.result ≠ .error .overflow)
    ∧ (t.resp.mark = false → t.resp.result ≠ .complete ∧ t.resp.result ≠ .finalEmpty)

/-- The concatenation law (R197), over runs of the machine: packets with one timestamp, the first opening the frame
and only the last with a marker (0x00000011), none of them failing, and no reset, `FORCE_FINALIZE` or `SOFT_RESET`
between them, give one `COMPLETE` record with all their caption bytes in packet order and then unit order, or no record
where there are none. A last packet that is also the first is the other clause. -/
def Obligations.ConcatenationLaw : Prop :=
  ∀ (ts : Word) (s t : State) (rest : List HostAction), s.host = .writeCsr 0x00 32 0x00000011 :: rest →
    s.argTs = ts → step s = .next t → t.resp.result.isError = false →
    (OpensFrame s →
      t.status = .idle ∧ t.out = s.out ++ staleRecords (issued s 0x11 rest)
        ++ completeRecord ts (packetCaptions (issued s 0x11 rest)))
    ∧ ∀ (out : List OutRecord) (bs : List Byte), FrameRun ts out s bs →
      t.status = .idle ∧ t.out = out ++ completeRecord ts (bs ++ packetCaptions (issued s 0x11 rest))

/-- What a packet does not read (R84, R97): the payload bytes before `ARG_HDRLEN` but byte 4, and every byte at or above
`ARG_LEN`, play no part in `PROCESS_PACKET`. -/
def Obligations.IgnoredPayloadBytes : Prop :=
  ∀ (m : Bool) (s : State) (ram : Memory),
    (∀ a, a = 4 ∨ (s.argHdrLen.toNat ≤ a ∧ a < s.argLen.toNat) → ram.read a = s.pktRam.read a) →
    exec (.processPacket m) { s with pktRam := ram }
      = onNext (fun t => { t with pktRam := ram }) (exec (.processPacket m) s)

/-! ### The host's accesses -/

/-- A host write to `CSR` (R22, R23): an argument register stores exactly the bits written, less the reserved ones; a
write to any other offset but `CMD` is ignored. -/
def Obligations.HostCsrWrite : Prop :=
  ∀ (s : State) (off : Nat) (v : Word) (rest : List HostAction), s.faulted = false →
    s.host = .writeCsr off 32 v :: rest → off % 4 = 0 → off ≤ 0xFC → off ≠ 0x00 →
    step s = .next
      (let t := { s with host := rest, draw := s.draw + 1 }
       if off = 0x04 then { t with argTs := v }
       else if off = 0x08 then { t with argLen := v.extractLsb' 0 16 }
       else if off = 0x0C then { t with argHdrLen := v.extractLsb' 0 16 }
       else if off = 0x10 then { t with argCursor := v }
       else t)

/-- A host read (R24, R61, R62, R64) changes nothing of the block: it gives the host the register, the written byte of
`PKT`, or the byte of `UBUF` below `UNIT_LEN`. -/
def Obligations.HostReads : Prop :=
  ∀ (s : State) (rest : List HostAction), s.faulted = false →
    (∀ off, s.host = .readCsr off 32 :: rest → off % 4 = 0 → off ≤ 0xFC →
      step s = .next { s with host := rest, draw := s.draw + 1, hostData := readCsr s off })
    ∧ (∀ a, s.host = .readPkt a :: rest → a < s.cfg.pktMax.toNat → ∃ v,
      step s = .next { s with host := rest, draw := s.draw + 1, hostData := v }
      ∧ ∀ b, s.pktRam.read a = some b → v = b.setWidth 32)
    ∧ (∀ a, s.host = .readUnit a :: rest → a ≤ 95 → ∃ v,
      step s = .next { s with host := rest, draw := s.draw + 1, hostData := v }
      ∧ ∀ b, a < s.unitLen.toNat → s.unitBuf.read a = some b → v = b.setWidth 32)

/-- A host write to `PKT` (R62) stores the byte and puts its offset in `PKT_WRITTEN`, and changes no other byte; a host
write to `UBUF` is ignored (R64). -/
def Obligations.HostByteWrites : Prop :=
  ∀ (s : State) (a : Nat) (b : Byte) (rest : List HostAction), s.faulted = false →
    (s.host = .writePkt a b :: rest → a < s.cfg.pktMax.toNat → ∃ ram,
      step s = .next { s with host := rest, draw := s.draw + 1, pktRam := ram }
      ∧ ram.read a = some b ∧ (∀ c, c ≠ a → ram.read c = s.pktRam.read c))
    ∧ (s.host = .writeUnit a b :: rest → step s = .next { s with host := rest, draw := s.draw + 1 })

/-- R247 (b): exactly these host accesses are refused: a `CSR` access that is misaligned, above 0xFC or not 32 bits
wide; a `PKT` access at `PKT_MAX_BYTES` or above; a `UBUF` read above 95. -/
def Obligations.RefusedAccesses : Prop :=
  ∀ (s : State) (x : HostAction) (rest : List HostAction), s.faulted = false → s.host = x :: rest →
    ((∃ r, step s = .refused r) ↔
      (∃ off width v, (x = .writeCsr off width v ∨ x = .readCsr off width)
        ∧ (off % 4 ≠ 0 ∨ 0xFC < off ∨ width ≠ 32))
      ∨ (∃ a b, (x = .writePkt a b ∨ x = .readPkt a) ∧ s.cfg.pktMax.toNat ≤ a)
      ∨ ∃ a, x = .readUnit a ∧ 95 < a)

/-- The register map of 10_state.md section 3, and the layouts of the registers, their reserved bits 0 (R23, R25 to R48):
what a host reads at every offset, in every state. -/
def Obligations.RegisterLayouts : Prop :=
  (∀ s : State,
    readCsr s 0x00 = s.cmd ∧ readCsr s 0x04 = s.argTs ∧ readCsr s 0x08 = s.argLen.setWidth 32
    ∧ readCsr s 0x0C = s.argHdrLen.setWidth 32 ∧ readCsr s 0x10 = s.argCursor ∧ readCsr s 0x1C = s.curTs
    ∧ readCsr s 0x20 = s.wrOff.setWidth 32 ∧ readCsr s 0x24 = s.dbgValue
    ∧ readCsr s 0x28 = s.unitLen.setWidth 32 ∧ readCsr s 0x3C = s.cfg.cap.setWidth 32
    ∧ readCsr s 0x44 = s.cntFrames ∧ readCsr s 0x48 = s.cntStale ∧ readCsr s 0x4C = s.cntExhausted
    ∧ readCsr s 0x50 = s.cntOverflow ∧ readCsr s 0x54 = s.cntAlloc ∧ readCsr s 0x58 = s.cntBadcmd
    ∧ ∀ off, 0x5C ≤ off → off ≤ 0xFC → readCsr s off = 0)
  ∧ (∀ s : State,
    (readCsr s 0x14).extractLsb' 0 4 = s.resp.result.code ∧ (readCsr s 0x14).getLsbD 4 = s.resp.stale
    ∧ (readCsr s 0x14).getLsbD 5 = s.resp.mark ∧ (readCsr s 0x14).extractLsb' 6 2 = s.resp.nemit
    ∧ (readCsr s 0x14).extractLsb' 8 8 = s.resp.nunits ∧ (readCsr s 0x14).extractLsb' 16 8 = s.resp.ancCount
    ∧ (readCsr s 0x14).extractLsb' 24 8 = 0)
  ∧ (∀ s : State, ((readCsr s 0x18).getLsbD 0 = true ↔ s.status = .accumulating)
    ∧ (readCsr s 0x18).extractLsb' 1 31 = 0)
  ∧ (∀ s : State,
    (readCsr s 0x2C).extractLsb' 0 8 = s.lastUnit.did ∧ (readCsr s 0x2C).extractLsb' 8 8 = s.lastUnit.sdid
    ∧ (readCsr s 0x2C).extractLsb' 16 8 = s.lastUnit.dc ∧ (readCsr s 0x2C).getLsbD 24 = s.lastUnit.cdp
    ∧ (readCsr s 0x2C).extractLsb' 25 7 = 0)
  ∧ (∀ s : State,
    (readCsr s 0x30).extractLsb' 0 8 = s.lastCdpA.id0 ∧ (readCsr s 0x30).extractLsb' 8 8 = s.lastCdpA.id1
    ∧ (readCsr s 0x30).extractLsb' 16 8 = s.lastCdpA.cdpLen ∧ (readCsr s 0x30).extractLsb' 24 8 = s.lastCdpA.rate)
  ∧ (∀ s : State,
    (readCsr s 0x34).extractLsb' 0 8 = s.lastCdpB.flags ∧ (readCsr s 0x34).extractLsb' 8 8 = s.lastCdpB.ccWord
    ∧ (readCsr s 0x34).extractLsb' 16 16 = 0)
  ∧ (∀ s : State, (readCsr s 0x38).extractLsb' 0 20 = s.lastCdpC ∧ (readCsr s 0x38).extractLsb' 20 12 = 0)
  ∧ (∀ s : State,
    ((readCsr s 0x40).getLsbD 0 = true ↔ s.cfg.skipPolicy = .declared)
    ∧ (readCsr s 0x40).extractLsb' 1 15 = 0 ∧ (readCsr s 0x40).extractLsb' 16 16 = s.cfg.pktMax)
end

