-- ==== Sys2Proof/Laws/Memory.lean ====
section
/-! SUPPORT. The laws of the three memories: read after write, the canonical form, and the offsets a store lists. -/

namespace Sys2Proof.Machine

@[simp] theorem Memory.read_nil (a : Nat) : Memory.read [] a = none := rfl

/-- A read at the offset written gives the byte written. -/
@[simp] theorem Memory.read_write_same (m : Memory) (a : Nat) (b : Byte) :
    (Memory.write m a b).read a = some b := by
  induction m with
  | nil => simp [Memory.write, Memory.read]
  | cons x m ih =>
    obtain ⟨x, y⟩ := x
    simp only [Memory.write]
    split_ifs with h₁ h₂
    · simp [Memory.read]
    · simp [Memory.read]
    · simp [Memory.read, h₂, ih]

/-- A write leaves every other offset alone. -/
theorem Memory.read_write_other (m : Memory) {a c : Nat} (b : Byte) (h : c ≠ a) :
    (Memory.write m a b).read c = m.read c := by
  induction m with
  | nil => simp [Memory.write, Memory.read, h]
  | cons x m ih =>
    obtain ⟨x, y⟩ := x
    simp only [Memory.write]
    split_ifs with h₁ h₂
    · simp [Memory.read, h]
    · subst h₂; simp [Memory.read, h]
    · simp [Memory.read, ih]

theorem Memory.read_write (m : Memory) (a c : Nat) (b : Byte) :
    (Memory.write m a b).read c = if c = a then some b else m.read c := by
  split_ifs with h
  · subst h; exact Memory.read_write_same m c b
  · exact Memory.read_write_other m b h

/-- The entries after a write are the byte written and entries that were there. -/
theorem Memory.mem_write {m : Memory} {a : Nat} {b : Byte} {x : Host.Cell}
    (h : x ∈ Memory.write m a b) : x = (a, b) ∨ x ∈ m := by
  induction m with
  | nil => simpa [Memory.write] using h
  | cons y m ih =>
    obtain ⟨y, z⟩ := y
    simp only [Memory.write] at h
    split_ifs at h with h₁ h₂ <;> simp only [List.mem_cons] at h ⊢
    · tauto
    · tauto
    · rcases h with h | h
      · tauto
      · rcases ih h with h | h <;> tauto

/-- A write keeps the canonical form. -/
theorem Memory.wf_write {m : Memory} (h : Memory.wf m) (a : Nat) (b : Byte) : Memory.wf (Memory.write m a b) := by
  induction m with
  | nil => simp [Memory.write]
  | cons x m ih =>
    obtain ⟨x, y⟩ := x
    obtain ⟨hx, hm⟩ := List.pairwise_cons.1 h
    simp only [Memory.write]
    split_ifs with h₁ h₂
    · refine List.pairwise_cons.2 ⟨fun z hz => ?_, h⟩
      rcases List.mem_cons.1 hz with rfl | hz
      · exact h₁
      · exact h₁.trans (hx z hz)
    · subst h₂; exact List.pairwise_cons.2 ⟨hx, hm⟩
    · refine List.pairwise_cons.2 ⟨fun z hz => ?_, ih hm⟩
      rcases Memory.mem_write hz with rfl | hz
      · simp only; omega
      · exact hx z hz

/-- A store of several bytes keeps the canonical form. -/
theorem Memory.wf_writeRange {m : Memory} (h : Memory.wf m) (a : Nat) (bs : List Byte) :
    Memory.wf (Memory.writeRange m a bs) := by
  induction bs generalizing m a with
  | nil => exact h
  | cons b bs ih => exact ih (Memory.wf_write h a b) (a + 1)

/-- The entries after a store of several bytes lie in its range or were there. -/
theorem Memory.mem_writeRange {m : Memory} {a : Nat} {bs : List Byte} {x : Host.Cell}
    (h : x ∈ Memory.writeRange m a bs) : (a ≤ x.1 ∧ x.1 < a + bs.length) ∨ x ∈ m := by
  induction bs generalizing m a with
  | nil => exact .inr h
  | cons b bs ih =>
    rcases ih h with h | h
    · left; simp only [List.length_cons]; omega
    · rcases Memory.mem_write h with rfl | h
      · left; simp
      · exact .inr h

/-- A store of several bytes leaves every offset outside its range alone. -/
theorem Memory.read_writeRange_outside (m : Memory) (a : Nat) (bs : List Byte) {c : Nat}
    (h : c < a ∨ a + bs.length ≤ c) : (Memory.writeRange m a bs).read c = m.read c := by
  induction bs generalizing m a with
  | nil => rfl
  | cons b bs ih =>
    simp only [List.length_cons] at h
    rw [Memory.writeRange, ih _ _ (by omega), Memory.read_write_other _ _ (by omega)]

/-- A read inside a store of several bytes gives the byte stored there. -/
theorem Memory.read_writeRange_inside (m : Memory) (a : Nat) (bs : List Byte) {j : Nat} (h : j < bs.length) :
    (Memory.writeRange m a bs).read (a + j) = some bs[j] := by
  induction bs generalizing m a j with
  | nil => exact absurd h (by simp)
  | cons b bs ih =>
    rw [Memory.writeRange]
    cases j with
    | zero => rw [Memory.read_writeRange_outside _ _ _ (by omega)]; simp
    | succ j =>
      have := ih (Memory.write m a b) (a + 1) (j := j) (by simpa using h)
      rw [show a + (j + 1) = a + 1 + j by omega, this]; simp

@[simp] theorem Memory.writeRange_nil (m : Memory) (a : Nat) : Memory.writeRange m a [] = m := rfl

/-- Storing two lists one after the other is storing their concatenation. -/
theorem Memory.writeRange_append (m : Memory) (a : Nat) (bs cs : List Byte) :
    Memory.writeRange m a (bs ++ cs) = Memory.writeRange (Memory.writeRange m a bs) (a + bs.length) cs := by
  induction bs generalizing m a with
  | nil => rfl
  | cons b bs ih => simp [Memory.writeRange, ih, show a + 1 + bs.length = a + (bs.length + 1) by omega]

/-- A byte that is listed below a store's end is listed after it. -/
theorem Memory.isSome_writeRange {m : Memory} {a : Nat} {bs : List Byte} {c : Nat}
    (h : c < a → (m.read c).isSome) (hc : c < a + bs.length) : ((Memory.writeRange m a bs).read c).isSome := by
  by_cases h' : c < a
  · rw [Memory.read_writeRange_outside _ _ _ (.inl h')]; exact h h'
  · obtain ⟨j, rfl⟩ : ∃ j, c = a + j := ⟨c - a, by omega⟩
    rw [Memory.read_writeRange_inside _ _ _ (by omega)]; rfl

/-- In canonical form, equal reads at every offset are equal memories. -/
theorem Memory.ext_of_read {m n : Memory} (hm : Memory.wf m) (hn : Memory.wf n)
    (h : ∀ a, m.read a = n.read a) : m = n := by
  have low : ∀ {m : Memory} {a : Nat}, (∀ z ∈ m, a < z.1) → m.read a = none := by
    intro m a hz
    induction m with
    | nil => rfl
    | cons z m ih =>
      obtain ⟨z, y⟩ := z
      have hlt : a < z := hz (z, y) (by simp)
      have : a ≠ z := by omega
      simp [Memory.read, this, ih (fun w hw => hz w (by simp [hw]))]
  induction m generalizing n with
  | nil =>
    cases n with
    | nil => rfl
    | cons y n => have := h y.1; simp [Memory.read] at this
  | cons x m ih =>
    cases n with
    | nil => have := h x.1; simp [Memory.read] at this
    | cons y n =>
      obtain ⟨x, bx⟩ := x
      obtain ⟨y, bb⟩ := y
      obtain ⟨hx, hm'⟩ := List.pairwise_cons.1 hm
      obtain ⟨hy, hn'⟩ := List.pairwise_cons.1 hn
      have hxy : x = y := by
        rcases Nat.lt_trichotomy x y with hl | he | hl
        · have h1 := h x
          have : Memory.read ((y, bb) :: n) x = none :=
            low (fun z hz => by
              rcases List.mem_cons.1 hz with rfl | hz
              · exact hl
              · exact hl.trans (hy z hz))
          rw [this] at h1; simp [Memory.read] at h1
        · exact he
        · have h1 := h y
          have : Memory.read ((x, bx) :: m) y = none :=
            low (fun z hz => by
              rcases List.mem_cons.1 hz with rfl | hz
              · exact hl
              · exact hl.trans (hx z hz))
          rw [this] at h1; simp [Memory.read] at h1
      subst hxy
      have hb : bx = bb := by have := h x; simpa [Memory.read] using this
      subst hb
      congr 1
      refine ih hm' hn' (fun a => ?_)
      by_cases ha : a = x
      · subst ha; rw [low hx, low hy]
      · have := h a; simpa [Memory.read, ha] using this

end Sys2Proof.Machine
end

