-- ==== Sys2Proof/Laws/Operands.lean ====
section
/-! SUPPORT. What the operand forms of Machine/Operands.lean can answer: one lemma per function for the value it
gives, and for where it stops. -/

namespace Sys2Proof.Machine

/-! ### `Except` -/

/-- What it takes for one read followed by another to give a value. -/
theorem bind_eq_ok {ε α β : Type} {x : Except ε α} {f : α → Except ε β} {r : β} :
    (x >>= f) = .ok r ↔ ∃ a, x = .ok a ∧ f a = .ok r := by
  cases x <;> simp [bind, Except.bind]

/-- Where one read followed by another stops. -/
theorem bind_eq_error {ε α β : Type} {x : Except ε α} {f : α → Except ε β} {e : ε} :
    (x >>= f) = .error e ↔ x = .error e ∨ ∃ a, x = .ok a ∧ f a = .error e := by
  cases x <;> simp [bind, Except.bind]

theorem ok_bind {ε α β : Type} (a : α) (f : α → Except ε β) : ((.ok a : Except ε α) >>= f) = f a := rfl

/-! ### Bits as a number -/

/-- The number a list of bits spells, the first the most significant, onto `v`. -/
def bitsOnto (v : Nat) (bits : List Bool) : Nat := bits.foldl (fun a b => 2 * a + b.toNat) v

@[simp] theorem bitsOnto_nil (v : Nat) : bitsOnto v [] = v := rfl

@[simp] theorem bitsOnto_cons (v : Nat) (b : Bool) (bits : List Bool) :
    bitsOnto v (b :: bits) = bitsOnto (2 * v + b.toNat) bits := rfl

theorem bitsOnto_eq (v : Nat) (bits : List Bool) : bitsOnto v bits = v * 2 ^ bits.length + bitsOnto 0 bits := by
  induction bits generalizing v with
  | nil => simp
  | cons b bits ih =>
    simp only [bitsOnto_cons, List.length_cons]
    rw [ih (2 * v + b.toNat), ih (2 * 0 + b.toNat)]
    ring

theorem bitsOnto_append (v : Nat) (bits bits' : List Bool) :
    bitsOnto v (bits ++ bits') = bitsOnto (bitsOnto v bits) bits' := by
  simp [bitsOnto]

theorem bitsOnto_lt (bits : List Bool) : bitsOnto 0 bits < 2 ^ bits.length := by
  induction bits with
  | nil => simp
  | cons b bits ih =>
    simp only [bitsOnto_cons, List.length_cons]
    rw [bitsOnto_eq]
    cases b <;> simp [Nat.pow_succ] <;> omega

theorem testBit_bitsOnto (bits : List Bool) (j : Nat) (h : j < bits.length) :
    (bitsOnto 0 bits).testBit (bits.length - 1 - j) = bits[j] := by
  induction bits generalizing j with
  | nil => simp at h
  | cons b bits ih =>
    simp only [bitsOnto_cons, List.length_cons]
    rw [bitsOnto_eq, Nat.mul_comm]
    cases j with
    | zero =>
      have := Nat.testBit_two_pow_mul_add (2 * 0 + b.toNat) (bitsOnto_lt bits) bits.length
      simp at this ⊢
      rw [this]
      cases b <;> rfl
    | succ j =>
      have hj : j < bits.length := by simpa using h
      have := Nat.testBit_two_pow_mul_add (2 * 0 + b.toNat) (bitsOnto_lt bits) (bits.length - 1 - j)
      rw [show bits.length + 1 - 1 - (j + 1) = bits.length - 1 - j by omega, this,
        if_pos (by omega), ih j hj]
      simp

/-! ### Bytes and stream bits -/

/-- Every byte that holds a bit of the slice may be read. -/
def SliceReadable (s : State) (sl : Slice) : Prop :=
  ∀ a, sl.base ≤ a → a < sl.base + (sl.bitLen + 7) / 8 → ∃ b, pktByte s a = .ok b

/-- Where a byte cannot be read, it is unwritten and the build faults on it. -/
theorem pktByte_eq_error {s : State} {a : Nat} {f : Fault} (h : pktByte s a = .error f) :
    s.cfg.unwrittenRead = .fault ∧ s.pktWritten a = false ∧ f = .unwrittenPkt a := by
  unfold pktByte at h
  split at h
  · cases h
  · rename_i hn
    split at h
    · rename_i hu
      injection h with h
      exact ⟨hu, by simp [State.pktWritten, hn], h.symm⟩
    · cases h

/-- A byte may be read where it is written or the build draws it. -/
theorem pktByte_isOk {s : State} {a : Nat} (h : s.cfg.unwrittenRead = .any ∨ s.pktWritten a = true) :
    ∃ b, pktByte s a = .ok b := by
  cases hb : pktByte s a with
  | ok b => exact ⟨b, rfl⟩
  | error f =>
    obtain ⟨h1, h2, -⟩ := pktByte_eq_error hb
    rcases h with h | h
    · rw [h1] at h; cases h
    · rw [h2] at h; cases h

theorem streamBit_eq_error {s : State} {sl : Slice} {k : Nat} {f : Fault} (h : streamBit s sl k = .error f) :
    pktByte s (sl.base + k / 8) = .error f := by
  unfold streamBit at h
  split at h
  · cases h
  · rename_i g hb; cases h; exact hb

theorem streamBit_isOk {s : State} {sl : Slice} {k : Nat} (h : ∃ b, pktByte s (sl.base + k / 8) = .ok b) :
    ∃ b, streamBit s sl k = .ok b := by
  obtain ⟨b, h⟩ := h
  exact ⟨b.getLsbD (7 - k % 8), by simp [streamBit, h]⟩

/-! ### The bit reader -/

/-- `readLoop` over bits the slice holds. -/
theorem readLoop_of_bits {s : State} {sl : Slice} {cur v : Nat} {bits : List Bool}
    (h : ∀ (j : Nat) (hj : j < bits.length), streamBit s sl (cur + j) = .ok bits[j]) :
    readLoop s sl bits.length cur v = .ok (bitsOnto v bits) := by
  induction bits generalizing cur v with
  | nil => rfl
  | cons b bits ih =>
    have h0 : streamBit s sl cur = .ok b := h 0 (by simp)
    simp only [List.length_cons, readLoop, h0, bitsOnto_cons]
    refine ih (fun j hj => ?_)
    have := h (j + 1) (by simpa using hj)
    rw [show cur + 1 + j = cur + (j + 1) by omega, this]; simp

/-- A value of `readLoop` is spelled by bits the slice holds. -/
theorem readLoop_eq_ok {s : State} {sl : Slice} {n cur v r : Nat} (h : readLoop s sl n cur v = .ok r) :
    ∃ bits : List Bool, bits.length = n ∧ r = bitsOnto v bits
      ∧ ∀ (j : Nat) (hj : j < bits.length), streamBit s sl (cur + j) = .ok bits[j] := by
  induction n generalizing cur v with
  | zero => simp only [readLoop, Except.ok.injEq] at h; exact ⟨[], rfl, by simp [h], by simp⟩
  | succ n ih =>
    simp only [readLoop] at h
    split at h
    · rename_i b hb
      obtain ⟨bits, hl, hr, hbits⟩ := ih h
      refine ⟨b :: bits, by simp [hl], by simpa using hr, fun j hj => ?_⟩
      cases j with
      | zero => simpa using hb
      | succ j =>
        have := hbits j (by simpa using hj)
        rw [show cur + (j + 1) = cur + 1 + j by omega, this]; simp
    · cases h

/-- Where `readLoop` stops, a byte under one of its bits cannot be read. -/
theorem readLoop_eq_error {s : State} {sl : Slice} {n cur v : Nat} {f : Fault}
    (h : readLoop s sl n cur v = .error f) : ∃ j < n, streamBit s sl (cur + j) = .error f := by
  induction n generalizing cur v with
  | zero => cases h
  | succ n ih =>
    simp only [readLoop] at h
    split at h
    · obtain ⟨j, hj, h⟩ := ih h
      exact ⟨j + 1, by omega, by rw [show cur + (j + 1) = cur + 1 + j by omega]; exact h⟩
    · rename_i hb; cases h; exact ⟨0, by omega, hb⟩

theorem readLoop_congr {s s' : State} {sl : Slice} {n cur v : Nat}
    (h : ∀ j < n, streamBit s sl (cur + j) = streamBit s' sl (cur + j)) :
    readLoop s sl n cur v = readLoop s' sl n cur v := by
  induction n generalizing cur v with
  | zero => rfl
  | succ n ih =>
    simp only [readLoop]
    rw [← show streamBit s sl cur = streamBit s' sl cur by simpa using h 0 (by omega)]
    split
    · exact ih (fun j hj => by
        rw [show cur + 1 + j = cur + (j + 1) by omega]; exact h (j + 1) (by omega))
    · rfl

/-- `readBits` over bits the slice holds. -/
theorem readBits_of_bits {s : State} {sl : Slice} {cur : Nat} {bits : List Bool}
    (hl : cur + bits.length ≤ sl.bitLen)
    (h : ∀ (j : Nat) (hj : j < bits.length), streamBit s sl (cur + j) = .ok bits[j]) :
    readBits s sl cur bits.length = .ok (bitsOnto 0 bits, cur + bits.length) := by
  unfold readBits
  rw [if_neg (by omega), readLoop_of_bits h]

/-- What `readBits` gives: the value of bits inside the slice, and the advanced cursor. -/
theorem readBits_eq_ok {s : State} {sl : Slice} {cur n v c : Nat} (h : readBits s sl cur n = .ok (v, c)) :
    c = cur + n ∧ cur + n ≤ sl.bitLen ∧ ∃ bits : List Bool, bits.length = n ∧ v = bitsOnto 0 bits
      ∧ ∀ (j : Nat) (hj : j < bits.length), streamBit s sl (cur + j) = .ok bits[j] := by
  unfold readBits at h
  split at h
  · cases h
  · rename_i hc
    split at h
    · rename_i w hw
      injection h with h
      obtain ⟨rfl, rfl⟩ := Prod.mk.inj h
      exact ⟨rfl, by omega, readLoop_eq_ok hw⟩
    · cases h

/-- `readBits` is exhausted exactly when fewer bits remain (R122). -/
theorem readBits_exhausted {s : State} {sl : Slice} {cur n : Nat} :
    readBits s sl cur n = .error .exhausted ↔ sl.bitLen < cur ∨ sl.bitLen - cur < n := by
  unfold readBits
  split
  · simp_all
  · rename_i hc
    constructor
    · intro h; split at h <;> cases h
    · exact fun h => absurd h hc

/-- Where `readBits` faults, a byte under a bit inside the slice cannot be read. -/
theorem readBits_fault {s : State} {sl : Slice} {cur n : Nat} {f : Fault}
    (h : readBits s sl cur n = .error (.fault f)) :
    ∃ k, k < sl.bitLen ∧ cur ≤ k ∧ k < cur + n ∧ pktByte s (sl.base + k / 8) = .error f := by
  unfold readBits at h
  split at h
  · cases h
  · rename_i hc
    split at h
    · cases h
    · rename_i g hg
      simp only [Except.error.injEq, ReadStop.fault.injEq] at h
      subst h
      obtain ⟨j, hj, hb⟩ := readLoop_eq_error hg
      exact ⟨cur + j, by omega, by omega, by omega, streamBit_eq_error hb⟩

theorem streamBit_congr {s s' : State} {sl : Slice} {k : Nat}
    (h : pktByte s (sl.base + k / 8) = pktByte s' (sl.base + k / 8)) : streamBit s sl k = streamBit s' sl k := by
  simp only [streamBit, h]

/-- Two states agree on the bytes that hold the slice's bits. -/
def AgreeOn (s s' : State) (sl : Slice) : Prop :=
  ∀ a, sl.base ≤ a → a < sl.base + (sl.bitLen + 7) / 8 → pktByte s a = pktByte s' a

theorem readBits_congr {s s' : State} {sl : Slice} (h : AgreeOn s s' sl) (cur n : Nat) :
    readBits s sl cur n = readBits s' sl cur n := by
  unfold readBits
  split
  · rfl
  · rename_i hc
    rw [readLoop_congr (fun j hj => streamBit_congr (h _ (by omega) (by omega)))]

/-! ### The ANC word decoder -/

theorem decodeAncWord_congr {s s' : State} {sl : Slice} (h : AgreeOn s s' sl) (cur : Nat) :
    decodeAncWord s sl cur = decodeAncWord s' sl cur := by
  simp only [decodeAncWord, readBits_congr h]

/-- What `decodeAncWord` gives (R140, R144). -/
theorem decodeAncWord_eq_ok {s : State} {sl : Slice} {cur : Nat} {d : DecodedWord}
    (h : decodeAncWord s sl cur = .ok d) :
    d.next = cur + 10 ∧ cur + 10 ≤ sl.bitLen ∧ d.data = d.raw.extractLsb' 0 8
      ∧ ∃ bits : List Bool, bits.length = 10 ∧ d.raw = BitVec.ofNat 10 (bitsOnto 0 bits)
        ∧ ∀ (j : Nat) (hj : j < bits.length), streamBit s sl (cur + j) = .ok bits[j] := by
  unfold decodeAncWord at h
  split at h
  · rename_i v c hv
    injection h with h
    subst h
    obtain ⟨rfl, hl, bits, hb, rfl, hbits⟩ := readBits_eq_ok hv
    refine ⟨rfl, hl, ?_, bits, hb, rfl, hbits⟩
    apply BitVec.eq_of_toNat_eq
    simp [BitVec.extractLsb'_toNat]
  · cases h

theorem decodeAncWord_eq_error {s : State} {sl : Slice} {cur : Nat} {e : ReadStop} :
    decodeAncWord s sl cur = .error e ↔ readBits s sl cur 10 = .error e := by
  unfold decodeAncWord
  split
  · rename_i h; simp [h]
  · rename_i h; simp [h]

/-- The word the slice holds at the cursor, written as its bits. -/
theorem decodeAncWord_of_bits {s : State} {sl : Slice} {cur : Nat} {bits : List Bool} (hb : bits.length = 10)
    (hl : cur + 10 ≤ sl.bitLen)
    (h : ∀ (j : Nat) (hj : j < bits.length), streamBit s sl (cur + j) = .ok bits[j]) :
    decodeAncWord s sl cur
      = .ok ⟨BitVec.ofNat 8 (bitsOnto 0 bits), cur + 10, BitVec.ofNat 10 (bitsOnto 0 bits)⟩ := by
  have := readBits_of_bits (s := s) (sl := sl) (cur := cur) (bits := bits) (by omega) h
  rw [hb] at this
  simp [decodeAncWord, this]

/-! ### Units -/

theorem captionWords_congr {s s' : State} {sl : Slice} (h : AgreeOn s s' sl) (k cur : Nat) :
    captionWords s sl k cur = captionWords s' sl k cur := by
  induction k generalizing cur with
  | zero => rfl
  | succ k ih => simp only [captionWords, decodeAncWord_congr h, ih]

theorem cdpUnitBody_congr {s s' : State} {sl : Slice} (h : AgreeOn s s' sl) (cur : Nat) :
    cdpUnitBody s sl cur = cdpUnitBody s' sl cur := by
  simp only [cdpUnitBody, decodeAncWord_congr h, readBits_congr h, captionWords_congr h]

theorem otherUnitBody_congr {s s' : State} {sl : Slice} (h : AgreeOn s s' sl)
    (hp : s.cfg.skipPolicy = s'.cfg.skipPolicy) (d e : AncWord10) (cur : Nat) :
    otherUnitBody s sl d e cur = otherUnitBody s' sl d e cur := by
  simp only [otherUnitBody, decodeAncWord_congr h, hp]

/-- A unit depends on the bytes of its slice and on the skip policy, and on nothing else of the state (R124). -/
theorem extractAncUnit_congr {s s' : State} {sl : Slice} (h : AgreeOn s s' sl)
    (hp : s.cfg.skipPolicy = s'.cfg.skipPolicy) (cur : Nat) :
    extractAncUnit s sl cur = extractAncUnit s' sl cur := by
  simp only [extractAncUnit, decodeAncWord_congr h, cdpUnitBody_congr h, otherUnitBody_congr h hp]

/-- `k` caption words take `10 × k` bits inside the slice and give `k` bytes. -/
theorem captionWords_eq_ok {s : State} {sl : Slice} {k cur : Nat} {bs : List Byte} {c : Nat}
    (h : captionWords s sl k cur = .ok (bs, c)) :
    bs.length = k ∧ c = cur + 10 * k ∧ (cur ≤ sl.bitLen → c ≤ sl.bitLen) := by
  induction k generalizing cur bs with
  | zero =>
    simp only [captionWords, Except.ok.injEq, Prod.mk.injEq] at h
    obtain ⟨rfl, rfl⟩ := h; simp
  | succ k ih =>
    simp only [captionWords, bind_eq_ok] at h
    obtain ⟨w, hw, ⟨bs', c'⟩, hk, h⟩ := h
    simp only [pure, Except.pure, Except.ok.injEq, Prod.mk.injEq] at h
    obtain ⟨rfl, rfl⟩ := h
    obtain ⟨hn, hl, -⟩ := decodeAncWord_eq_ok hw
    obtain ⟨h1, h2, h3⟩ := ih hk
    refine ⟨by simp [h1], by omega, fun _ => h3 (by omega)⟩

/-- What the rest of a CDP unit gives: the end of the unit, and as many bytes as its count says (R92, R154). -/
theorem cdpUnitBody_eq_ok {s : State} {sl : Slice} {cur : Nat} {u : AncUnit}
    (h : cdpUnitBody s sl cur = .ok u) :
    u.isCdp = true ∧ u.did = 0x61 ∧ u.sdid = 0x01 ∧ u.next = cur + 90 + 30 * captionCount u.ccWord
      ∧ u.bytes.length = 3 * captionCount u.ccWord ∧ u.next ≤ sl.bitLen := by
  simp only [cdpUnitBody, bind_eq_ok] at h
  obtain ⟨w1, h1, w2, h2, w3, h3, w4, h4, w5, h5, w6, h6, ⟨cv, c7⟩, h7, w8, h8, ⟨bs, c9⟩, h9, h⟩ := h
  simp only [pure, Except.pure, Except.ok.injEq] at h
  subst h
  obtain ⟨e1, l1, -⟩ := decodeAncWord_eq_ok h1
  obtain ⟨e2, l2, -⟩ := decodeAncWord_eq_ok h2
  obtain ⟨e3, l3, -⟩ := decodeAncWord_eq_ok h3
  obtain ⟨e4, l4, -⟩ := decodeAncWord_eq_ok h4
  obtain ⟨e5, l5, -⟩ := decodeAncWord_eq_ok h5
  obtain ⟨e6, l6, -⟩ := decodeAncWord_eq_ok h6
  obtain ⟨e7, l7, -⟩ := readBits_eq_ok h7
  obtain ⟨e8, l8, -⟩ := decodeAncWord_eq_ok h8
  obtain ⟨e9, l9, k9⟩ := captionWords_eq_ok h9
  have hb := k9 (by omega)
  exact ⟨rfl, rfl, rfl, by simp only; omega, e9, hb⟩

/-- What the rest of an other unit gives (R156). -/
theorem otherUnitBody_eq_ok {s : State} {sl : Slice} {d e : AncWord10} {cur : Nat} {u : AncUnit}
    (h : otherUnitBody s sl d e cur = .ok u) :
    ∃ dc, u = otherUnitRecord (d.extractLsb' 0 8) (e.extractLsb' 0 8) dc u.next
      ∧ u.next = cur + 10 + (match s.cfg.skipPolicy with | .reference => 0 | .declared => 10 * dc.toNat)
      ∧ u.next ≤ sl.bitLen := by
  simp only [otherUnitBody, bind_eq_ok] at h
  obtain ⟨w, hw, h⟩ := h
  obtain ⟨e1, l1, -⟩ := decodeAncWord_eq_ok hw
  split at h
  · rename_i hp
    simp only [pure, Except.pure, Except.ok.injEq] at h
    subst h
    exact ⟨w.data, rfl, by simp [otherUnitRecord, e1, hp], by simp [otherUnitRecord]; omega⟩
  · rename_i hp
    split at h
    · cases h
    · simp only [pure, Except.pure, Except.ok.injEq] at h
      subst h
      exact ⟨w.data, rfl, by simp [otherUnitRecord, e1, hp], by simp [otherUnitRecord]; omega⟩

/-- A unit that decodes is one of the two kinds, after two words at the cursor (R150 to R152). -/
theorem extractAncUnit_eq_ok {s : State} {sl : Slice} {cur : Nat} {u : AncUnit}
    (h : extractAncUnit s sl cur = .ok u) :
    ∃ d e : DecodedWord, decodeAncWord s sl cur = .ok d ∧ decodeAncWord s sl (cur + 10) = .ok e
      ∧ ((isCdpId (d.raw ++ e.raw) = true ∧ cdpUnitBody s sl (cur + 20) = .ok u)
        ∨ (isCdpId (d.raw ++ e.raw) = false ∧ otherUnitBody s sl d.raw e.raw (cur + 20) = .ok u)) := by
  simp only [extractAncUnit, bind_eq_ok] at h
  obtain ⟨d, hd, e, he, h⟩ := h
  obtain ⟨e1, -⟩ := decodeAncWord_eq_ok hd
  rw [e1] at he
  obtain ⟨e2, -⟩ := decodeAncWord_eq_ok he
  rw [e2] at h
  refine ⟨d, e, hd, he, ?_⟩
  split at h
  · rename_i hc; exact .inl ⟨hc, h⟩
  · rename_i hc; exact .inr ⟨by simpa using hc, h⟩

/-- A unit gives at most 93 bytes (R154). -/
theorem extractAncUnit_bytes_le {s : State} {sl : Slice} {cur : Nat} {u : AncUnit}
    (h : extractAncUnit s sl cur = .ok u) : u.bytes.length ≤ 93 := by
  obtain ⟨d, e, -, -, ⟨-, h⟩ | ⟨-, h⟩⟩ := extractAncUnit_eq_ok h
  · obtain ⟨-, -, -, -, hb, -⟩ := cdpUnitBody_eq_ok h
    have : captionCount u.ccWord < 32 := (u.ccWord.extractLsb' 0 5).isLt
    omega
  · obtain ⟨dc, hu, -⟩ := otherUnitBody_eq_ok h
    rw [hu]; simp [otherUnitRecord]

/-- Where a read of the slice faults, a byte of it cannot be read. -/
def FaultsIn (s : State) (sl : Slice) (f : Fault) : Prop :=
  ∃ a, sl.base ≤ a ∧ a < sl.base + (sl.bitLen + 7) / 8 ∧ pktByte s a = .error f

theorem readBits_faultsIn {s : State} {sl : Slice} {cur n : Nat} {f : Fault}
    (h : readBits s sl cur n = .error (.fault f)) : FaultsIn s sl f := by
  obtain ⟨k, hk, -, -, h⟩ := readBits_fault h
  exact ⟨sl.base + k / 8, by omega, by omega, h⟩

theorem decodeAncWord_faultsIn {s : State} {sl : Slice} {cur : Nat} {f : Fault}
    (h : decodeAncWord s sl cur = .error (.fault f)) : FaultsIn s sl f :=
  readBits_faultsIn (decodeAncWord_eq_error.1 h)

theorem captionWords_faultsIn {s : State} {sl : Slice} {k cur : Nat} {f : Fault}
    (h : captionWords s sl k cur = .error (.fault f)) : FaultsIn s sl f := by
  induction k generalizing cur with
  | zero => cases h
  | succ k ih =>
    simp only [captionWords, bind_eq_error] at h
    rcases h with h | ⟨w, -, h | ⟨p, -, h⟩⟩
    · exact decodeAncWord_faultsIn h
    · exact ih h
    · cases h

theorem cdpUnitBody_faultsIn {s : State} {sl : Slice} {cur : Nat} {f : Fault}
    (h : cdpUnitBody s sl cur = .error (.fault f)) : FaultsIn s sl f := by
  simp only [cdpUnitBody, bind_eq_error] at h
  rcases h with h | ⟨_, -, h | ⟨_, -, h | ⟨_, -, h | ⟨_, -, h | ⟨_, -, h | ⟨_, -, h | ⟨_, -, h | ⟨_, -, h |
    ⟨_, -, h⟩⟩⟩⟩⟩⟩⟩⟩⟩
  iterate 6 exact decodeAncWord_faultsIn h
  · exact readBits_faultsIn h
  · exact decodeAncWord_faultsIn h
  · exact captionWords_faultsIn h
  · cases h

theorem otherUnitBody_faultsIn {s : State} {sl : Slice} {d e : AncWord10} {cur : Nat} {f : Fault}
    (h : otherUnitBody s sl d e cur = .error (.fault f)) : FaultsIn s sl f := by
  simp only [otherUnitBody, bind_eq_error] at h
  rcases h with h | ⟨_, -, h⟩
  · exact decodeAncWord_faultsIn h
  · split at h
    · cases h
    · split at h <;> cases h

theorem extractAncUnit_faultsIn {s : State} {sl : Slice} {cur : Nat} {f : Fault}
    (h : extractAncUnit s sl cur = .error (.fault f)) : FaultsIn s sl f := by
  simp only [extractAncUnit, bind_eq_error] at h
  rcases h with h | ⟨_, -, h | ⟨_, -, h⟩⟩
  · exact decodeAncWord_faultsIn h
  · exact decodeAncWord_faultsIn h
  · split at h
    · exact cdpUnitBody_faultsIn h
    · exact otherUnitBody_faultsIn h

end Sys2Proof.Machine
end

