-- ==== Sys2Proof/Laws/State.lean ====
section
/-! SUPPORT. One lemma per field of `State` per named update: what the field holds after it. -/

namespace Sys2Proof.Machine

variable (s : State)

/-! ### `State.respond` -/

@[simp] theorem State.respond_cfg (r : Resp) : (s.respond r).cfg = s.cfg := rfl
@[simp] theorem State.respond_cmd (r : Resp) : (s.respond r).cmd = s.cmd := rfl
@[simp] theorem State.respond_argTs (r : Resp) : (s.respond r).argTs = s.argTs := rfl
@[simp] theorem State.respond_argLen (r : Resp) : (s.respond r).argLen = s.argLen := rfl
@[simp] theorem State.respond_argHdrLen (r : Resp) : (s.respond r).argHdrLen = s.argHdrLen := rfl
@[simp] theorem State.respond_argCursor (r : Resp) : (s.respond r).argCursor = s.argCursor := rfl
@[simp] theorem State.respond_resp (r : Resp) : (s.respond r).resp = r := rfl
@[simp] theorem State.respond_status (r : Resp) : (s.respond r).status = s.status := rfl
@[simp] theorem State.respond_curTs (r : Resp) : (s.respond r).curTs = s.curTs := rfl
@[simp] theorem State.respond_wrOff (r : Resp) : (s.respond r).wrOff = s.wrOff := rfl
@[simp] theorem State.respond_dbgValue (r : Resp) : (s.respond r).dbgValue = s.dbgValue := rfl
@[simp] theorem State.respond_unitLen (r : Resp) : (s.respond r).unitLen = s.unitLen := rfl
@[simp] theorem State.respond_lastUnit (r : Resp) : (s.respond r).lastUnit = s.lastUnit := rfl
@[simp] theorem State.respond_lastCdpA (r : Resp) : (s.respond r).lastCdpA = s.lastCdpA := rfl
@[simp] theorem State.respond_lastCdpB (r : Resp) : (s.respond r).lastCdpB = s.lastCdpB := rfl
@[simp] theorem State.respond_lastCdpC (r : Resp) : (s.respond r).lastCdpC = s.lastCdpC := rfl
@[simp] theorem State.respond_cntFrames (r : Resp) : (s.respond r).cntFrames = s.cntFrames := rfl
@[simp] theorem State.respond_cntStale (r : Resp) : (s.respond r).cntStale = s.cntStale := rfl
@[simp] theorem State.respond_cntExhausted (r : Resp) : (s.respond r).cntExhausted = s.cntExhausted := rfl
@[simp] theorem State.respond_cntOverflow (r : Resp) : (s.respond r).cntOverflow = s.cntOverflow := rfl
@[simp] theorem State.respond_cntAlloc (r : Resp) : (s.respond r).cntAlloc = s.cntAlloc := rfl
@[simp] theorem State.respond_cntBadcmd (r : Resp) : (s.respond r).cntBadcmd = s.cntBadcmd := rfl
@[simp] theorem State.respond_accBuf (r : Resp) : (s.respond r).accBuf = s.accBuf := rfl
@[simp] theorem State.respond_pktRam (r : Resp) : (s.respond r).pktRam = s.pktRam := rfl
@[simp] theorem State.respond_unitBuf (r : Resp) : (s.respond r).unitBuf = s.unitBuf := rfl
@[simp] theorem State.respond_out (r : Resp) : (s.respond r).out = s.out := rfl
@[simp] theorem State.respond_faulted (r : Resp) : (s.respond r).faulted = s.faulted := rfl
@[simp] theorem State.respond_draw (r : Resp) : (s.respond r).draw = s.draw := rfl
@[simp] theorem State.respond_host (r : Resp) : (s.respond r).host = s.host := rfl
@[simp] theorem State.respond_hostData (r : Resp) : (s.respond r).hostData = s.hostData := rfl

/-! ### `State.setDbg` -/

@[simp] theorem State.setDbg_cfg (v : Word) : (s.setDbg v).cfg = s.cfg := rfl
@[simp] theorem State.setDbg_cmd (v : Word) : (s.setDbg v).cmd = s.cmd := rfl
@[simp] theorem State.setDbg_argTs (v : Word) : (s.setDbg v).argTs = s.argTs := rfl
@[simp] theorem State.setDbg_argLen (v : Word) : (s.setDbg v).argLen = s.argLen := rfl
@[simp] theorem State.setDbg_argHdrLen (v : Word) : (s.setDbg v).argHdrLen = s.argHdrLen := rfl
@[simp] theorem State.setDbg_argCursor (v : Word) : (s.setDbg v).argCursor = s.argCursor := rfl
@[simp] theorem State.setDbg_resp (v : Word) : (s.setDbg v).resp = s.resp := rfl
@[simp] theorem State.setDbg_status (v : Word) : (s.setDbg v).status = s.status := rfl
@[simp] theorem State.setDbg_curTs (v : Word) : (s.setDbg v).curTs = s.curTs := rfl
@[simp] theorem State.setDbg_wrOff (v : Word) : (s.setDbg v).wrOff = s.wrOff := rfl
@[simp] theorem State.setDbg_dbgValue (v : Word) : (s.setDbg v).dbgValue = v := rfl
@[simp] theorem State.setDbg_unitLen (v : Word) : (s.setDbg v).unitLen = s.unitLen := rfl
@[simp] theorem State.setDbg_lastUnit (v : Word) : (s.setDbg v).lastUnit = s.lastUnit := rfl
@[simp] theorem State.setDbg_lastCdpA (v : Word) : (s.setDbg v).lastCdpA = s.lastCdpA := rfl
@[simp] theorem State.setDbg_lastCdpB (v : Word) : (s.setDbg v).lastCdpB = s.lastCdpB := rfl
@[simp] theorem State.setDbg_lastCdpC (v : Word) : (s.setDbg v).lastCdpC = s.lastCdpC := rfl
@[simp] theorem State.setDbg_cntFrames (v : Word) : (s.setDbg v).cntFrames = s.cntFrames := rfl
@[simp] theorem State.setDbg_cntStale (v : Word) : (s.setDbg v).cntStale = s.cntStale := rfl
@[simp] theorem State.setDbg_cntExhausted (v : Word) : (s.setDbg v).cntExhausted = s.cntExhausted := rfl
@[simp] theorem State.setDbg_cntOverflow (v : Word) : (s.setDbg v).cntOverflow = s.cntOverflow := rfl
@[simp] theorem State.setDbg_cntAlloc (v : Word) : (s.setDbg v).cntAlloc = s.cntAlloc := rfl
@[simp] theorem State.setDbg_cntBadcmd (v : Word) : (s.setDbg v).cntBadcmd = s.cntBadcmd := rfl
@[simp] theorem State.setDbg_accBuf (v : Word) : (s.setDbg v).accBuf = s.accBuf := rfl
@[simp] theorem State.setDbg_pktRam (v : Word) : (s.setDbg v).pktRam = s.pktRam := rfl
@[simp] theorem State.setDbg_unitBuf (v : Word) : (s.setDbg v).unitBuf = s.unitBuf := rfl
@[simp] theorem State.setDbg_out (v : Word) : (s.setDbg v).out = s.out := rfl
@[simp] theorem State.setDbg_faulted (v : Word) : (s.setDbg v).faulted = s.faulted := rfl
@[simp] theorem State.setDbg_draw (v : Word) : (s.setDbg v).draw = s.draw := rfl
@[simp] theorem State.setDbg_host (v : Word) : (s.setDbg v).host = s.host := rfl
@[simp] theorem State.setDbg_hostData (v : Word) : (s.setDbg v).hostData = s.hostData := rfl

/-! ### `State.setCursor` -/

@[simp] theorem State.setCursor_cfg (c : Nat) : (s.setCursor c).cfg = s.cfg := rfl
@[simp] theorem State.setCursor_cmd (c : Nat) : (s.setCursor c).cmd = s.cmd := rfl
@[simp] theorem State.setCursor_argTs (c : Nat) : (s.setCursor c).argTs = s.argTs := rfl
@[simp] theorem State.setCursor_argLen (c : Nat) : (s.setCursor c).argLen = s.argLen := rfl
@[simp] theorem State.setCursor_argHdrLen (c : Nat) : (s.setCursor c).argHdrLen = s.argHdrLen := rfl
@[simp] theorem State.setCursor_argCursor (c : Nat) : (s.setCursor c).argCursor = BitVec.ofNat 32 c := rfl
@[simp] theorem State.setCursor_resp (c : Nat) : (s.setCursor c).resp = s.resp := rfl
@[simp] theorem State.setCursor_status (c : Nat) : (s.setCursor c).status = s.status := rfl
@[simp] theorem State.setCursor_curTs (c : Nat) : (s.setCursor c).curTs = s.curTs := rfl
@[simp] theorem State.setCursor_wrOff (c : Nat) : (s.setCursor c).wrOff = s.wrOff := rfl
@[simp] theorem State.setCursor_dbgValue (c : Nat) : (s.setCursor c).dbgValue = s.dbgValue := rfl
@[simp] theorem State.setCursor_unitLen (c : Nat) : (s.setCursor c).unitLen = s.unitLen := rfl
@[simp] theorem State.setCursor_lastUnit (c : Nat) : (s.setCursor c).lastUnit = s.lastUnit := rfl
@[simp] theorem State.setCursor_lastCdpA (c : Nat) : (s.setCursor c).lastCdpA = s.lastCdpA := rfl
@[simp] theorem State.setCursor_lastCdpB (c : Nat) : (s.setCursor c).lastCdpB = s.lastCdpB := rfl
@[simp] theorem State.setCursor_lastCdpC (c : Nat) : (s.setCursor c).lastCdpC = s.lastCdpC := rfl
@[simp] theorem State.setCursor_cntFrames (c : Nat) : (s.setCursor c).cntFrames = s.cntFrames := rfl
@[simp] theorem State.setCursor_cntStale (c : Nat) : (s.setCursor c).cntStale = s.cntStale := rfl
@[simp] theorem State.setCursor_cntExhausted (c : Nat) : (s.setCursor c).cntExhausted = s.cntExhausted := rfl
@[simp] theorem State.setCursor_cntOverflow (c : Nat) : (s.setCursor c).cntOverflow = s.cntOverflow := rfl
@[simp] theorem State.setCursor_cntAlloc (c : Nat) : (s.setCursor c).cntAlloc = s.cntAlloc := rfl
@[simp] theorem State.setCursor_cntBadcmd (c : Nat) : (s.setCursor c).cntBadcmd = s.cntBadcmd := rfl
@[simp] theorem State.setCursor_accBuf (c : Nat) : (s.setCursor c).accBuf = s.accBuf := rfl
@[simp] theorem State.setCursor_pktRam (c : Nat) : (s.setCursor c).pktRam = s.pktRam := rfl
@[simp] theorem State.setCursor_unitBuf (c : Nat) : (s.setCursor c).unitBuf = s.unitBuf := rfl
@[simp] theorem State.setCursor_out (c : Nat) : (s.setCursor c).out = s.out := rfl
@[simp] theorem State.setCursor_faulted (c : Nat) : (s.setCursor c).faulted = s.faulted := rfl
@[simp] theorem State.setCursor_draw (c : Nat) : (s.setCursor c).draw = s.draw := rfl
@[simp] theorem State.setCursor_host (c : Nat) : (s.setCursor c).host = s.host := rfl
@[simp] theorem State.setCursor_hostData (c : Nat) : (s.setCursor c).hostData = s.hostData := rfl

/-! ### `State.storeUnit` -/

@[simp] theorem State.storeUnit_cfg (bs : List Byte) : (s.storeUnit bs).cfg = s.cfg := rfl
@[simp] theorem State.storeUnit_cmd (bs : List Byte) : (s.storeUnit bs).cmd = s.cmd := rfl
@[simp] theorem State.storeUnit_argTs (bs : List Byte) : (s.storeUnit bs).argTs = s.argTs := rfl
@[simp] theorem State.storeUnit_argLen (bs : List Byte) : (s.storeUnit bs).argLen = s.argLen := rfl
@[simp] theorem State.storeUnit_argHdrLen (bs : List Byte) : (s.storeUnit bs).argHdrLen = s.argHdrLen := rfl
@[simp] theorem State.storeUnit_argCursor (bs : List Byte) : (s.storeUnit bs).argCursor = s.argCursor := rfl
@[simp] theorem State.storeUnit_resp (bs : List Byte) : (s.storeUnit bs).resp = s.resp := rfl
@[simp] theorem State.storeUnit_status (bs : List Byte) : (s.storeUnit bs).status = s.status := rfl
@[simp] theorem State.storeUnit_curTs (bs : List Byte) : (s.storeUnit bs).curTs = s.curTs := rfl
@[simp] theorem State.storeUnit_wrOff (bs : List Byte) : (s.storeUnit bs).wrOff = s.wrOff := rfl
@[simp] theorem State.storeUnit_dbgValue (bs : List Byte) : (s.storeUnit bs).dbgValue = s.dbgValue := rfl
@[simp] theorem State.storeUnit_unitLen (bs : List Byte) : (s.storeUnit bs).unitLen = BitVec.ofNat 7 bs.length :=
  rfl
@[simp] theorem State.storeUnit_lastUnit (bs : List Byte) : (s.storeUnit bs).lastUnit = s.lastUnit := rfl
@[simp] theorem State.storeUnit_lastCdpA (bs : List Byte) : (s.storeUnit bs).lastCdpA = s.lastCdpA := rfl
@[simp] theorem State.storeUnit_lastCdpB (bs : List Byte) : (s.storeUnit bs).lastCdpB = s.lastCdpB := rfl
@[simp] theorem State.storeUnit_lastCdpC (bs : List Byte) : (s.storeUnit bs).lastCdpC = s.lastCdpC := rfl
@[simp] theorem State.storeUnit_cntFrames (bs : List Byte) : (s.storeUnit bs).cntFrames = s.cntFrames := rfl
@[simp] theorem State.storeUnit_cntStale (bs : List Byte) : (s.storeUnit bs).cntStale = s.cntStale := rfl
@[simp] theorem State.storeUnit_cntExhausted (bs : List Byte) : (s.storeUnit bs).cntExhausted = s.cntExhausted :=
  rfl
@[simp] theorem State.storeUnit_cntOverflow (bs : List Byte) : (s.storeUnit bs).cntOverflow = s.cntOverflow :=
  rfl
@[simp] theorem State.storeUnit_cntAlloc (bs : List Byte) : (s.storeUnit bs).cntAlloc = s.cntAlloc := rfl
@[simp] theorem State.storeUnit_cntBadcmd (bs : List Byte) : (s.storeUnit bs).cntBadcmd = s.cntBadcmd := rfl
@[simp] theorem State.storeUnit_accBuf (bs : List Byte) : (s.storeUnit bs).accBuf = s.accBuf := rfl
@[simp] theorem State.storeUnit_pktRam (bs : List Byte) : (s.storeUnit bs).pktRam = s.pktRam := rfl
@[simp] theorem State.storeUnit_unitBuf (bs : List Byte) : (s.storeUnit bs).unitBuf = s.unitBuf.writeRange 0 bs :=
  rfl
@[simp] theorem State.storeUnit_out (bs : List Byte) : (s.storeUnit bs).out = s.out := rfl
@[simp] theorem State.storeUnit_faulted (bs : List Byte) : (s.storeUnit bs).faulted = s.faulted := rfl
@[simp] theorem State.storeUnit_draw (bs : List Byte) : (s.storeUnit bs).draw = s.draw := rfl
@[simp] theorem State.storeUnit_host (bs : List Byte) : (s.storeUnit bs).host = s.host := rfl
@[simp] theorem State.storeUnit_hostData (bs : List Byte) : (s.storeUnit bs).hostData = s.hostData := rfl

/-! ### `State.openFrame` -/

@[simp] theorem State.openFrame_cfg : (s.openFrame).cfg = s.cfg := rfl
@[simp] theorem State.openFrame_cmd : (s.openFrame).cmd = s.cmd := rfl
@[simp] theorem State.openFrame_argTs : (s.openFrame).argTs = s.argTs := rfl
@[simp] theorem State.openFrame_argLen : (s.openFrame).argLen = s.argLen := rfl
@[simp] theorem State.openFrame_argHdrLen : (s.openFrame).argHdrLen = s.argHdrLen := rfl
@[simp] theorem State.openFrame_argCursor : (s.openFrame).argCursor = s.argCursor := rfl
@[simp] theorem State.openFrame_resp : (s.openFrame).resp = s.resp := rfl
@[simp] theorem State.openFrame_status : (s.openFrame).status = .accumulating := rfl
@[simp] theorem State.openFrame_curTs : (s.openFrame).curTs = s.argTs := rfl
@[simp] theorem State.openFrame_wrOff : (s.openFrame).wrOff = 0 := rfl
@[simp] theorem State.openFrame_dbgValue : (s.openFrame).dbgValue = s.dbgValue := rfl
@[simp] theorem State.openFrame_unitLen : (s.openFrame).unitLen = s.unitLen := rfl
@[simp] theorem State.openFrame_lastUnit : (s.openFrame).lastUnit = s.lastUnit := rfl
@[simp] theorem State.openFrame_lastCdpA : (s.openFrame).lastCdpA = s.lastCdpA := rfl
@[simp] theorem State.openFrame_lastCdpB : (s.openFrame).lastCdpB = s.lastCdpB := rfl
@[simp] theorem State.openFrame_lastCdpC : (s.openFrame).lastCdpC = s.lastCdpC := rfl
@[simp] theorem State.openFrame_cntFrames : (s.openFrame).cntFrames = s.cntFrames := rfl
@[simp] theorem State.openFrame_cntStale : (s.openFrame).cntStale = s.cntStale := rfl
@[simp] theorem State.openFrame_cntExhausted : (s.openFrame).cntExhausted = s.cntExhausted := rfl
@[simp] theorem State.openFrame_cntOverflow : (s.openFrame).cntOverflow = s.cntOverflow := rfl
@[simp] theorem State.openFrame_cntAlloc : (s.openFrame).cntAlloc = s.cntAlloc := rfl
@[simp] theorem State.openFrame_cntBadcmd : (s.openFrame).cntBadcmd = s.cntBadcmd := rfl
@[simp] theorem State.openFrame_accBuf : (s.openFrame).accBuf = s.accBuf := rfl
@[simp] theorem State.openFrame_pktRam : (s.openFrame).pktRam = s.pktRam := rfl
@[simp] theorem State.openFrame_unitBuf : (s.openFrame).unitBuf = s.unitBuf := rfl
@[simp] theorem State.openFrame_out : (s.openFrame).out = s.out := rfl
@[simp] theorem State.openFrame_faulted : (s.openFrame).faulted = s.faulted := rfl
@[simp] theorem State.openFrame_draw : (s.openFrame).draw = s.draw := rfl
@[simp] theorem State.openFrame_host : (s.openFrame).host = s.host := rfl
@[simp] theorem State.openFrame_hostData : (s.openFrame).hostData = s.hostData := rfl

/-! ### `State.appendBytes` -/

@[simp] theorem State.appendBytes_cfg (bs : List Byte) : (s.appendBytes bs).cfg = s.cfg := rfl
@[simp] theorem State.appendBytes_cmd (bs : List Byte) : (s.appendBytes bs).cmd = s.cmd := rfl
@[simp] theorem State.appendBytes_argTs (bs : List Byte) : (s.appendBytes bs).argTs = s.argTs := rfl
@[simp] theorem State.appendBytes_argLen (bs : List Byte) : (s.appendBytes bs).argLen = s.argLen := rfl
@[simp] theorem State.appendBytes_argHdrLen (bs : List Byte) : (s.appendBytes bs).argHdrLen = s.argHdrLen :=
  rfl
@[simp] theorem State.appendBytes_argCursor (bs : List Byte) : (s.appendBytes bs).argCursor = s.argCursor :=
  rfl
@[simp] theorem State.appendBytes_resp (bs : List Byte) : (s.appendBytes bs).resp = s.resp := rfl
@[simp] theorem State.appendBytes_status (bs : List Byte) : (s.appendBytes bs).status = s.status := rfl
@[simp] theorem State.appendBytes_curTs (bs : List Byte) : (s.appendBytes bs).curTs = s.curTs := rfl
@[simp] theorem State.appendBytes_wrOff (bs : List Byte) : (s.appendBytes bs).wrOff = BitVec.ofNat 16 (s.wrOff.toNat + bs.length) :=
  rfl
@[simp] theorem State.appendBytes_dbgValue (bs : List Byte) : (s.appendBytes bs).dbgValue = s.dbgValue := rfl
@[simp] theorem State.appendBytes_unitLen (bs : List Byte) : (s.appendBytes bs).unitLen = s.unitLen := rfl
@[simp] theorem State.appendBytes_lastUnit (bs : List Byte) : (s.appendBytes bs).lastUnit = s.lastUnit := rfl
@[simp] theorem State.appendBytes_lastCdpA (bs : List Byte) : (s.appendBytes bs).lastCdpA = s.lastCdpA := rfl
@[simp] theorem State.appendBytes_lastCdpB (bs : List Byte) : (s.appendBytes bs).lastCdpB = s.lastCdpB := rfl
@[simp] theorem State.appendBytes_lastCdpC (bs : List Byte) : (s.appendBytes bs).lastCdpC = s.lastCdpC := rfl
@[simp] theorem State.appendBytes_cntFrames (bs : List Byte) : (s.appendBytes bs).cntFrames = s.cntFrames :=
  rfl
@[simp] theorem State.appendBytes_cntStale (bs : List Byte) : (s.appendBytes bs).cntStale = s.cntStale := rfl
@[simp] theorem State.appendBytes_cntExhausted (bs : List Byte) : (s.appendBytes bs).cntExhausted = s.cntExhausted :=
  rfl
@[simp] theorem State.appendBytes_cntOverflow (bs : List Byte) : (s.appendBytes bs).cntOverflow = s.cntOverflow :=
  rfl
@[simp] theorem State.appendBytes_cntAlloc (bs : List Byte) : (s.appendBytes bs).cntAlloc = s.cntAlloc := rfl
@[simp] theorem State.appendBytes_cntBadcmd (bs : List Byte) : (s.appendBytes bs).cntBadcmd = s.cntBadcmd :=
  rfl
@[simp] theorem State.appendBytes_accBuf (bs : List Byte) : (s.appendBytes bs).accBuf = s.accBuf.writeRange s.wrOff.toNat bs :=
  rfl
@[simp] theorem State.appendBytes_pktRam (bs : List Byte) : (s.appendBytes bs).pktRam = s.pktRam := rfl
@[simp] theorem State.appendBytes_unitBuf (bs : List Byte) : (s.appendBytes bs).unitBuf = s.unitBuf := rfl
@[simp] theorem State.appendBytes_out (bs : List Byte) : (s.appendBytes bs).out = s.out := rfl
@[simp] theorem State.appendBytes_faulted (bs : List Byte) : (s.appendBytes bs).faulted = s.faulted := rfl
@[simp] theorem State.appendBytes_draw (bs : List Byte) : (s.appendBytes bs).draw = s.draw := rfl
@[simp] theorem State.appendBytes_host (bs : List Byte) : (s.appendBytes bs).host = s.host := rfl
@[simp] theorem State.appendBytes_hostData (bs : List Byte) : (s.appendBytes bs).hostData = s.hostData := rfl

/-! ### `State.emit` -/

@[simp] theorem State.emit_cfg (k : RecordKind) : (s.emit k).cfg = s.cfg := rfl
@[simp] theorem State.emit_cmd (k : RecordKind) : (s.emit k).cmd = s.cmd := rfl
@[simp] theorem State.emit_argTs (k : RecordKind) : (s.emit k).argTs = s.argTs := rfl
@[simp] theorem State.emit_argLen (k : RecordKind) : (s.emit k).argLen = s.argLen := rfl
@[simp] theorem State.emit_argHdrLen (k : RecordKind) : (s.emit k).argHdrLen = s.argHdrLen := rfl
@[simp] theorem State.emit_argCursor (k : RecordKind) : (s.emit k).argCursor = s.argCursor := rfl
@[simp] theorem State.emit_resp (k : RecordKind) : (s.emit k).resp = s.resp := rfl
@[simp] theorem State.emit_status (k : RecordKind) : (s.emit k).status = s.status := rfl
@[simp] theorem State.emit_curTs (k : RecordKind) : (s.emit k).curTs = s.curTs := rfl
@[simp] theorem State.emit_wrOff (k : RecordKind) : (s.emit k).wrOff = s.wrOff := rfl
@[simp] theorem State.emit_dbgValue (k : RecordKind) : (s.emit k).dbgValue = s.dbgValue := rfl
@[simp] theorem State.emit_unitLen (k : RecordKind) : (s.emit k).unitLen = s.unitLen := rfl
@[simp] theorem State.emit_lastUnit (k : RecordKind) : (s.emit k).lastUnit = s.lastUnit := rfl
@[simp] theorem State.emit_lastCdpA (k : RecordKind) : (s.emit k).lastCdpA = s.lastCdpA := rfl
@[simp] theorem State.emit_lastCdpB (k : RecordKind) : (s.emit k).lastCdpB = s.lastCdpB := rfl
@[simp] theorem State.emit_lastCdpC (k : RecordKind) : (s.emit k).lastCdpC = s.lastCdpC := rfl
@[simp] theorem State.emit_cntFrames (k : RecordKind) : (s.emit k).cntFrames = s.cntFrames + 1 := rfl
@[simp] theorem State.emit_cntStale (k : RecordKind) : (s.emit k).cntStale = s.cntStale := rfl
@[simp] theorem State.emit_cntExhausted (k : RecordKind) : (s.emit k).cntExhausted = s.cntExhausted := rfl
@[simp] theorem State.emit_cntOverflow (k : RecordKind) : (s.emit k).cntOverflow = s.cntOverflow := rfl
@[simp] theorem State.emit_cntAlloc (k : RecordKind) : (s.emit k).cntAlloc = s.cntAlloc := rfl
@[simp] theorem State.emit_cntBadcmd (k : RecordKind) : (s.emit k).cntBadcmd = s.cntBadcmd := rfl
@[simp] theorem State.emit_accBuf (k : RecordKind) : (s.emit k).accBuf = s.accBuf := rfl
@[simp] theorem State.emit_pktRam (k : RecordKind) : (s.emit k).pktRam = s.pktRam := rfl
@[simp] theorem State.emit_unitBuf (k : RecordKind) : (s.emit k).unitBuf = s.unitBuf := rfl
@[simp] theorem State.emit_out (k : RecordKind) : (s.emit k).out = s.out ++ [⟨k, s.curTs, s.frameBytes⟩] :=
  rfl
@[simp] theorem State.emit_faulted (k : RecordKind) : (s.emit k).faulted = s.faulted := rfl
@[simp] theorem State.emit_draw (k : RecordKind) : (s.emit k).draw = s.draw := rfl
@[simp] theorem State.emit_host (k : RecordKind) : (s.emit k).host = s.host := rfl
@[simp] theorem State.emit_hostData (k : RecordKind) : (s.emit k).hostData = s.hostData := rfl

/-! ### `State.closeFrame` -/

@[simp] theorem State.closeFrame_cfg : (s.closeFrame).cfg = s.cfg := rfl
@[simp] theorem State.closeFrame_cmd : (s.closeFrame).cmd = s.cmd := rfl
@[simp] theorem State.closeFrame_argTs : (s.closeFrame).argTs = s.argTs := rfl
@[simp] theorem State.closeFrame_argLen : (s.closeFrame).argLen = s.argLen := rfl
@[simp] theorem State.closeFrame_argHdrLen : (s.closeFrame).argHdrLen = s.argHdrLen := rfl
@[simp] theorem State.closeFrame_argCursor : (s.closeFrame).argCursor = s.argCursor := rfl
@[simp] theorem State.closeFrame_resp : (s.closeFrame).resp = s.resp := rfl
@[simp] theorem State.closeFrame_status : (s.closeFrame).status = .idle := rfl
@[simp] theorem State.closeFrame_curTs : (s.closeFrame).curTs = s.curTs := rfl
@[simp] theorem State.closeFrame_wrOff : (s.closeFrame).wrOff = 0 := rfl
@[simp] theorem State.closeFrame_dbgValue : (s.closeFrame).dbgValue = s.dbgValue := rfl
@[simp] theorem State.closeFrame_unitLen : (s.closeFrame).unitLen = s.unitLen := rfl
@[simp] theorem State.closeFrame_lastUnit : (s.closeFrame).lastUnit = s.lastUnit := rfl
@[simp] theorem State.closeFrame_lastCdpA : (s.closeFrame).lastCdpA = s.lastCdpA := rfl
@[simp] theorem State.closeFrame_lastCdpB : (s.closeFrame).lastCdpB = s.lastCdpB := rfl
@[simp] theorem State.closeFrame_lastCdpC : (s.closeFrame).lastCdpC = s.lastCdpC := rfl
@[simp] theorem State.closeFrame_cntFrames : (s.closeFrame).cntFrames = s.cntFrames := rfl
@[simp] theorem State.closeFrame_cntStale : (s.closeFrame).cntStale = s.cntStale := rfl
@[simp] theorem State.closeFrame_cntExhausted : (s.closeFrame).cntExhausted = s.cntExhausted := rfl
@[simp] theorem State.closeFrame_cntOverflow : (s.closeFrame).cntOverflow = s.cntOverflow := rfl
@[simp] theorem State.closeFrame_cntAlloc : (s.closeFrame).cntAlloc = s.cntAlloc := rfl
@[simp] theorem State.closeFrame_cntBadcmd : (s.closeFrame).cntBadcmd = s.cntBadcmd := rfl
@[simp] theorem State.closeFrame_accBuf : (s.closeFrame).accBuf = s.accBuf := rfl
@[simp] theorem State.closeFrame_pktRam : (s.closeFrame).pktRam = s.pktRam := rfl
@[simp] theorem State.closeFrame_unitBuf : (s.closeFrame).unitBuf = s.unitBuf := rfl
@[simp] theorem State.closeFrame_out : (s.closeFrame).out = s.out := rfl
@[simp] theorem State.closeFrame_faulted : (s.closeFrame).faulted = s.faulted := rfl
@[simp] theorem State.closeFrame_draw : (s.closeFrame).draw = s.draw := rfl
@[simp] theorem State.closeFrame_host : (s.closeFrame).host = s.host := rfl
@[simp] theorem State.closeFrame_hostData : (s.closeFrame).hostData = s.hostData := rfl

/-! ### `State.countError` -/

@[simp] theorem State.countError_cfg (e : ErrorCode) : (s.countError e).cfg = s.cfg := by cases e <;> rfl
@[simp] theorem State.countError_cmd (e : ErrorCode) : (s.countError e).cmd = s.cmd := by cases e <;> rfl
@[simp] theorem State.countError_argTs (e : ErrorCode) : (s.countError e).argTs = s.argTs :=
  by cases e <;> rfl
@[simp] theorem State.countError_argLen (e : ErrorCode) : (s.countError e).argLen = s.argLen :=
  by cases e <;> rfl
@[simp] theorem State.countError_argHdrLen (e : ErrorCode) : (s.countError e).argHdrLen = s.argHdrLen :=
  by cases e <;> rfl
@[simp] theorem State.countError_argCursor (e : ErrorCode) : (s.countError e).argCursor = s.argCursor :=
  by cases e <;> rfl
@[simp] theorem State.countError_resp (e : ErrorCode) : (s.countError e).resp = s.resp := by cases e <;> rfl
@[simp] theorem State.countError_status (e : ErrorCode) : (s.countError e).status = s.status :=
  by cases e <;> rfl
@[simp] theorem State.countError_curTs (e : ErrorCode) : (s.countError e).curTs = s.curTs :=
  by cases e <;> rfl
@[simp] theorem State.countError_wrOff (e : ErrorCode) : (s.countError e).wrOff = s.wrOff :=
  by cases e <;> rfl
@[simp] theorem State.countError_dbgValue (e : ErrorCode) : (s.countError e).dbgValue = s.dbgValue :=
  by cases e <;> rfl
@[simp] theorem State.countError_unitLen (e : ErrorCode) : (s.countError e).unitLen = s.unitLen :=
  by cases e <;> rfl
@[simp] theorem State.countError_lastUnit (e : ErrorCode) : (s.countError e).lastUnit = s.lastUnit :=
  by cases e <;> rfl
@[simp] theorem State.countError_lastCdpA (e : ErrorCode) : (s.countError e).lastCdpA = s.lastCdpA :=
  by cases e <;> rfl
@[simp] theorem State.countError_lastCdpB (e : ErrorCode) : (s.countError e).lastCdpB = s.lastCdpB :=
  by cases e <;> rfl
@[simp] theorem State.countError_lastCdpC (e : ErrorCode) : (s.countError e).lastCdpC = s.lastCdpC :=
  by cases e <;> rfl
@[simp] theorem State.countError_cntFrames (e : ErrorCode) : (s.countError e).cntFrames = s.cntFrames :=
  by cases e <;> rfl
@[simp] theorem State.countError_cntStale (e : ErrorCode) : (s.countError e).cntStale = s.cntStale :=
  by cases e <;> rfl
@[simp] theorem State.countError_cntExhausted (e : ErrorCode) : (s.countError e).cntExhausted = s.cntExhausted + (if e = .exhausted then 1 else 0) :=
  by cases e <;> simp [State.countError]
@[simp] theorem State.countError_cntOverflow (e : ErrorCode) : (s.countError e).cntOverflow = s.cntOverflow + (if e = .overflow then 1 else 0) :=
  by cases e <;> simp [State.countError]
@[simp] theorem State.countError_cntAlloc (e : ErrorCode) : (s.countError e).cntAlloc = s.cntAlloc + (if e = .alloc then 1 else 0) :=
  by cases e <;> simp [State.countError]
@[simp] theorem State.countError_cntBadcmd (e : ErrorCode) : (s.countError e).cntBadcmd = s.cntBadcmd + (if e = .badCmd then 1 else 0) :=
  by cases e <;> simp [State.countError]
@[simp] theorem State.countError_accBuf (e : ErrorCode) : (s.countError e).accBuf = s.accBuf :=
  by cases e <;> rfl
@[simp] theorem State.countError_pktRam (e : ErrorCode) : (s.countError e).pktRam = s.pktRam :=
  by cases e <;> rfl
@[simp] theorem State.countError_unitBuf (e : ErrorCode) : (s.countError e).unitBuf = s.unitBuf :=
  by cases e <;> rfl
@[simp] theorem State.countError_out (e : ErrorCode) : (s.countError e).out = s.out := by cases e <;> rfl
@[simp] theorem State.countError_faulted (e : ErrorCode) : (s.countError e).faulted = s.faulted :=
  by cases e <;> rfl
@[simp] theorem State.countError_draw (e : ErrorCode) : (s.countError e).draw = s.draw := by cases e <;> rfl
@[simp] theorem State.countError_host (e : ErrorCode) : (s.countError e).host = s.host := by cases e <;> rfl
@[simp] theorem State.countError_hostData (e : ErrorCode) : (s.countError e).hostData = s.hostData :=
  by cases e <;> rfl

/-! ### `State.capture` -/

@[simp] theorem State.capture_cfg (u : AncUnit) : (s.capture u).cfg = s.cfg :=
  by unfold State.capture; split <;> rfl
@[simp] theorem State.capture_cmd (u : AncUnit) : (s.capture u).cmd = s.cmd :=
  by unfold State.capture; split <;> rfl
@[simp] theorem State.capture_argTs (u : AncUnit) : (s.capture u).argTs = s.argTs :=
  by unfold State.capture; split <;> rfl
@[simp] theorem State.capture_argLen (u : AncUnit) : (s.capture u).argLen = s.argLen :=
  by unfold State.capture; split <;> rfl
@[simp] theorem State.capture_argHdrLen (u : AncUnit) : (s.capture u).argHdrLen = s.argHdrLen :=
  by unfold State.capture; split <;> rfl
@[simp] theorem State.capture_argCursor (u : AncUnit) : (s.capture u).argCursor = s.argCursor :=
  by unfold State.capture; split <;> rfl
@[simp] theorem State.capture_resp (u : AncUnit) : (s.capture u).resp = s.resp :=
  by unfold State.capture; split <;> rfl
@[simp] theorem State.capture_status (u : AncUnit) : (s.capture u).status = s.status :=
  by unfold State.capture; split <;> rfl
@[simp] theorem State.capture_curTs (u : AncUnit) : (s.capture u).curTs = s.curTs :=
  by unfold State.capture; split <;> rfl
@[simp] theorem State.capture_wrOff (u : AncUnit) : (s.capture u).wrOff = s.wrOff :=
  by unfold State.capture; split <;> rfl
@[simp] theorem State.capture_dbgValue (u : AncUnit) : (s.capture u).dbgValue = s.dbgValue :=
  by unfold State.capture; split <;> rfl
@[simp] theorem State.capture_unitLen (u : AncUnit) : (s.capture u).unitLen = s.unitLen :=
  by unfold State.capture; split <;> rfl
@[simp] theorem State.capture_lastUnit (u : AncUnit) : (s.capture u).lastUnit = ⟨u.did, u.sdid, u.dc, u.isCdp⟩ :=
  by unfold State.capture; split <;> simp_all
@[simp] theorem State.capture_lastCdpA (u : AncUnit) : (s.capture u).lastCdpA = if u.isCdp then ⟨u.id0, u.id1, u.cdpLen, u.rate⟩ else s.lastCdpA :=
  by unfold State.capture; split <;> simp_all
@[simp] theorem State.capture_lastCdpB (u : AncUnit) : (s.capture u).lastCdpB = if u.isCdp then ⟨u.flags, u.ccWord⟩ else s.lastCdpB :=
  by unfold State.capture; split <;> simp_all
@[simp] theorem State.capture_lastCdpC (u : AncUnit) : (s.capture u).lastCdpC = if u.isCdp then u.composite else s.lastCdpC :=
  by unfold State.capture; split <;> simp_all
@[simp] theorem State.capture_cntFrames (u : AncUnit) : (s.capture u).cntFrames = s.cntFrames :=
  by unfold State.capture; split <;> rfl
@[simp] theorem State.capture_cntStale (u : AncUnit) : (s.capture u).cntStale = s.cntStale :=
  by unfold State.capture; split <;> rfl
@[simp] theorem State.capture_cntExhausted (u : AncUnit) : (s.capture u).cntExhausted = s.cntExhausted :=
  by unfold State.capture; split <;> rfl
@[simp] theorem State.capture_cntOverflow (u : AncUnit) : (s.capture u).cntOverflow = s.cntOverflow :=
  by unfold State.capture; split <;> rfl
@[simp] theorem State.capture_cntAlloc (u : AncUnit) : (s.capture u).cntAlloc = s.cntAlloc :=
  by unfold State.capture; split <;> rfl
@[simp] theorem State.capture_cntBadcmd (u : AncUnit) : (s.capture u).cntBadcmd = s.cntBadcmd :=
  by unfold State.capture; split <;> rfl
@[simp] theorem State.capture_accBuf (u : AncUnit) : (s.capture u).accBuf = s.accBuf :=
  by unfold State.capture; split <;> rfl
@[simp] theorem State.capture_pktRam (u : AncUnit) : (s.capture u).pktRam = s.pktRam :=
  by unfold State.capture; split <;> rfl
@[simp] theorem State.capture_unitBuf (u : AncUnit) : (s.capture u).unitBuf = s.unitBuf :=
  by unfold State.capture; split <;> rfl
@[simp] theorem State.capture_out (u : AncUnit) : (s.capture u).out = s.out :=
  by unfold State.capture; split <;> rfl
@[simp] theorem State.capture_faulted (u : AncUnit) : (s.capture u).faulted = s.faulted :=
  by unfold State.capture; split <;> rfl
@[simp] theorem State.capture_draw (u : AncUnit) : (s.capture u).draw = s.draw :=
  by unfold State.capture; split <;> rfl
@[simp] theorem State.capture_host (u : AncUnit) : (s.capture u).host = s.host :=
  by unfold State.capture; split <;> rfl
@[simp] theorem State.capture_hostData (u : AncUnit) : (s.capture u).hostData = s.hostData :=
  by unfold State.capture; split <;> rfl

/-! ### `State.finalize` -/

@[simp] theorem State.finalize_cfg (k : RecordKind) : (s.finalize k).cfg = s.cfg :=
  by unfold State.finalize; split <;> rfl
@[simp] theorem State.finalize_cmd (k : RecordKind) : (s.finalize k).cmd = s.cmd :=
  by unfold State.finalize; split <;> rfl
@[simp] theorem State.finalize_argTs (k : RecordKind) : (s.finalize k).argTs = s.argTs :=
  by unfold State.finalize; split <;> rfl
@[simp] theorem State.finalize_argLen (k : RecordKind) : (s.finalize k).argLen = s.argLen :=
  by unfold State.finalize; split <;> rfl
@[simp] theorem State.finalize_argHdrLen (k : RecordKind) : (s.finalize k).argHdrLen = s.argHdrLen :=
  by unfold State.finalize; split <;> rfl
@[simp] theorem State.finalize_argCursor (k : RecordKind) : (s.finalize k).argCursor = s.argCursor :=
  by unfold State.finalize; split <;> rfl
@[simp] theorem State.finalize_resp (k : RecordKind) : (s.finalize k).resp = s.resp :=
  by unfold State.finalize; split <;> rfl
@[simp] theorem State.finalize_status (k : RecordKind) : (s.finalize k).status = .idle :=
  by unfold State.finalize; split <;> rfl
@[simp] theorem State.finalize_curTs (k : RecordKind) : (s.finalize k).curTs = s.curTs :=
  by unfold State.finalize; split <;> rfl
@[simp] theorem State.finalize_wrOff (k : RecordKind) : (s.finalize k).wrOff = 0 :=
  by unfold State.finalize; split <;> rfl
@[simp] theorem State.finalize_dbgValue (k : RecordKind) : (s.finalize k).dbgValue = s.dbgValue :=
  by unfold State.finalize; split <;> rfl
@[simp] theorem State.finalize_unitLen (k : RecordKind) : (s.finalize k).unitLen = s.unitLen :=
  by unfold State.finalize; split <;> rfl
@[simp] theorem State.finalize_lastUnit (k : RecordKind) : (s.finalize k).lastUnit = s.lastUnit :=
  by unfold State.finalize; split <;> rfl
@[simp] theorem State.finalize_lastCdpA (k : RecordKind) : (s.finalize k).lastCdpA = s.lastCdpA :=
  by unfold State.finalize; split <;> rfl
@[simp] theorem State.finalize_lastCdpB (k : RecordKind) : (s.finalize k).lastCdpB = s.lastCdpB :=
  by unfold State.finalize; split <;> rfl
@[simp] theorem State.finalize_lastCdpC (k : RecordKind) : (s.finalize k).lastCdpC = s.lastCdpC :=
  by unfold State.finalize; split <;> rfl
@[simp] theorem State.finalize_cntFrames (k : RecordKind) : (s.finalize k).cntFrames = s.cntFrames + (if s.hasBytes then 1 else 0) :=
  by unfold State.finalize; split <;> simp_all
@[simp] theorem State.finalize_cntStale (k : RecordKind) : (s.finalize k).cntStale = s.cntStale :=
  by unfold State.finalize; split <;> rfl
@[simp] theorem State.finalize_cntExhausted (k : RecordKind) : (s.finalize k).cntExhausted = s.cntExhausted :=
  by unfold State.finalize; split <;> rfl
@[simp] theorem State.finalize_cntOverflow (k : RecordKind) : (s.finalize k).cntOverflow = s.cntOverflow :=
  by unfold State.finalize; split <;> rfl
@[simp] theorem State.finalize_cntAlloc (k : RecordKind) : (s.finalize k).cntAlloc = s.cntAlloc :=
  by unfold State.finalize; split <;> rfl
@[simp] theorem State.finalize_cntBadcmd (k : RecordKind) : (s.finalize k).cntBadcmd = s.cntBadcmd :=
  by unfold State.finalize; split <;> rfl
@[simp] theorem State.finalize_accBuf (k : RecordKind) : (s.finalize k).accBuf = s.accBuf :=
  by unfold State.finalize; split <;> rfl
@[simp] theorem State.finalize_pktRam (k : RecordKind) : (s.finalize k).pktRam = s.pktRam :=
  by unfold State.finalize; split <;> rfl
@[simp] theorem State.finalize_unitBuf (k : RecordKind) : (s.finalize k).unitBuf = s.unitBuf :=
  by unfold State.finalize; split <;> rfl
@[simp] theorem State.finalize_out (k : RecordKind) : (s.finalize k).out = s.out ++ (if s.hasBytes then [⟨k, s.curTs, s.frameBytes⟩] else []) :=
  by unfold State.finalize; split <;> simp_all
@[simp] theorem State.finalize_faulted (k : RecordKind) : (s.finalize k).faulted = s.faulted :=
  by unfold State.finalize; split <;> rfl
@[simp] theorem State.finalize_draw (k : RecordKind) : (s.finalize k).draw = s.draw :=
  by unfold State.finalize; split <;> rfl
@[simp] theorem State.finalize_host (k : RecordKind) : (s.finalize k).host = s.host :=
  by unfold State.finalize; split <;> rfl
@[simp] theorem State.finalize_hostData (k : RecordKind) : (s.finalize k).hostData = s.hostData :=
  by unfold State.finalize; split <;> rfl

end Sys2Proof.Machine
end

