-- ==== Sys2Proof/Laws/Reassembler.lean ====
section
/-! SUPPORT. What the phases of `PROCESS_PACKET` (R183) can do: the open, the unit loop and the end of a packet, each
said once, and from them the cases of the whole command. -/

namespace Sys2Proof.Machine

/-! ### The frame's operations -/

theorem State.hasBytes_eq_false {s : State} : s.hasBytes = false ↔ s.wrOff = 0 := by simp [State.hasBytes]

theorem State.hasBytes_eq_true {s : State} : s.hasBytes = true ↔ s.wrOff ≠ 0 := by simp [State.hasBytes]

theorem finalRecord_eq (k : RecordKind) (s : State) :
    finalRecord k s = if s.hasBytes then [⟨k, s.curTs, s.frameBytes⟩] else [] := by
  unfold finalRecord State.hasBytes
  by_cases h : s.wrOff = 0 <;> simp [h]

theorem finalRecord_length (k : RecordKind) (s : State) : (finalRecord k s).length = s.hasBytes.toNat := by
  rw [finalRecord_eq]; split <;> simp_all

/-- `Finalize` in one record (R181, R182). -/
theorem State.finalize_eq (s : State) (k : RecordKind) :
    s.finalize k = { s with
      status := .idle, wrOff := 0, out := s.out ++ finalRecord k s
      cntFrames := s.cntFrames + BitVec.ofNat 32 (finalRecord k s).length } := by
  unfold State.finalize
  rw [finalRecord_eq]
  split <;> simp [State.emit, State.closeFrame]

theorem State.appendBytes_nil (s : State) : s.appendBytes [] = s := by
  simp [State.appendBytes]

theorem State.appendBytes_append (s : State) (bs cs : List Byte) (h : s.wrOff.toNat + bs.length < 2 ^ 16) :
    (s.appendBytes bs).appendBytes cs = s.appendBytes (bs ++ cs) := by
  simp only [State.appendBytes, BitVec.toNat_ofNat, Nat.mod_eq_of_lt h, Memory.writeRange_append,
    List.length_append, Nat.add_assoc]

/-- `CaptureUnit` (R159) is what the statements say of it, register by register. -/
theorem State.capture_eq (s : State) (u : AncUnit) : s.capture u = captured s u := by
  unfold State.capture captured; split <;> simp_all

theorem captureAll_appendBytes (s : State) (us : List AncUnit) (bs : List Byte) :
    captureAll (s.appendBytes bs) us = (captureAll s us).appendBytes bs := by
  induction us generalizing s with
  | nil => rfl
  | cons u us ih => exact ih (captured s u)

theorem captureAll_eq (s : State) (us : List AncUnit) :
    captureAll s us = { s with
      lastUnit := (captureAll s us).lastUnit, lastCdpA := (captureAll s us).lastCdpA
      lastCdpB := (captureAll s us).lastCdpB, lastCdpC := (captureAll s us).lastCdpC } := by
  induction us generalizing s with
  | nil => rfl
  | cons u us ih => exact ih (captured s u)

/-! ### Units -/

/-- Reads of the packet buffer depend on its bytes, the build and the step's draw. -/
theorem AgreeOn.of_eq {s s' : State} (h₁ : s'.pktRam = s.pktRam) (h₂ : s'.cfg = s.cfg) (h₃ : s'.draw = s.draw)
    (sl : Slice) : AgreeOn s s' sl := by
  intro a _ _
  simp only [pktByte, h₁, h₂, h₃]

theorem extractAncUnit_eq_of_eq {s s' : State} (h₁ : s'.pktRam = s.pktRam) (h₂ : s'.cfg = s.cfg)
    (h₃ : s'.draw = s.draw) (sl : Slice) (c : Nat) : extractAncUnit s' sl c = extractAncUnit s sl c :=
  (extractAncUnit_congr (AgreeOn.of_eq h₁ h₂ h₃ sl) (by rw [h₂]) c).symm

theorem unitsFrom_congr {s s' : State} {sl : Slice} (h : ∀ c, extractAncUnit s sl c = extractAncUnit s' sl c)
    (n c : Nat) : unitsFrom s sl n c = unitsFrom s' sl n c := by
  induction n generalizing c with
  | zero => rfl
  | succ n ih => simp only [unitsFrom, h, ih]

/-- As many units as were asked for. -/
theorem unitsFrom_length {s : State} {sl : Slice} {n c : Nat} {us : List AncUnit}
    (h : unitsFrom s sl n c = .ok us) : us.length = n := by
  induction n generalizing c us with
  | zero => simp only [unitsFrom, Except.ok.injEq] at h; simp [← h]
  | succ n ih =>
    simp only [unitsFrom] at h
    split at h
    · cases h
    · split at h
      · cases h
      · rename_i vs hv
        simp only [Except.ok.injEq] at h
        simp [← h, ih hv]

@[simp] theorem captionBytes_nil : captionBytes [] = [] := rfl

@[simp] theorem captionBytes_cons (u : AncUnit) (us : List AncUnit) :
    captionBytes (u :: us) = u.bytes ++ captionBytes us := rfl

/-- The run after units are accepted one after the other. -/
def acceptAll (r : PacketRun) (us : List AncUnit) : PacketRun :=
  { r with
    st := (captureAll r.st us).appendBytes (captionBytes us)
    nunits := r.nunits + us.length
    stored := r.stored + (captionBytes us).length }

theorem acceptAll_nil (r : PacketRun) : acceptAll r [] = r := by
  simp [acceptAll, captureAll, State.appendBytes_nil]

theorem captureAll_wrOff (s : State) (us : List AncUnit) : (captureAll s us).wrOff = s.wrOff := by
  rw [captureAll_eq]

theorem acceptAll_cons (r : PacketRun) (u : AncUnit) (us : List AncUnit)
    (h : r.st.wrOff.toNat + u.bytes.length < 2 ^ 16) :
    acceptAll (packetAccept r u) us = acceptAll r (u :: us) := by
  unfold acceptAll packetAccept
  simp only [captureAll_appendBytes, captionBytes_cons, List.length_cons, List.length_append, PacketRun.mk.injEq]
  refine ⟨?_, trivial, trivial, trivial, trivial, trivial, by omega, trivial, by omega⟩
  rw [State.appendBytes_append _ _ _ (by rw [captureAll_wrOff]; simpa using h), State.capture_eq]
  rfl

theorem overflows_eq_false {s : State} {bs : List Byte} :
    overflows s bs = false ↔ s.wrOff.toNat + bs.length ≤ s.cfg.cap.toNat := by simp [overflows]

theorem overflows_eq_true {s : State} {bs : List Byte} :
    overflows s bs = true ↔ s.cfg.cap.toNat < s.wrOff.toNat + bs.length := by simp [overflows]

/-- Reads of the packet's slice give the same in both states. -/
structure SameReads (s t : State) : Prop where
  pktRam : t.pktRam = s.pktRam
  cfg : t.cfg = s.cfg
  draw : t.draw = s.draw

theorem SameReads.extract {s t : State} (h : SameReads s t) (sl : Slice) (c : Nat) :
    extractAncUnit t sl c = extractAncUnit s sl c := extractAncUnit_eq_of_eq h.pktRam h.cfg h.draw sl c

theorem SameReads.accept {s : State} {r : PacketRun} (h : SameReads s r.st) (u : AncUnit) :
    SameReads s (packetAccept r u).st := by
  constructor
  · simp [packetAccept, h.pktRam]
  · simp [packetAccept, h.cfg]
  · simp [packetAccept, h.draw]

/-- The loop over units that decode and fit is their acceptance, and goes on after them. -/
theorem unitLoop_of_units {s : State} {sl : Slice} {k n c : Nat} {r : PacketRun} {us : List AncUnit}
    (hs : SameReads s r.st) (hu : unitsFrom s sl k c = .ok us)
    (hf : r.st.wrOff.toNat + (captionBytes us).length ≤ s.cfg.cap.toNat) :
    unitLoop sl (k + n) c r = unitLoop sl n (unitsEnd c us) (acceptAll r us) := by
  induction k generalizing c r us with
  | zero =>
    simp only [unitsFrom, Except.ok.injEq] at hu
    subst hu
    simp [unitsEnd, acceptAll_nil]
  | succ k ih =>
    simp only [unitsFrom] at hu
    split at hu
    · cases hu
    · rename_i u hx
      split at hu
      · cases hu
      · rename_i vs hv
        simp only [Except.ok.injEq] at hu
        subst hu
        have hcap := s.cfg.cap.isLt
        simp only [captionBytes_cons, List.length_append] at hf
        have hno : overflows r.st u.bytes = false := by
          rw [overflows_eq_false, hs.cfg]; omega
        have hw : (packetAccept r u).st.wrOff.toNat = r.st.wrOff.toNat + u.bytes.length := by
          simp only [packetAccept, State.appendBytes_wrOff, State.capture_wrOff, BitVec.toNat_ofNat]
          exact Nat.mod_eq_of_lt (by omega)
        rw [show k + 1 + n = (k + n) + 1 by omega, unitLoop, hs.extract, hx]
        simp only [hno, Bool.false_eq_true, if_false]
        rw [ih (hs.accept u) hv (by rw [hw]; omega), acceptAll_cons _ _ _ (by omega)]
        rfl

/-- What the loop can end in: every unit accepted, exhaustion at a unit, or overflow at a unit, the units before
it accepted (R189 to R192). -/
theorem unitLoop_cases {s : State} {sl : Slice} {n c : Nat} {r r' : PacketRun}
    (hs : SameReads s r.st) (h : unitLoop sl n c r = .ok r') :
    ∃ k us, k ≤ n ∧ unitsFrom s sl k c = .ok us
      ∧ (us = [] ∨ r.st.wrOff.toNat + (captionBytes us).length ≤ s.cfg.cap.toNat)
      ∧ ((k = n ∧ r' = acceptAll r us)
        ∨ (k < n ∧ extractAncUnit s sl (unitsEnd c us) = .error .exhausted
            ∧ r' = packetError (acceptAll r us) .exhausted)
        ∨ ∃ u, k < n ∧ extractAncUnit s sl (unitsEnd c us) = .ok u
            ∧ s.cfg.cap.toNat < r.st.wrOff.toNat + (captionBytes us).length + u.bytes.length
            ∧ r' = packetOverflow (acceptAll r us) u) := by
  induction n generalizing c r with
  | zero =>
    simp only [unitLoop, Except.ok.injEq] at h
    exact ⟨0, [], Nat.le_refl 0, rfl, .inl rfl, .inl ⟨rfl, by rw [acceptAll_nil, h]⟩⟩
  | succ n ih =>
    rw [unitLoop, hs.extract] at h
    split at h
    · cases h
    · rename_i hx
      simp only [Except.ok.injEq] at h
      exact ⟨0, [], by omega, rfl, .inl rfl, .inr (.inl ⟨by omega, hx, by rw [acceptAll_nil, h]⟩)⟩
    · rename_i u hx
      split at h
      · rename_i ho
        simp only [Except.ok.injEq] at h
        rw [overflows_eq_true, hs.cfg] at ho
        exact ⟨0, [], by omega, rfl, .inl rfl, .inr (.inr ⟨u, by omega, hx, by simpa using ho,
          by rw [acceptAll_nil, h]⟩)⟩
      · rename_i ho
        have ho : r.st.wrOff.toNat + u.bytes.length ≤ s.cfg.cap.toNat := by
          rw [Bool.not_eq_true, overflows_eq_false, hs.cfg] at ho; exact ho
        have hcap := s.cfg.cap.isLt
        have hw : (packetAccept r u).st.wrOff.toNat = r.st.wrOff.toNat + u.bytes.length := by
          simp only [packetAccept, State.appendBytes_wrOff, State.capture_wrOff, BitVec.toNat_ofNat]
          exact Nat.mod_eq_of_lt (by omega)
        obtain ⟨k, us, hk, hu, hf, hc⟩ := ih (hs.accept u) h
        rw [hw] at hf
        rw [acceptAll_cons _ _ _ (by omega)] at hc
        refine ⟨k + 1, u :: us, by omega, by simp [unitsFrom, hx, hu], .inr ?_, ?_⟩
        · rcases hf with rfl | hf
          · simpa using ho
          · simp only [captionBytes_cons, List.length_append]; omega
        · have he : unitsEnd c (u :: us) = unitsEnd u.next us := rfl
          rw [he]
          simp only [captionBytes_cons, List.length_append]
          rcases hc with ⟨h1, h2⟩ | ⟨h1, h2, h3⟩ | ⟨v, h1, h2, h3, h4⟩
          · exact .inl ⟨by omega, h2⟩
          · exact .inr (.inl ⟨by omega, h2, h3⟩)
          · rw [hw] at h3
            exact .inr (.inr ⟨v, by omega, h2, by omega, h4⟩)

/-! ### The phases -/

theorem discontinuous_eq (s : State) : discontinuous s = decide (Discontinuity s) := by
  unfold discontinuous Discontinuity
  by_cases h₁ : s.status = .accumulating <;> by_cases h₂ : s.argTs = s.curTs <;> simp [h₁, h₂]

theorem not_idle {s : State} : s.status ≠ .idle ↔ s.status = .accumulating := by
  cases s.status <;> simp

/-- The run after phase 1 (R184). -/
theorem packetDiscontinuity_start (s : State) :
    packetDiscontinuity (packetStart s) = { packetStart s with
      st := afterDiscontinuity s, stale := decide (Discontinuity s), nemit := (staleRecords s).length } := by
  unfold packetDiscontinuity afterDiscontinuity staleRecords
  simp only [packetStart, discontinuous_eq, decide_eq_true_eq]
  split
  · rename_i h
    simp [packetFinalize, State.finalize_eq, finalRecord_length, h]
  · rename_i h
    simp [h]

theorem afterDiscontinuity_allocOk (s : State) : (afterDiscontinuity s).allocOk = s.allocOk := by
  unfold afterDiscontinuity; split <;> rfl

theorem afterDiscontinuity_idle {s : State} : (afterDiscontinuity s).status = .idle ↔ OpensFrame s := by
  unfold afterDiscontinuity
  split
  · rename_i h; simp [OpensFrame, h.2]
  · rename_i h
    unfold OpensFrame
    constructor
    · exact .inl
    · rintro (h' | h')
      · exact h'
      · by_contra hn; exact h ⟨not_idle.1 hn, h'⟩

/-- The run after phase 2 where the frame may open (R185). -/
theorem packetOpen_ok {s : State} (h : OpensFrame s → s.allocOk = true) :
    packetOpen (packetDiscontinuity (packetStart s)) = { packetStart s with
      st := afterOpen s, stale := decide (Discontinuity s), nemit := (staleRecords s).length } := by
  rw [packetDiscontinuity_start]
  unfold packetOpen afterOpen
  simp only [afterDiscontinuity_idle, afterDiscontinuity_allocOk]
  split
  · rename_i ho
    rw [if_pos (h ho)]
    simp only [State.openFrame]
    have : (afterDiscontinuity s).argTs = s.argTs := by unfold afterDiscontinuity; split <;> rfl
    rw [this]
  · rename_i ho
    have : afterDiscontinuity s = s := by
      unfold afterDiscontinuity
      rw [if_neg (fun hd => ho (.inr hd.2))]
    rw [this]

/-- The run after phase 2 where the allocation fails (R186). -/
theorem packetOpen_alloc {s : State} (h : OpensFrame s) (ha : s.allocOk = false) :
    packetOpen (packetDiscontinuity (packetStart s)) = packetError { packetStart s with
      st := afterDiscontinuity s, stale := decide (Discontinuity s), nemit := (staleRecords s).length } .alloc := by
  rw [packetDiscontinuity_start]
  unfold packetOpen
  simp only [afterDiscontinuity_idle, afterDiscontinuity_allocOk, h, ha, if_true, Bool.false_eq_true, if_false]

theorem afterOpen_status (s : State) : (afterOpen s).status = .accumulating := by
  unfold afterOpen
  split
  · rfl
  · rename_i h; exact not_idle.1 (fun h' => h (.inl h'))

theorem afterOpen_wrOff (s : State) : (afterOpen s).wrOff.toNat = firstStored s := by
  unfold afterOpen firstStored; split <;> rfl

theorem afterOpen_curTs {s : State} : (afterOpen s).curTs = s.argTs := by
  unfold afterOpen
  split
  · rfl
  · rename_i h; by_contra hn; exact h (.inr (fun h' => hn h'.symm))

/-- What opening a frame can change. -/
theorem afterOpen_eq (s : State) :
    afterOpen s = { s with
      status := .accumulating, curTs := s.argTs, wrOff := (afterOpen s).wrOff
      out := s.out ++ staleRecords s
      cntFrames := s.cntFrames + BitVec.ofNat 32 (staleRecords s).length
      cntStale := s.cntStale + (if Discontinuity s then 1 else 0) } := by
  by_cases hd : Discontinuity s
  · have ho : OpensFrame s := .inr hd.2
    simp only [afterOpen, if_pos ho, afterDiscontinuity, if_pos hd]
  · have hr : staleRecords s = [] := by simp [staleRecords, hd]
    by_cases ho : OpensFrame s
    · simp [afterOpen, if_pos ho, afterDiscontinuity, if_neg hd, hr]
    · have h1 : s.status = .accumulating := not_idle.1 (fun h => ho (.inl h))
      have h2 : s.argTs = s.curTs := by by_contra h; exact ho (.inr h)
      have h3 : afterOpen s = s := by rw [afterOpen, if_neg ho]
      have key : ∀ f ts, f = s.status → ts = s.curTs → s = { s with status := f, curTs := ts } := by
        rintro _ _ rfl rfl; rfl
      rw [h3, hr, if_neg hd]
      simpa using key _ _ h1.symm h2

theorem afterOpen_sameReads (s : State) : SameReads s (afterOpen s) := by
  rw [afterOpen_eq]; exact ⟨rfl, rfl, rfl⟩

/-- The accepted units' bytes are appended as the machine appends them (R190). -/
theorem afterUnits_eq_appendBytes (s : State) (us : List AncUnit) :
    afterUnits s us = (captureAll (afterOpen s) us).appendBytes (captionBytes us) := rfl

/-- What a packet's opened frame and accepted units leave, in one record (R185, R189, R190). -/
theorem afterUnits_eq (s : State) (us : List AncUnit) : afterUnits s us = { s with
    status := .accumulating, curTs := s.argTs
    wrOff := BitVec.ofNat 16 (firstStored s + (captionBytes us).length)
    accBuf := s.accBuf.writeRange (firstStored s) (captionBytes us)
    out := s.out ++ staleRecords s
    cntFrames := s.cntFrames + BitVec.ofNat 32 (staleRecords s).length
    cntStale := s.cntStale + (if Discontinuity s then 1 else 0)
    lastUnit := (captureAll (afterOpen s) us).lastUnit, lastCdpA := (captureAll (afterOpen s) us).lastCdpA
    lastCdpB := (captureAll (afterOpen s) us).lastCdpB, lastCdpC := (captureAll (afterOpen s) us).lastCdpC } := by
  unfold afterUnits
  rw [captureAll_eq]
  simp only [afterOpen_wrOff]
  generalize captureAll (afterOpen s) us = c
  have h : (afterOpen s).accBuf = s.accBuf := by rw [afterOpen_eq]
  simp only [h]
  rw [afterOpen_eq]

theorem finalRecord_length_le (k : RecordKind) (s : State) : (finalRecord k s).length ≤ 1 := by
  rw [finalRecord_length]; cases s.hasBytes <;> simp

theorem staleRecords_length_le (s : State) : (staleRecords s).length ≤ 1 := by
  unfold staleRecords; split
  · exact finalRecord_length_le _ _
  · simp

/-- The end of a packet whose frame is open (R193 to R195). -/
theorem packetEnd_open {m : Bool} {s : State} {r : PacketRun} (h : r.st.status = .accumulating)
    (hm : r.mark = false) (hs : r.stale = decide (Discontinuity s)) (hn : r.nemit = (staleRecords s).length) :
    packetEnd m r = { afterMarker m r.st with
      resp := packetResponse m s r.st (match r.err with | some e => .error e | none => markerResult m r.st)
        r.nunits r.count } := by
  obtain ⟨st, err, stale, mark, emitted, nemit, nunits, count, stored⟩ := r
  simp only at h hm hs hn
  subst hm hs hn
  cases m
  · cases err <;>
      simp [packetEnd, packetMarker, packetResp, packetResult, packetResponse, afterMarker, markerResult,
        markerCount, State.respond]
  · cases err <;>
      simp [packetEnd, packetMarker, packetResp, packetResult, packetResponse, afterMarker, markerResult,
        markerCount, State.respond, h, packetFinalize, State.finalize_eq, finalRecord_length, State.hasBytes]

/-- The end of a packet that is Idle already: the marker has no effect (R193). -/
theorem packetEnd_idle {m : Bool} {r : PacketRun} {e : ErrorCode} (h : r.st.status = .idle) (hm : r.mark = false)
    (he : r.err = some e) :
    packetEnd m r = { r.st with
      resp :=
        { result := .error e, stale := r.stale, mark := false, nemit := BitVec.ofNat 2 r.nemit
          nunits := BitVec.ofNat 8 r.nunits, ancCount := r.count } } := by
  simp [packetEnd, packetMarker, packetResp, packetResult, State.respond, h, he, hm]

theorem lenTooLong_eq (s : State) : lenTooLong s = decide (¬ LenLegal s) := by
  simp [lenTooLong, LenLegal, BitVec.lt_def]

theorem packetGuard_eq (s : State) : (lenTooLong s || hdrOutOfRange s) = decide (¬ PacketLegal s) := by
  rw [lenTooLong_eq, Bool.eq_iff_iff]
  simp only [hdrOutOfRange, BitVec.lt_def, Bool.or_eq_true, decide_eq_true_eq]
  unfold PacketLegal LenLegal
  omega

/-- How a command fails in one record. -/
theorem State.failCommand_badCmd (s : State) : s.failCommand .badCmd = { s with
    resp := ⟨.error .badCmd, false, false, 0, 0, 0⟩, cntBadcmd := s.cntBadcmd + 1 } := rfl

theorem State.failCommand_exhausted (s : State) : s.failCommand .exhausted = { s with
    resp := ⟨.error .exhausted, false, false, 0, 0, 0⟩, cntExhausted := s.cntExhausted + 1 } := rfl

/-- The end of a packet after an overflow (R191), in one record. -/
theorem packetEnd_overflow (m : Bool) (r : PacketRun) (u : AncUnit) (hm : r.mark = false) :
    packetEnd m (packetOverflow r u) =
      (let t := captured r.st u
       { t with
         status := .idle, wrOff := 0, out := t.out ++ finalRecord .overflow t
         cntFrames := t.cntFrames + BitVec.ofNat 32 (finalRecord .overflow t).length
         cntOverflow := r.st.cntOverflow + 1
         resp :=
           { result := .error .overflow, stale := r.stale, mark := false
             nemit := BitVec.ofNat 2 (r.nemit + (finalRecord .overflow t).length)
             nunits := BitVec.ofNat 8 r.nunits, ancCount := r.count } }) := by
  have hrec : finalRecord .overflow ((captured r.st u).countError .overflow)
      = finalRecord .overflow (captured r.st u) := rfl
  rw [packetEnd_idle (r := packetOverflow r u) (e := .overflow) (by simp [packetOverflow, packetFinalize]) hm rfl]
  simp only [packetOverflow, packetFinalize, packetError, State.capture_eq, State.finalize_eq, hrec,
    ← finalRecord_length .overflow]
  rfl

/-- A packet whose arguments are legal is its body and its end (R183). -/
theorem execProcessPacket_of_legal {m : Bool} {s : State} (h : PacketLegal s) :
    execProcessPacket m s = match packetBody s with
      | .ok r => .next (packetEnd m r)
      | .error f => .fault f := by
  unfold execProcessPacket
  rw [packetGuard_eq]
  cases packetBody s <;> exact if_neg (by rw [decide_eq_true_eq]; exact fun hn => hn h)

/-- The body of a packet whose frame is open and whose ANC count is read is its unit loop (R187, R189). -/
theorem packetBody_of_count {s : State} {count : Byte} (ha : OpensFrame s → s.allocOk = true)
    (hh : s.argHdrLen.toNat ≤ s.argLen.toNat) (hc : pktByte s 4 = .ok count) :
    packetBody s = unitLoop (packetSlice s) count.toNat 0 { packetStart s with
      st := afterOpen s, stale := decide (Discontinuity s), nemit := (staleRecords s).length, count := count } := by
  have hlen : s.argHdrLen ≤ s.argLen := BitVec.le_def.2 hh
  have hreads := afterOpen_sameReads s
  have hb : pktByte (afterOpen s) 4 = pktByte s 4 := by
    simp only [pktByte, hreads.pktRam, hreads.cfg, hreads.draw]
  rw [packetBody, packetOpen_ok ha]
  simp only [packetUnits, hlen, packetStart, and_self, if_true, hb, hc]

/-- Accepting units changes nothing that a read of the packet depends on. -/
theorem SameReads.acceptAll {s : State} {r : PacketRun} (h : SameReads s r.st) (us : List AncUnit) :
    SameReads s (acceptAll r us).st := by
  simp only [Sys2Proof.Machine.acceptAll]; rw [captureAll_eq]; exact ⟨h.1, h.2, h.3⟩

/-- The cases of `PROCESS_PACKET` (R183), by what its arguments, its frame and its payload are: the state it leaves is
that of the error found first, or of its units (R237). -/
theorem execProcessPacket_cases {m : Bool} {s t : State} (h : execProcessPacket m s = .next t) :
    (¬ PacketLegal s ∧ t = s.failCommand .badCmd)
    ∨ (PacketLegal s ∧ OpensFrame s ∧ s.allocOk = false ∧ t = { afterDiscontinuity s with
        cntAlloc := s.cntAlloc + 1
        resp := ⟨.error .alloc, decide (Discontinuity s), false, BitVec.ofNat 2 (staleRecords s).length, 0, 0⟩ })
    ∨ (PacketLegal s ∧ (OpensFrame s → s.allocOk = true) ∧ s.argLen.toNat < s.argHdrLen.toNat
        ∧ ∃ v, v = { afterOpen s with cntExhausted := s.cntExhausted + 1 }
        ∧ t = { afterMarker m v with resp := packetResponse m s v (.error .exhausted) 0 0 })
    ∨ (PacketLegal s ∧ (OpensFrame s → s.allocOk = true) ∧ s.argHdrLen.toNat ≤ s.argLen.toNat
        ∧ ∃ count k us, pktByte s 4 = .ok count ∧ k ≤ count.toNat
        ∧ unitsFrom s (packetSlice s) k 0 = .ok us
        ∧ (us = [] ∨ firstStored s + (captionBytes us).length ≤ s.cfg.cap.toNat)
        ∧ ((k = count.toNat ∧ t = { afterMarker m (afterUnits s us) with
              resp := packetResponse m s (afterUnits s us) (markerResult m (afterUnits s us)) k count })
          ∨ (k < count.toNat ∧ extractAncUnit s (packetSlice s) (unitsEnd 0 us) = .error .exhausted
              ∧ ∃ v, v = { afterUnits s us with cntExhausted := s.cntExhausted + 1 }
              ∧ t = { afterMarker m v with resp := packetResponse m s v (.error .exhausted) k count })
          ∨ ∃ u v, k < count.toNat ∧ extractAncUnit s (packetSlice s) (unitsEnd 0 us) = .ok u
              ∧ s.cfg.cap.toNat < firstStored s + (captionBytes us).length + u.bytes.length
              ∧ v = captured (afterUnits s us) u
              ∧ t = { v with
                status := .idle, wrOff := 0, out := v.out ++ finalRecord .overflow v
                cntFrames := v.cntFrames + BitVec.ofNat 32 (finalRecord .overflow v).length
                cntOverflow := s.cntOverflow + 1
                resp := ⟨.error .overflow, decide (Discontinuity s), false,
                  BitVec.ofNat 2 ((staleRecords s).length + (finalRecord .overflow v).length),
                  BitVec.ofNat 8 k, count⟩ })) := by
  unfold execProcessPacket at h
  rw [packetGuard_eq] at h
  by_cases hg : PacketLegal s
  swap
  · rw [if_pos (decide_eq_true hg)] at h
    simp only [Host.Outcome.next.injEq] at h
    exact .inl ⟨hg, h.symm⟩
  rw [if_neg (by rw [decide_eq_true_eq]; exact fun h' => h' hg)] at h
  have hlen : s.argHdrLen ≤ s.argLen ↔ s.argHdrLen.toNat ≤ s.argLen.toNat := BitVec.le_def
  by_cases ha : OpensFrame s ∧ s.allocOk = false
  · rw [packetBody, packetOpen_alloc ha.1 ha.2] at h
    simp only [packetUnits, packetError, reduceCtorEq, and_false, if_false, Host.Outcome.next.injEq] at h
    rw [packetEnd_idle (e := .alloc) (by simpa using afterDiscontinuity_idle.2 ha.1) rfl rfl] at h
    refine .inr (.inl ⟨hg, ha.1, ha.2, ?_⟩)
    rw [← h]
    have : (afterDiscontinuity s).cntAlloc = s.cntAlloc := by unfold afterDiscontinuity; split <;> rfl
    simp [State.countError, packetStart, this]
  have ha' : OpensFrame s → s.allocOk = true := fun ho => by
    by_contra hn; exact ha ⟨ho, by simpa using hn⟩
  rw [packetBody, packetOpen_ok ha'] at h
  have hreads := afterOpen_sameReads s
  by_cases hl : s.argHdrLen.toNat ≤ s.argLen.toNat
  swap
  · have hl' : ¬ s.argHdrLen ≤ s.argLen := fun h' => hl (hlen.1 h')
    simp only [packetUnits, hl', false_and, if_false, packetStart, if_true, Host.Outcome.next.injEq] at h
    rw [packetEnd_open (s := s) (by simpa [packetError] using afterOpen_status s) rfl rfl rfl] at h
    refine .inr (.inr (.inl ⟨hg, ha', by omega, _, rfl, ?_⟩))
    rw [← h]
    have : (afterOpen s).cntExhausted = s.cntExhausted := by rw [afterOpen_eq]
    simp [packetError, State.countError, this]
  refine .inr (.inr (.inr ⟨hg, ha', hl, ?_⟩))
  simp only [packetUnits, hlen.2 hl, packetStart, and_self, if_true] at h
  have hb : pktByte (afterOpen s) 4 = pktByte s 4 := by
    simp only [pktByte, hreads.pktRam, hreads.cfg, hreads.draw]
  rw [hb] at h
  cases hcount : pktByte s 4 with
  | error f => rw [hcount] at h; cases h
  | ok count =>
    rw [hcount] at h
    simp only at h
    split at h
    swap
    · cases h
    rename_i r hr
    simp only [Host.Outcome.next.injEq] at h
    obtain ⟨k, us, hk, hu, hf, hc⟩ := unitLoop_cases hreads hr
    simp only [afterOpen_wrOff] at hf hc
    refine ⟨count, k, us, rfl, hk, hu, hf, ?_⟩
    have hlk := unitsFrom_length hu
    have hst : ((captureAll (afterOpen s) us).appendBytes (captionBytes us)).status = .accumulating := by
      rw [captureAll_eq]; simpa using afterOpen_status s
    have hex : (afterUnits s us).cntExhausted = s.cntExhausted := by
      unfold afterUnits; rw [captureAll_eq, afterOpen_eq]
    have hov : (afterUnits s us).cntOverflow = s.cntOverflow := by
      unfold afterUnits; rw [captureAll_eq, afterOpen_eq]
    rcases hc with ⟨rfl, rfl⟩ | ⟨h1, h2, rfl⟩ | ⟨u, h1, h2, h3, rfl⟩
    · refine .inl ⟨rfl, ?_⟩
      rw [← h, packetEnd_open (s := s) (by simpa [acceptAll] using hst) rfl rfl rfl]
      simp [acceptAll, hlk, afterUnits_eq_appendBytes]
    · refine .inr (.inl ⟨h1, h2, _, rfl, ?_⟩)
      rw [← h, packetEnd_open (s := s) (by simpa [acceptAll, packetError] using hst) rfl rfl rfl]
      simp only [acceptAll, packetError, hlk, State.countError, Nat.zero_add]
      rw [← hex]; rfl
    · refine .inr (.inr ⟨u, _, h1, h2, h3, rfl, ?_⟩)
      rw [← h, packetEnd_overflow _ _ _ rfl]
      simp only [acceptAll, hlk, Nat.zero_add]
      rw [← hov]; rfl

end Sys2Proof.Machine
end

