-- ==== Sys2Proof/Laws/Debug.lean ====
section
/-! SUPPORT. What the three debug commands, the two unit kinds, `FORCE_FINALIZE` and `SOFT_RESET` can do, each said
once. -/

namespace Sys2Proof.Machine

theorem ite_lenTooLong {α : Type} (s : State) (x y : α) :
    (if lenTooLong s = true then x else y) = if LenLegal s then y else x := by
  rw [lenTooLong_eq]; by_cases h : LenLegal s <;> simp [h]

/-! ### The debug commands -/

/-- What a debug command that answers a next state did. -/
theorem debugCommand_cases {α : Type} {bad : Bool} {r : Except ReadStop α} {done : α → State} {s t : State}
    (h : debugCommand bad r done s = .next t) :
    (bad = true ∧ t = s.failCommand .badCmd)
    ∨ (bad = false ∧ r = .error .exhausted ∧ t = s.failCommand .exhausted)
    ∨ (bad = false ∧ ∃ v, r = .ok v ∧ t = done v) := by
  unfold debugCommand at h
  split at h
  · rename_i hb; cases h; exact .inl ⟨hb, rfl⟩
  · rename_i hb
    have hb : bad = false := by simpa using hb
    split at h
    · cases h; exact .inr (.inr ⟨hb, _, rfl, rfl⟩)
    · cases h; exact .inr (.inl ⟨hb, rfl, rfl⟩)
    · cases h

/-- A debug command faults only where its read does. -/
theorem debugCommand_fault {α : Type} {bad : Bool} {r : Except ReadStop α} {done : α → State} {s : State} {f : Fault}
    (h : debugCommand bad r done s = .fault f) : bad = false ∧ r = .error (.fault f) := by
  unfold debugCommand at h
  split at h
  · cases h
  · rename_i hb
    split at h <;> cases h
    exact ⟨by simpa using hb, rfl⟩

theorem debugCommand_ne_refused {α : Type} {bad : Bool} {r : Except ReadStop α} {done : α → State} {s : State}
    {q : Refusal} : debugCommand bad r done s ≠ .refused q := by
  unfold debugCommand
  split
  · simp
  · split <;> simp

@[simp] theorem debugCommand_bad {α : Type} (r : Except ReadStop α) (done : α → State) (s : State) :
    debugCommand true r done s = .next (s.failCommand .badCmd) := rfl

@[simp] theorem debugCommand_ok {α : Type} (v : α) (done : α → State) (s : State) :
    debugCommand false (.ok v) done s = .next (done v) := rfl

@[simp] theorem debugCommand_exhausted {α : Type} (done : α → State) (s : State) :
    debugCommand false (.error .exhausted) done s = .next (s.failCommand .exhausted) := rfl

theorem illegalWidth_eq (n : BitVec 6) : illegalWidth n = decide (n = 0 ∨ 32 < n.toNat) := by
  simp [illegalWidth]

theorem lenTooLong_eq_false {s : State} : lenTooLong s = false ↔ LenLegal s := by
  rw [lenTooLong_eq]; simp

theorem lenTooLong_eq_true {s : State} : lenTooLong s = true ↔ ¬ LenLegal s := by
  rw [lenTooLong_eq]; simp

/-! ### Units on their own -/

theorem finishUnit_eq (s : State) (u : AncUnit) : finishUnit s u = afterExtract s u := by
  unfold finishUnit; rw [State.capture_eq]; rfl

/-- The three unit-level instructions are one command over the unit each reads. -/
theorem exec_unit {i : Instr} (s : State)
    (hi : i = .extractUnit ∨ (∃ a b, i = .cdpUnit a b) ∨ (∃ d e, i = .otherUnit d e)) :
    exec i s = debugCommand (lenTooLong s) (unitRead i s) (afterExtract s) s := by
  have hf : finishUnit s = afterExtract s := funext (finishUnit_eq s)
  rcases hi with rfl | ⟨a, b, rfl⟩ | ⟨d, e, rfl⟩
  · simp only [exec, execExtractUnit, hf]; rfl
  · simp only [exec, execCdpUnit, hf]; rfl
  · simp only [exec, execOtherUnit, hf]; rfl

/-- A unit-level instruction whose two identifier words the slice holds is `EXTRACT_UNIT`'s own unit (R88, R152). -/
theorem extractAncUnit_of_ids {s : State} {sl : Slice} {cur : Nat} {d e : DecodedWord}
    (hd : decodeAncWord s sl cur = .ok d) (he : decodeAncWord s sl d.next = .ok e) :
    extractAncUnit s sl cur = if isCdpId (d.raw ++ e.raw) then cdpUnitBody s sl e.next
      else otherUnitBody s sl d.raw e.raw e.next := by
  simp only [extractAncUnit, hd, ok_bind, he]

/-- Every unit read gives at most 93 bytes (R92, R155). -/
theorem unitRead_bytes_le {i : Instr} {s : State} {u : AncUnit} (h : unitRead i s = .ok u) :
    u.bytes.length ≤ 93 := by
  have hc : ∀ {c}, cdpUnitBody s (debugSlice s) c = .ok u → u.bytes.length ≤ 93 := by
    intro c h
    obtain ⟨-, -, -, -, hb, -⟩ := cdpUnitBody_eq_ok h
    have : captionCount u.ccWord < 32 := (u.ccWord.extractLsb' 0 5).isLt
    omega
  unfold unitRead at h
  split at h
  · exact hc h
  · obtain ⟨dc, hu, -⟩ := otherUnitBody_eq_ok h
    rw [hu]; simp [otherUnitRecord]
  · exact extractAncUnit_bytes_le h

/-- A unit read faults only on a byte of its slice. -/
theorem unitRead_faultsIn {i : Instr} {s : State} {f : Fault} (h : unitRead i s = .error (.fault f)) :
    FaultsIn s (debugSlice s) f := by
  unfold unitRead at h
  split at h
  · exact cdpUnitBody_faultsIn h
  · exact otherUnitBody_faultsIn h
  · exact extractAncUnit_faultsIn h

/-! ### The frame's own commands -/

/-- `FORCE_FINALIZE` (R201) in one record. -/
theorem execForceFinalize_eq (s : State) : execForceFinalize s = .next
    (if s.status = .idle then { s with resp := ⟨.ok, false, false, 0, 0, 0⟩ }
     else { s with
       status := .idle, wrOff := 0, out := s.out ++ finalRecord .forced s
       cntFrames := s.cntFrames + BitVec.ofNat 32 (finalRecord .forced s).length
       resp := if s.hasBytes then ⟨.complete, false, false, 1, 0, 0⟩ else ⟨.finalEmpty, false, false, 0, 0, 0⟩ }) := by
  unfold execForceFinalize
  by_cases h : s.status = .idle
  · rw [if_pos h, h]; simp only [Resp.only, State.respond, h]
  · have h' : s.status = .accumulating := not_idle.1 h
    rw [if_neg h, h']
    simp only [State.finalize_eq, State.respond, Resp.only]

/-- Every frame of 16-bit length has its bytes below 2^16. -/
theorem State.frameBytes_length (s : State) : s.frameBytes.length = s.wrOff.toNat := by
  simp [State.frameBytes, accBytes]

end Sys2Proof.Machine
end

