-- ==== Sys2Proof/Laws/Decode.lean ====
section
/-! SUPPORT. The fields of an identifier pair (R88), as a pair of words. -/

namespace Sys2Proof

@[simp] theorem didOfId_append (d e : AncWord10) : didOfId (d ++ e) = d := by
  ext i hi
  simp only [didOfId, BitVec.getElem_extractLsb', BitVec.getLsbD_append]
  simp [show ¬ 10 + i < 10 by omega, ← BitVec.getLsbD_eq_getElem]

@[simp] theorem sdidOfId_append (d e : AncWord10) : sdidOfId (d ++ e) = e := by
  ext i hi
  simp only [sdidOfId, BitVec.getElem_extractLsb', BitVec.getLsbD_append]
  simp [hi, ← BitVec.getLsbD_eq_getElem]

@[simp] theorem append_ofId (k : UnitId) : (didOfId k ++ sdidOfId k : UnitId) = k := by
  ext i hi
  simp only [didOfId, sdidOfId, BitVec.getElem_append, BitVec.getElem_extractLsb']
  split
  · simp [← BitVec.getLsbD_eq_getElem]
  · rw [← BitVec.getLsbD_eq_getElem]; congr 1; omega

/-- A mask of the low bits of a word is its low bits. -/
theorem and_low_eq_iff (d : AncWord10) (b : Byte) :
    d &&& 0xFF#10 = b.setWidth 10 ↔ d.extractLsb' 0 8 = b := by
  have h : (d &&& 0xFF#10).toNat = (d.extractLsb' 0 8).toNat := by
    rw [BitVec.toNat_and, BitVec.extractLsb'_toNat]
    exact Nat.and_two_pow_sub_one_eq_mod d.toNat 8
  rw [← BitVec.toNat_inj, h, BitVec.toNat_setWidth, Nat.mod_eq_of_lt (by omega), BitVec.toNat_inj]

/-- The two halves of two pairs agree where the pairs do. -/
theorem append_inj {d d' e e' : AncWord10} : (d ++ e : UnitId) = d' ++ e' ↔ d = d' ∧ e = e' := by
  constructor
  · intro h
    exact ⟨by simpa using congrArg didOfId h, by simpa using congrArg sdidOfId h⟩
  · rintro ⟨rfl, rfl⟩; rfl

/-- The mask and match of R88 compare the two low bytes (R152). -/
@[simp] theorem isCdpId_append (d e : AncWord10) : isCdpId (d ++ e) = isCdpPair d e := by
  have h1 : (0x3FCFF#20 : UnitId) = 0xFF#10 ++ 0xFF#10 := by decide
  have h2 : (0x18401#20 : UnitId) = (0x61#8).setWidth 10 ++ (0x01#8).setWidth 10 := by decide
  rw [Bool.eq_iff_iff]
  simp only [isCdpId, isCdpPair, beq_iff_eq, Bool.and_eq_true, h1, h2]
  rw [BitVec.and_append, append_inj, and_low_eq_iff, and_low_eq_iff]

end Sys2Proof
end

