-- ==== Sys2Proof/Laws/PerInstr.lean ====
section
/-! SUPPORT. A statement about every instruction as syntax: its encoding matches the row of the opcode table it
stands for, under that row's mask, and a command's encoding holds nothing in a reserved bit. -/

namespace Sys2Proof.Laws

/-- The encoding's bits under the row's mask are the row's match. -/
def TableRow.Matches (e : Encoded) (mask mtch : Nat) : Prop :=
  match e with
  | .command w => w &&& BitVec.ofNat 32 mask = BitVec.ofNat 32 mtch
  | .unitId k => k &&& BitVec.ofNat 20 mask = BitVec.ofNat 20 mtch

/-- The encoding of the instruction matches its row of spec/opcode_table.json (R81, R88); an `OTHER_UNIT`, whose row
has an empty mask, must besides not match the row of `CDP_UNIT`, which takes priority. -/
def TableRow.Statement (i : Instr) : Prop :=
  match i with
  | .processPacket _ => TableRow.Matches (encode i) 0xFFFFFFEF 0x00000001
  | .forceFinalize => TableRow.Matches (encode i) 0xFFFFFFFF 0x00000002
  | .softReset => TableRow.Matches (encode i) 0xFFFFFFFF 0x00000003
  | .readBits _ => TableRow.Matches (encode i) 0xFFFFC0FF 0x00000004
  | .decodeWord => TableRow.Matches (encode i) 0xFFFFFFFF 0x00000005
  | .extractUnit => TableRow.Matches (encode i) 0xFFFFFFFF 0x00000006
  | .cdpUnit _ _ => TableRow.Matches (encode i) 0x3FCFF 0x18401
  | .otherUnit _ _ => TableRow.Matches (encode i) 0x00000 0x00000
      ∧ (i.wellFormed = true → ¬ TableRow.Matches (encode i) 0x3FCFF 0x18401)

theorem TableRow.processPacket (m : Bool) : TableRow.Statement (.processPacket m) := by
  simp only [TableRow.Statement, TableRow.Matches, encode]
  revert m; decide +kernel

theorem TableRow.forceFinalize : TableRow.Statement .forceFinalize := rfl

theorem TableRow.softReset : TableRow.Statement .softReset := rfl

theorem TableRow.readBits (n : BitVec 6) : TableRow.Statement (.readBits n) := by
  simp only [TableRow.Statement, TableRow.Matches, encode]
  revert n; decide +kernel

theorem TableRow.decodeWord : TableRow.Statement .decodeWord := rfl

theorem TableRow.extractUnit : TableRow.Statement .extractUnit := rfl

theorem TableRow.cdpUnit (didHi sdidHi : BitVec 2) : TableRow.Statement (.cdpUnit didHi sdidHi) := by
  simp only [TableRow.Statement, TableRow.Matches, encode]
  revert didHi sdidHi; decide +kernel

theorem TableRow.otherUnit (didw sdidw : AncWord10) : TableRow.Statement (.otherUnit didw sdidw) := by
  refine ⟨BitVec.and_zero, fun hw hm => ?_⟩
  have h : isCdpId (didw ++ sdidw) = true := by
    simp only [TableRow.Matches, encode] at hm
    simpa [isCdpId] using hm
  rw [isCdpId_append] at h
  simp [Instr.wellFormed, h] at hw

end Sys2Proof.Laws
end

