-- ==== Sys2Proof/Laws/Step.lean ====
section
/-! SUPPORT. What a step can do, said once: no access, an access that issues no command, a legal command, an illegal
command word. -/

namespace Sys2Proof.Machine

/-- Which access issues a command (R25). -/
theorem issuedCommand_eq_some {x : HostAction} {w : Word} : issuedCommand x = some w ↔ x = .writeCsr 0 32 w := by
  constructor
  · intro h
    unfold issuedCommand at h
    split at h
    · simp only [Option.some.injEq] at h; rw [h]
    · cases h
  · rintro rfl; rfl

/-- The write to `CMD` stores the word (R25). -/
theorem hostAccess_writeCmd (w : Word) (s : State) :
    hostAccess (.writeCsr 0 32 w) s = .next { s with cmd := w } := rfl

/-- The cases of a step that answers a next state. -/
theorem step_cases {s t : State} (h : step s = .next t) :
    s.faulted = false ∧
    ((s.host = [] ∧ t = s)
    ∨ (∃ x rest, s.host = x :: rest ∧ issuedCommand x = none ∧ hostAccess x (s.advance rest) = .next t)
    ∨ ∃ w rest, s.host = .writeCsr 0 32 w :: rest
        ∧ ((∃ i, decodeCommand w = .ok i ∧ exec i { s.advance rest with cmd := w } = .next t)
          ∨ ((∃ e, decodeCommand w = .error e) ∧ t = illegalCommand { s.advance rest with cmd := w }))) := by
  unfold step at h
  split at h
  · cases h
  · rename_i hf
    refine ⟨by simpa using hf, ?_⟩
    cases hh : s.host with
    | nil => rw [hh] at h; simp only [Host.Outcome.next.injEq] at h; exact .inl ⟨rfl, h.symm⟩
    | cons x rest =>
      rw [hh] at h
      simp only at h
      cases hi : issuedCommand x with
      | none =>
        rw [hi] at h
        refine .inr (.inl ⟨x, rest, rfl, hi, ?_⟩)
        revert h
        cases hostAccess x (s.advance rest) <;> simp
      | some w =>
        obtain rfl := issuedCommand_eq_some.1 hi
        rw [hi, hostAccess_writeCmd] at h
        simp only at h
        refine .inr (.inr ⟨w, rest, rfl, ?_⟩)
        cases hd : decodeCommand w with
        | ok i => rw [hd] at h; exact .inl ⟨i, rfl, h⟩
        | error e => rw [hd] at h; simp only [Host.Outcome.next.injEq] at h; exact .inr ⟨⟨e, rfl⟩, h.symm⟩

/-- A step of an access that issues no command. -/
theorem step_access {s : State} {x : HostAction} {rest : List HostAction} (hf : s.faulted = false)
    (hh : s.host = x :: rest) (hi : issuedCommand x = none) :
    step s = hostAccess x (s.advance rest) := by
  have h : s.faulted ≠ true := by simp [hf]
  unfold step
  rw [if_neg h, hh]
  simp only [hi]
  cases hostAccess x (s.advance rest) <;> rfl

end Sys2Proof.Machine
end

