-- ==== Sys2Proof/Laws/Wire.lean ====
section
/-! SUPPORT. From bits laid out in a slice to what the readers give: a field, a word, a run of caption words. -/

namespace Sys2Proof.Machine

@[simp] theorem length_msbBits {w : Nat} (v : BitVec w) : (msbBits v).length = w := by simp [msbBits]

theorem getElem_msbBits {w : Nat} (v : BitVec w) (j : Nat) (h : j < (msbBits v).length) :
    (msbBits v)[j] = v.getMsbD j := by
  simp [msbBits]

/-- A field's bits spell its value (R121). -/
theorem bitsOnto_msbBits {w : Nat} (v : BitVec w) : bitsOnto 0 (msbBits v) = v.toNat := by
  apply Nat.eq_of_testBit_eq
  intro i
  have hl : (msbBits v).length = w := length_msbBits v
  by_cases hi : i < w
  · have := testBit_bitsOnto (msbBits v) (w - 1 - i) (by omega)
    rw [getElem_msbBits] at this
    simp only [hl, show w - 1 - (w - 1 - i) = i by omega] at this
    rw [this, BitVec.getMsbD]
    simp [show w - 1 - i < w by omega, show w - 1 - (w - 1 - i) = i by omega, BitVec.getLsbD]
  · have h := bitsOnto_lt (msbBits v)
    rw [hl] at h
    have hp : 2 ^ w ≤ 2 ^ i := Nat.pow_le_pow_right (by omega) (by omega)
    rw [Nat.testBit_lt_two_pow (lt_of_lt_of_le h hp), Nat.testBit_lt_two_pow (lt_of_lt_of_le v.isLt hp)]

/-- Two fields side by side are one field (R65). -/
theorem msbBits_append {m n : Nat} (x : BitVec m) (y : BitVec n) : msbBits (x ++ y) = msbBits x ++ msbBits y := by
  apply List.ext_getElem (by simp)
  intro j hj hj'
  simp only [length_msbBits] at hj
  rw [getElem_msbBits, BitVec.getMsbD_append]
  by_cases h : j < m
  · rw [List.getElem_append_left (by rw [length_msbBits]; exact h), getElem_msbBits]; simp [h]
  · rw [List.getElem_append_right (by rw [length_msbBits]; omega), getElem_msbBits]; simp [h]

/-- The bits of two runs lie one after the other. -/
theorem BitsAt.append {s : State} {sl : Slice} {c : Nat} {a b : List Bool} (h : BitsAt s sl c (a ++ b)) :
    BitsAt s sl c a ∧ BitsAt s sl (c + a.length) b := by
  obtain ⟨h1, h2⟩ := h
  simp only [List.length_append] at h1
  refine ⟨⟨by omega, fun j hj => ?_⟩, ⟨by omega, fun j hj => ?_⟩⟩
  · rw [h2 j (by simp; omega), List.getElem_append_left hj]
  · rw [Nat.add_assoc, h2 (a.length + j) (by simp; omega), List.getElem_append_right (by omega)]; simp

/-- The read of a field laid out in the slice (R121). -/
theorem readBits_of_field {s : State} {sl : Slice} {c w : Nat} (v : BitVec w) (h : BitsAt s sl c (msbBits v)) :
    readBits s sl c w = .ok (v.toNat, c + w) := by
  have := readBits_of_bits h.1 h.2
  rw [length_msbBits, bitsOnto_msbBits] at this
  exact this

/-- The decoding of a word laid out in the slice (R140). -/
theorem decodeAncWord_of_field {s : State} {sl : Slice} {c : Nat} (w : AncWord10) (h : BitsAt s sl c (msbBits w)) :
    decodeAncWord s sl c = .ok ⟨dataByte w, c + 10, w⟩ := by
  have hb : BitVec.ofNat 8 w.toNat = dataByte w := by apply BitVec.eq_of_toNat_eq; simp [dataByte]
  simp [decodeAncWord, readBits_of_field w h, hb]

/-- The decoding of caption words laid out in the slice (R155). -/
theorem captionWords_of_fields {s : State} {sl : Slice} (l : List AncWord10) (c : Nat) (hc : c ≤ sl.bitLen)
    (h : BitsAt s sl c (l.flatMap msbBits)) :
    captionWords s sl l.length c = .ok (l.map dataByte, c + 10 * l.length) := by
  induction l generalizing c with
  | nil => rfl
  | cons w l ih =>
    simp only [List.flatMap_cons] at h
    obtain ⟨h1, h2⟩ := h.append
    have hle := h1.1
    rw [length_msbBits] at h2 hle
    simp only [List.length_cons, captionWords, decodeAncWord_of_field w h1, ok_bind]
    rw [ih (c + 10) hle h2]
    simp [pure, Except.pure, ok_bind]; omega

end Sys2Proof.Machine
end

