-- ==== Sys2Proof/Machine/Program.lean ====
section
/-! DEFINITION. The statements in which 30_encoding.md section 7 writes a host program (R99), its
pseudo-instructions (R100), and the host's accesses each stands for. -/

namespace Sys2Proof.Machine

/-- A statement of a host program (R99), or a pseudo-instruction (R100). -/
inductive HostStatement where
  /-- `PROCESS_PACKET m`. -/
  | processPacket (m : Bool)
  /-- `FORCE_FINALIZE`. -/
  | forceFinalize
  /-- `SOFT_RESET`. -/
  | softReset
  /-- `READ_BITS n`. -/
  | readBits (n : BitVec 6)
  /-- `DECODE_WORD`. -/
  | decodeWord
  /-- `EXTRACT_UNIT`. -/
  | extractUnit
  /-- `WPKT a, b0 b1 ...`. -/
  | wpkt (a : Nat) (bytes : List Byte)
  /-- `WCSR NAME, v`. -/
  | wcsr (name : Reg) (v : Word)
  /-- `RCSR NAME`. -/
  | rcsr (name : Reg)
  /-- `RUBUF a`. -/
  | rubuf (a : Nat)
  /-- `PACKET t, m, b0 b1 ...` (R100). -/
  | packet (t : Word) (m : Bool) (bytes : List Byte)
  /-- `SETCUR c` (R100). -/
  | setCur (c : Word)
  /-- `SLICE b0 ...` (R100). -/
  | slice (bytes : List Byte)
deriving DecidableEq, Repr

/-- The offset of a register in `CSR`, by the register map. -/
def csrOffset (r : Reg) : Nat :=
  match registerMap.find? (fun x => x.2 == r) with
  | some x => x.1
  | none => 0

/-- The host's write of a word to a register. -/
def writeReg (r : Reg) (v : Word) : HostAction := .writeCsr (csrOffset r) 32 v

/-- The host's write of a command to `CMD`, by the encoding of the command. -/
def issueCommand (i : Instr) : List HostAction :=
  match encode i with
  | .command w => [writeReg .cmd w]
  | .unitId _ => []

/-- The host's writes of bytes at `PKT` offsets `a`, `a+1`, and on. -/
def writeBytes : Nat → List Byte → List HostAction
  | _, [] => []
  | a, b :: bs => .writePkt a b :: writeBytes (a + 1) bs

/-- The host's accesses a statement stands for (R99), a pseudo-instruction expanded (R100). -/
def statementActions : HostStatement → List HostAction
  | .processPacket m => issueCommand (.processPacket m)
  | .forceFinalize => issueCommand .forceFinalize
  | .softReset => issueCommand .softReset
  | .readBits n => issueCommand (.readBits n)
  | .decodeWord => issueCommand .decodeWord
  | .extractUnit => issueCommand .extractUnit
  | .wpkt a bytes => writeBytes a bytes
  | .wcsr r v => [writeReg r v]
  | .rcsr r => [.readCsr (csrOffset r) 32]
  | .rubuf a => [.readUnit a]
  | .packet t m bytes =>
    writeBytes 0 bytes ++ [writeReg .argTs t, writeReg .argLen (BitVec.ofNat 32 bytes.length)]
      ++ issueCommand (.processPacket m)
  | .setCur c => [writeReg .argCursor c]
  | .slice bytes => writeBytes 0 bytes ++ [writeReg .argLen (BitVec.ofNat 32 bytes.length)]

/-- The machine `s` with a host program to run (R99): its accesses, in program order (R73). -/
def State.withProgram (s : State) (p : List HostStatement) : State :=
  { s with host := p.flatMap statementActions }

end Sys2Proof.Machine
end

