-- ==== Sys2Proof/Tests/Slice0.lean ====
section
/-! SUPPORT. Tests of one step each, their expected results from 95_test_vectors.md (the vector's name stands in the
comment), and a named witness for the hypotheses of every statement that has some. -/

open Sys2Proof Sys2Proof.Machine

/-! ### Helpers -/

/-- The outcome is a next state with the property. -/
def answers (o : Host.Outcome State Fault Refusal) (p : State → Bool) : Bool :=
  match o with
  | .next t => p t
  | .fault _ => false
  | .refused _ => false

theorem of_answers {o : Host.Outcome State Fault Refusal} {p : State → Bool} (h : answers o p = true) :
    ∃ t, o = .next t ∧ p t = true := by
  cases o with
  | next t => exact ⟨t, rfl, h⟩
  | fault f => cases h
  | refused r => cases h

/-- The outcome is this fault. -/
def faults (o : Host.Outcome State Fault Refusal) (f : Fault) : Bool :=
  match o with
  | .fault g => g == f
  | .next _ => false
  | .refused _ => false

theorem of_faults {o : Host.Outcome State Fault Refusal} {f : Fault} (h : faults o f = true) : o = .fault f := by
  cases o with
  | fault g => simpa [faults] using h
  | next t => cases h
  | refused r => cases h

/-- The value read has the property. -/
def reads {α : Type} (r : Except ReadStop α) (p : α → Bool) : Bool :=
  match r with
  | .ok v => p v
  | .error _ => false

theorem of_reads {α : Type} {r : Except ReadStop α} {p : α → Bool} (h : reads r p = true) :
    ∃ v, r = .ok v ∧ p v = true := by
  cases r with
  | ok v => exact ⟨v, rfl, h⟩
  | error e => cases h

/-- The read runs out of bits. -/
def runsOut {α : Type} (r : Except ReadStop α) : Bool :=
  match r with
  | .error .exhausted => true
  | .error (.fault _) => false
  | .ok _ => false

theorem of_runsOut {α : Type} {r : Except ReadStop α} (h : runsOut r = true) : r = .error .exhausted := by
  cases r with
  | ok v => cases h
  | error e => cases e with
    | exhausted => rfl
    | fault f => cases h

/-- Reset, with a build whose allocations succeed, the bytes in `PKT` from offset 0, and `ARG_LEN` their number. -/
def loaded (bytes : List Byte) : State :=
  { State.reset with
    cfg := { Config.default with allocMayFail := false }
    pktRam := Memory.writeRange [] 0 bytes, argLen := BitVec.ofNat 16 bytes.length }

/-- A debug slice and its cursor. -/
def slice (bytes : List Byte) (cursor : Word) : State := { loaded bytes with argCursor := cursor }

/-- A packet and its timestamp. -/
def packet (ts : Word) (bytes : List Byte) : State := { loaded bytes with argTs := ts }

/-- The same under `UNIT_SKIP_POLICY = DECLARED`. -/
def declared (s : State) : State := { s with cfg := { s.cfg with skipPolicy := .declared } }

/-- An open frame of timestamp `ts` that holds the bytes. -/
def withFrame (s : State) (ts : Word) (bytes : List Byte) : State :=
  { s with
    status := .accumulating, curTs := ts, wrOff := BitVec.ofNat 16 bytes.length
    accBuf := Memory.writeRange [] 0 bytes }

/-- The host's next accesses. -/
def hostDoes (s : State) (xs : List HostAction) : State := { s with host := xs }

/-- The 12 header bytes with the given `ANC_COUNT` (0.1 of 95_test_vectors.md). -/
def header (count : Byte) : List Byte := [0, 0, 0, 0, count, 0, 0, 0, 0, 0, 0, 0]

/-- `U1`: a CDP unit with caption bytes 80 94 2C. -/
def unit1 : List Byte :=
  [0x18, 0x40, 0x10, 0x2C, 0x96, 0x1A, 0x40, 0, 0, 0, 0, 0, 0, 0x04, 0x80, 0x25, 0x02, 0xC0]

/-- `U2`: a CDP unit with caption bytes 80 94 25. -/
def unit2 : List Byte :=
  [0x18, 0x40, 0x10, 0x2C, 0x96, 0x1A, 0x40, 0, 0, 0, 0, 0, 0, 0x04, 0x80, 0x25, 0x02, 0x50]

/-- `RTp`: a CDP unit with every free bit set otherwise and caption bytes 11 22 33 44 55 66 77 88 99. -/
def unitRtp : List Byte :=
  [0x58, 0x50, 0x10, 0x42, 0x96, 0x5A, 0x45, 0xF5, 0x3E, 0x43, 0xAB, 0xCD, 0xEB, 0x8C]
    ++ [0x11, 0x08, 0x83, 0x31, 0x10, 0x55, 0x19, 0x87, 0x72, 0x20, 0x99]

/-- `OTH`: an other unit, DID 0x041, SDID 0x005, DC 0x002, and two user words. -/
def unitOth : List Byte := [0x10, 0x40, 0x50, 0x08, 0x61, 0x00, 0x40]

/-! ### Well-formedness -/

/-- R88 gives `CDP_UNIT` priority: the pair of a CDP unit is no `OTHER_UNIT`, whatever its bits 9:8. -/
theorem test_wellFormed_refuses_cdpPair :
    (Instr.otherUnit 0x061 0x001).wellFormed = false ∧ (Instr.otherUnit 0x361 0x101).wellFormed = false := by decide

theorem test_wellFormed_accepts :
    (Instr.otherUnit 0x060 0x001).wellFormed = true ∧ (Instr.otherUnit 0x061 0x002).wellFormed = true
      ∧ (Instr.cdpUnit 3 3).wellFormed = true ∧ (Instr.readBits 63).wellFormed = true := by decide

/-! ### Decoding: words written out from 30_encoding.md -/

/-- R80, R81: `OP` in [3:0], `M` in [4]. -/
theorem test_decode_processPacket :
    decode (.command 0b00000000000000000000000000000001) = .ok (.processPacket false)
      ∧ decode (.command 0b00000000000000000000000000010001) = .ok (.processPacket true) := by decide

theorem test_decode_forceFinalize :
    decode (.command 0b00000000000000000000000000000010) = .ok .forceFinalize := by decide

theorem test_decode_softReset :
    decode (.command 0b00000000000000000000000000000011) = .ok .softReset := by decide

/-- R83: `N` in [13:8]; the words of B1 and B2. -/
theorem test_decode_readBits :
    decode (.command 0b00000000000000000000101000000100) = .ok (.readBits 10)
      ∧ decode (.command 0b00000000000000000010000000000100) = .ok (.readBits 32) := by decide

theorem test_decode_decodeWord :
    decode (.command 0b00000000000000000000000000000101) = .ok .decodeWord := by decide

theorem test_decode_extractUnit :
    decode (.command 0b00000000000000000000000000000110) = .ok .extractUnit := by decide

/-- R88: the DID word 01 0110 0001 and the SDID word 01 0000 0001, both parity-correct (F22). -/
theorem test_decode_cdpUnit : decode (.unitId 0b01011000010100000001) = .ok (.cdpUnit 1 1) := by decide

/-- The DID word 00 0100 0001 and the SDID word 00 0000 0101 of `OTH`. -/
theorem test_decode_otherUnit : decode (.unitId 0b00010000010000000101) = .ok (.otherUnit 0x041 0x005) := by decide

/-- R96: the illegal words of B15 to B18, F12c, F13d and W12. -/
theorem test_decode_rejects :
    decode (.command 0x00000815) = .error .markerSet ∧ decode (.command 0x00000824) = .error .reservedBits
      ∧ decode (.command 0) = .error (.reservedOpcode 0) ∧ decode (.command 7) = .error (.reservedOpcode 7)
      ∧ decode (.command 0x00000021) = .error .reservedBits ∧ decode (.command 0x12) = .error .markerSet
      ∧ decode (.command 0x00000015) = .error .markerSet ∧ decode (.command 0x00000106) = .error .widthSet
      ∧ decode (.command 0x00004004) = .error .reservedBits := by decide

/-- Each row's match word, as the table numbers its bits. -/
theorem test_decodeTableWord :
    decodeTableWord 32 0x00000001 = some (.processPacket false) ∧ decodeTableWord 32 0x00000002 = some .forceFinalize
      ∧ decodeTableWord 32 0x00000003 = some .softReset ∧ decodeTableWord 32 0x00000104 = some (.readBits 1)
      ∧ decodeTableWord 32 0x00000005 = some .decodeWord ∧ decodeTableWord 32 0x00000006 = some .extractUnit
      ∧ decodeTableWord 24 0x18401 = some (.cdpUnit 0 0) ∧ decodeTableWord 24 0 = some (.otherUnit 0 0)
      ∧ decodeTableWord 32 0x0000000F = none ∧ decodeTableWord 24 0x100000 = none := by decide

/-- The step after reset runs the placed word, and does not stop: a command, and a unit of each kind. -/
theorem test_fetch_commands :
    answers (step (State.reset.withFetchWord 32 0x00000002)) (fun t => t.resp.result == .ok) = true
      ∧ answers (step (State.reset.withFetchWord 32 0x00000104)) (fun t => t.resp.result == .error .exhausted) = true := by
  decide

theorem test_fetch_units :
    answers (step (State.reset.withFetchWord 24 0x18401)) (fun t => t.lastUnit.cdp && t.argCursor == 110) = true
      ∧ answers (step (State.reset.withFetchWord 24 0x10405))
        (fun t => t.lastUnit == ⟨0x41, 0x05, 0, false⟩ && t.argCursor == 30) = true := by decide +kernel

/-! ### One step of each instruction -/

/-- S5 (c) with the first unit of S7: 30 bytes, marker set; `RESP` is 0x00010163. -/
theorem test_processPacket_complete :
    answers (exec (.processPacket true) (packet 100 (header 1 ++ unit1))) (fun t =>
      readCsr t 0x14 == 0x00010163 && t.out == [⟨.complete, 100, [0x80, 0x94, 0x2C]⟩] && t.status == .idle) = true := by
  decide +kernel

/-- F9: the second packet of a stale frame, marker set; `RESP` is 0x000101B3. -/
theorem test_processPacket_stale :
    answers (exec (.processPacket true) (withFrame (packet 200 (header 1 ++ unit2)) 100 [0x80, 0x94, 0x2C])) (fun t =>
      readCsr t 0x14 == 0x000101B3
        && t.out == [⟨.stale, 100, [0x80, 0x94, 0x2C]⟩, ⟨.complete, 200, [0x80, 0x94, 0x25]⟩]) = true := by
  decide +kernel

/-- F13b: `RESP` is 0x00000043. -/
theorem test_forceFinalize_open :
    answers (exec .forceFinalize (withFrame State.reset 100 [0x80, 0x94, 0x2C])) (fun t =>
      readCsr t 0x14 == 0x00000043 && t.out == [⟨.forced, 100, [0x80, 0x94, 0x2C]⟩] && t.status == .idle) = true := by
  decide +kernel

/-- F13: from reset only `RESP` changes. -/
theorem test_forceFinalize_idle :
    answers (exec .forceFinalize State.reset) (fun t => readCsr t 0x14 == 1 && t.out == []) = true := by decide

/-- F14: the open frame is dropped without a record; `ARG_TS` stays. -/
theorem test_softReset :
    answers (exec .softReset (withFrame (packet 100 unit1) 100 [0x80])) (fun t =>
      readCsr t 0x14 == 1 && t.status == .idle && t.wrOff == 0 && t.out == [] && t.argTs == 100 && t.argLen == 18)
      = true := by decide

/-- B1: bits 3 to 12 of A5 3C are 0xA7. -/
theorem test_readBits_B1 :
    answers (exec (.readBits 10) (slice [0xA5, 0x3C] 3)) (fun t => t.dbgValue == 0xA7 && t.argCursor == 13) = true := by
  decide

/-- B5: four bits from bit 13 of a 16-bit slice run out; the cursor is kept. -/
theorem test_readBits_B5 :
    answers (exec (.readBits 4) (slice [0xA5, 0x3C] 13)) (fun t =>
      readCsr t 0x14 == 8 && t.argCursor == 13 && t.cntExhausted == 1) = true := by decide

/-- W1: the word 0x261 gives 0x61. -/
theorem test_decodeWord_W1 :
    answers (exec .decodeWord (slice [0x98, 0x40] 0)) (fun t => t.dbgValue == 0x61 && t.argCursor == 10) = true := by
  decide

/-- W11: a misaligned cursor. -/
theorem test_decodeWord_W11 :
    answers (exec .decodeWord (slice [0xAA, 0x95, 0x50] 11)) (fun t => t.dbgValue == 0xAA && t.argCursor == 21)
      = true := by decide

/-- S5 (b): the registers of `RTp`. -/
theorem test_extractUnit_S5b :
    answers (exec .extractUnit (slice unitRtp 0)) (fun t =>
      readCsr t 0x14 == 0x00000101 && readCsr t 0x2C == 0x01100161 && readCsr t 0x30 == 0x4F5F6996
        && readCsr t 0x34 == 0x0000E343 && readCsr t 0x38 == 0x000ABCDE && t.argCursor == 200
        && (List.range 9).map t.unitBuf.read
          == [0x11, 0x22, 0x33, 0x44, 0x55, 0x66, 0x77, 0x88, 0x99].map some) = true := by decide +kernel

/-- X11: `U1` without its last byte runs out, and nothing is captured. -/
theorem test_extractUnit_X11 :
    answers (exec .extractUnit (slice (unit1.take 17) 0)) (fun t =>
      readCsr t 0x14 == 8 && t.lastUnit == ⟨0, 0, 0, false⟩ && t.argCursor == 0) = true := by decide +kernel

/-- X1: the unit of `P1` at bit 96, read as an instruction of its own. -/
theorem test_cdpUnit_X1 :
    answers (exec (.cdpUnit 0 0) (slice (header 1 ++ unit1) 96)) (fun t =>
      t.unitLen == 3 && t.argCursor == 236 && readCsr t 0x2C == 0x010B0161 && readCsr t 0x34 == 0x00000100)
      = true := by decide +kernel

/-- X5: `OTH` under `REFERENCE`. -/
theorem test_otherUnit_X5 :
    answers (exec (.otherUnit 0x041 0x005) (slice unitOth 0)) (fun t =>
      t.unitLen == 0 && t.argCursor == 30 && readCsr t 0x2C == 0x00020541) = true := by decide

/-- X6: `OTH` under `DECLARED`. -/
theorem test_otherUnit_X6 :
    answers (exec (.otherUnit 0x041 0x005) (declared (slice unitOth 0))) (fun t =>
      t.argCursor == 50 && readCsr t 0x2C == 0x00020541) = true := by decide

/-- R9: a byte no one wrote faults under the default build, and does not under `ANY`. -/
theorem test_unwritten_byte :
    faults (exec (.readBits 1) { State.reset with argLen := 1 }) (.unwrittenPkt 0) = true
      ∧ answers (exec (.readBits 1) { State.reset with
          argLen := 1, cfg := { Config.default with unwrittenRead := .any } }) (fun t => t.argCursor == 1) = true := by
  decide

/-- R99, R100: the accesses of a `PACKET` and of a `SETCUR` with the read that follows. -/
theorem test_statements :
    statementActions (.packet 100 true [0xAA, 0xBB])
        = [.writePkt 0 0xAA, .writePkt 1 0xBB, .writeCsr 0x04 32 100, .writeCsr 0x08 32 2, .writeCsr 0x00 32 0x11]
      ∧ (State.reset.withProgram [.setCur 7, .readBits 10, .rcsr .dbgValue]).host
        = [.writeCsr 0x10 32 7, .writeCsr 0x00 32 0x00000A04, .readCsr 0x24 32] := by decide

/-! ### Witnesses: a state and operands that meet all the hypotheses of each statement that has some -/

theorem witness_DecodeInvertsEncode :
    (Instr.otherUnit 0x3FF 0x000).wellFormed = true ∧ (Instr.readBits 63).wellFormed = true
      ∧ (Instr.cdpUnit 3 0).wellFormed = true ∧ (Instr.processPacket true).wellFormed = true := by decide

theorem witness_EncodeInvertsDecode :
    decode (.command 0x00003F04) = .ok (.readBits 63) ∧ decode (.unitId 0xFFFFF) = .ok (.otherUnit 0x3FF 0x3FF) := by
  decide

/-- A host write of a command word, in the given state. -/
def commanded (s : State) (w : Word) : State := hostDoes s [.writeCsr 0x00 32 w]

theorem witness_StepRunsDecodedCommand :
    (commanded State.reset 0x11).faulted = false ∧ (commanded State.reset 0x11).host = .writeCsr 0x00 32 0x11 :: []
      ∧ decodeCommand 0x11 = .ok (.processPacket true) := by decide

theorem witness_StepRunsDecodedUnit :
    ∃ (s s' : State) (d e : DecodedWord), s.faulted = false ∧ s.host = .writeCsr 0x00 32 6 :: []
      ∧ s' = { s with cmd := 6, host := [], draw := s.draw + 1 }
      ∧ decodeAncWord s' (debugSlice s') s'.argCursor.toNat = .ok d
      ∧ decodeAncWord s' (debugSlice s') d.next = .ok e :=
  ⟨commanded (slice unit1 0) 6, _, ⟨0x61, 10, 0x061⟩, ⟨0x01, 20, 0x001⟩, rfl, rfl, rfl, rfl, rfl⟩

theorem witness_PlacedTableWordRuns :
    State.reset.faulted = false ∧ decodeCommand 0x00002004 = .ok (.readBits 32) := by decide

theorem witness_StepWithoutAccess :
    (State.reset.faulted = false ∧ State.reset.host = []) ∧ ({ State.reset with faulted := true } : State).faulted = true := by
  decide

theorem witness_HardResetValues :
    (hostDoes (withFrame State.reset 9 [1]) [.hardReset]).faulted = false
      ∧ (hostDoes (withFrame State.reset 9 [1]) [.hardReset]).host = .hardReset :: [] := by decide

/-- A state with an open frame of one byte meets the invariant, and its step answers a next state. -/
theorem witness_StepKeepsInvariant :
    ∃ s t : State, s.Inv ∧ s.wrOff = 1 ∧ step s = .next t := by
  refine ⟨commanded (withFrame State.reset 9 [0x80]) 2, ?_⟩
  obtain ⟨t, h, -⟩ := of_answers (o := step (commanded (withFrame State.reset 9 [0x80]) 2)) (p := fun _ => true) (by decide)
  refine ⟨t, ?_, rfl, h⟩
  constructor <;> decide

theorem witness_StepKeepsBuild_OutputOnlyGrows :
    (∃ t, step (hostDoes State.reset [.writePkt 2047 0xFF]) = .next t)
      ∧ ∃ t, step (commanded (withFrame State.reset 9 [0x80]) 2) = .next t ∧ (t.out != []) = true :=
  ⟨⟨_, rfl⟩, of_answers (by decide)⟩

/-- For the statements over every instruction that answers a next state: a debug command that moves the cursor. -/
theorem witness_CommandKeepsHostInputs :
    ∃ t, exec (.readBits 10) (slice [0xA5, 0x3C] 3) = .next t ∧ (t.argCursor != 3) = true := of_answers (by decide)

/-- The payload of `P1` may be read, and so may an unwritten byte under `ANY`. -/
theorem witness_EveryCommandCompletes :
    PayloadReadable (loaded [0xA5, 0x3C])
      ∧ PayloadReadable { State.reset with argLen := 65535, cfg := { Config.default with unwrittenRead := .any } } := by
  refine ⟨?_, fun a _ => .inl rfl⟩
  unfold PayloadReadable
  decide

theorem witness_OnlyUnwrittenBytesFault :
    exec .decodeWord { slice [0xA5] 0 with argLen := 2 } = .fault (.unwrittenPkt 1) := of_faults (by decide)

/-- The last bit read lies in the first unwritten byte: of a slice from byte 3, of `READ_BITS`, of a word, and of a
unit's data count. -/
theorem witness_OnlyUnwrittenBytesFault_reads :
    (slice [0xA5] 7).cfg.unwrittenRead = .fault ∧ LenLegal { slice [0xA5] 7 with argLen := 2 }
      ∧ (5 + 4 ≤ (⟨3, 9⟩ : Slice).bitLen ∧ TouchesUnwritten (loaded [1, 2, 3, 4]) ⟨3, 9⟩ 5 4)
      ∧ (7 + (2 : BitVec 6).toNat ≤ 8 * 2 ∧ TouchesUnwritten (slice [0xA5] 7) ⟨0, 16⟩ 7 (2 : BitVec 6).toNat)
      ∧ (6 + 10 ≤ 8 * 2 ∧ TouchesUnwritten (slice [0xA5] 6) ⟨0, 16⟩ 6 10)
      ∧ (2 + 30 ≤ 8 * 4 ∧ TouchesUnwritten (slice [0x10, 0x40, 0x50] 2) ⟨0, 32⟩ (2 + 20) 10) :=
  ⟨rfl, by decide, ⟨by decide, 4, by decide, by decide, by decide⟩, ⟨by decide, 1, by decide, by decide, by decide⟩,
    ⟨by decide, 1, by decide, by decide, by decide⟩, ⟨by decide, 3, by decide, by decide, by decide⟩⟩

/-- The read faults. -/
def readFaults {α : Type} : Except ReadStop α → Bool
  | .error (.fault _) => true
  | _ => false

theorem of_readFaults {α : Type} {r : Except ReadStop α} (h : readFaults r = true) : ∃ f, r = .error (.fault f) := by
  cases r with
  | ok a => cases h
  | error e => cases e with
    | exhausted => cases h
    | fault f => exact ⟨f, rfl⟩

/-- A packet that counts two units and whose second unit's bytes the host has not written. -/
def missingUnit : State := { packet 5 (header 2 ++ unit1) with argLen := 40 }

/-- Byte 4 not written; and a second unit whose bytes are not written. -/
theorem witness_OnlyUnwrittenBytesFault_packet :
    (PacketLegal { packet 5 [0, 0, 0, 0] with argLen := 12 }
      ∧ (OpensFrame { packet 5 [0, 0, 0, 0] with argLen := 12 } →
        State.allocOk { packet 5 [0, 0, 0, 0] with argLen := 12 } = true)
      ∧ ({ packet 5 [0, 0, 0, 0] with argLen := 12 } : State).pktWritten 4 = false)
      ∧ ∃ (us : List AncUnit) (f : Fault), pktByte missingUnit 4 = .ok 2
        ∧ unitsFrom missingUnit (packetSlice missingUnit) 1 0 = .ok us
        ∧ extractAncUnit missingUnit (packetSlice missingUnit) (unitsEnd 0 us) = .error (.fault f)
        ∧ firstStored missingUnit + (captionBytes us).length ≤ missingUnit.cfg.cap.toNat := by
  refine ⟨⟨by decide, fun _ => rfl, by decide⟩, ?_⟩
  obtain ⟨us, h, hp⟩ := of_reads (r := unitsFrom missingUnit (packetSlice missingUnit) 1 0)
    (p := fun us => decide ((captionBytes us).length = 3)
      && readFaults (extractAncUnit missingUnit (packetSlice missingUnit) (unitsEnd 0 us)))
    (by decide +kernel)
  simp only [Bool.and_eq_true, decide_eq_true_eq] at hp
  obtain ⟨f, hf⟩ := of_readFaults hp.2
  refine ⟨us, f, rfl, h, hf, ?_⟩
  rw [hp.1]; decide

/-- One command for each error the model can be driven to, besides `ERR_ALLOC`, whose draw is free. -/
theorem witness_ErrorCountersCountResults :
    (∃ t, exec .decodeWord (slice [0xA5] 0) = .next t ∧ (t.resp.result == .error .exhausted) = true)
      ∧ (∃ t, exec (.processPacket false) { packet 5 (header 1 ++ unit1) with
          cfg := { Config.default with cap := 2, allocMayFail := false } } = .next t
          ∧ (t.resp.result == .error .overflow) = true)
      ∧ ∃ t, exec .extractUnit { slice [] 0 with argLen := 2049 } = .next t
          ∧ (t.resp.result == .error .badCmd) = true :=
  ⟨of_answers (by decide), of_answers (by decide +kernel), of_answers (by decide)⟩

/-- A packet that emits two records (F9), and one that emits none. -/
theorem witness_EmissionsAreCounted :
    (∃ t, exec (.processPacket true) (withFrame (packet 200 (header 1 ++ unit2)) 100 [0x80]) = .next t
      ∧ (t.resp.nemit == 2) = true)
      ∧ ∃ t, exec (.processPacket false) (packet 200 (header 0)) = .next t ∧ (t.resp.nemit == 0) = true :=
  ⟨of_answers (by decide +kernel), of_answers (by decide +kernel)⟩

theorem witness_StaleCountsDiscontinuities :
    ∃ t, exec (.processPacket false) (withFrame (packet 200 (header 0)) 100 []) = .next t ∧ t.resp.stale = true :=
  of_answers (by decide +kernel)

theorem witness_ResultsByCommand :
    (∃ t, exec (.processPacket true) (packet 1 (header 0)) = .next t ∧ (t.resp.result == .finalEmpty) = true)
      ∧ (∃ t, exec .forceFinalize State.reset = .next t ∧ (t.resp.result == .ok) = true)
      ∧ (∃ t, exec .softReset State.reset = .next t ∧ (t.resp.result == .ok) = true)
      ∧ (∃ t, exec (.readBits 1) (slice [0x80] 0) = .next t ∧ (t.resp.result == .ok) = true)
      ∧ (∃ t, exec .decodeWord (slice [0x80] 0) = .next t ∧ (t.resp.result == .error .exhausted) = true) :=
  ⟨of_answers (by decide), of_answers (by decide), of_answers (by decide), of_answers (by decide),
    of_answers (by decide)⟩

/-- A packet that opens a frame, and a soft reset of one. -/
theorem witness_OnlyOpenWritesTimestamp :
    (∃ t, exec (.processPacket false) (packet 0xFFFFFFFF (header 0)) = .next t ∧ (t.curTs != 0) = true)
      ∧ ∃ t, exec .softReset (withFrame State.reset 9 []) = .next t ∧ (t.curTs != 9) = true :=
  ⟨of_answers (by decide +kernel), of_answers (by decide)⟩

theorem witness_DebugCommandsKeepFrame :
    ∃ t, exec (.otherUnit 0x041 0x005) (withFrame (slice unitOth 0) 9 [1]) = .next t ∧ (t.argCursor == 30) = true :=
  of_answers (by decide)

/-- Each way a command word fails: the word, `ARG_LEN`, and `ARG_HDRLEN` below 5 and above 2048. -/
theorem witness_BadCommandChangesNothingElse :
    (commanded State.reset 0x00002104).faulted = false
      ∧ (commanded State.reset 0x00002104).host = .writeCsr 0x00 32 0x00002104 :: []
      ∧ FailsBadCmd 0x00002104 (commanded State.reset 0x00002104)
      ∧ FailsBadCmd 0x00000804 (commanded { State.reset with argLen := 2049 } 0x00000804)
      ∧ FailsBadCmd 0x00000001 (commanded { State.reset with argHdrLen := 4 } 0x00000001)
      ∧ FailsBadCmd 0x00000011 (commanded { State.reset with argHdrLen := 2049 } 0x00000011) := by
  unfold FailsBadCmd; decide

theorem witness_BadArgumentsChangeNothingElse :
    ArgumentFails (.processPacket true) { State.reset with argHdrLen := 4 }
      ∧ ArgumentFails (.readBits 0) State.reset ∧ ArgumentFails (.readBits 33) State.reset
      ∧ ArgumentFails .decodeWord { State.reset with argLen := 2049 }
      ∧ ArgumentFails .extractUnit { State.reset with argLen := 2049 }
      ∧ ArgumentFails (.cdpUnit 0 0) { State.reset with argLen := 2049 }
      ∧ ArgumentFails (.otherUnit 0 0) { State.reset with argLen := 2049 } := by
  simp only [ArgumentFails]; decide

/-- B2 and B4: 32 bits of four bytes, and the last bit of a slice. -/
theorem witness_ReadBitsResult :
    (1 ≤ (32#6).toNat ∧ (32#6).toNat ≤ 32 ∧ LenLegal (slice [0xDE, 0xAD, 0xBE, 0xEF] 0)
      ∧ (slice [0xDE, 0xAD, 0xBE, 0xEF] 0).argCursor.toNat + (32#6).toNat
        ≤ 8 * (slice [0xDE, 0xAD, 0xBE, 0xEF] 0).argLen.toNat
      ∧ ∀ a, (0#32).toNat / 8 ≤ a → a ≤ (0 + 32 - 1) / 8 → PktReadable (slice [0xDE, 0xAD, 0xBE, 0xEF] 0) a)
      ∧ (1 ≤ (1#6).toNat ∧ LenLegal (slice [0x01] 7) ∧ (slice [0x01] 7).argCursor.toNat + 1 ≤ 8 * (slice [0x01] 7).argLen.toNat
      ∧ ∀ a, 7 / 8 ≤ a → a ≤ (7 + 1 - 1) / 8 → PktReadable (slice [0x01] 7) a) := by
  refine ⟨⟨by decide, by decide, by decide, by decide, fun a _ h => ?_⟩, by decide, by decide, by decide, fun a _ h => ?_⟩
  · have : a < 4 := by omega
    revert this; revert a; decide
  · have : a < 1 := by omega
    revert this; revert a; decide

/-- B5. -/
theorem witness_ReadBitsExhausted :
    1 ≤ (4#6).toNat ∧ (4#6).toNat ≤ 32 ∧ LenLegal (slice [0xA5, 0x3C] 13)
      ∧ 8 * (slice [0xA5, 0x3C] 13).argLen.toNat < (slice [0xA5, 0x3C] 13).argCursor.toNat + (4#6).toNat := by decide

/-- S6 (a): 7 and 9 bits of A5 3C; and its last bit, then one too many. -/
theorem witness_SplitLaw :
    readBits (slice [0xA5, 0x3C] 0) ⟨0, 16⟩ 0 7 = .ok (0x52, 0 + 7)
      ∧ readBits (slice [0xA5, 0x3C] 0) ⟨0, 16⟩ (0 + 7) 9 = .ok (0x13C, 0 + 7 + 9)
      ∧ readBits (slice [0xA5, 0x3C] 0) ⟨0, 16⟩ 0 (7 + 9) = .ok (0xA53C, 0 + 7 + 9)
      ∧ ((⟨0, 16⟩ : Slice).bitLen < 15 + (1 + 1) ∧ 1 ≤ (⟨0, 16⟩ : Slice).bitLen - 15)
      ∧ ((⟨0, 16⟩ : Slice).bitLen < 17 + (1 + 1) ∧ (⟨0, 16⟩ : Slice).bitLen - 17 < 1) :=
  ⟨rfl, rfl, rfl, by decide, by decide⟩

theorem witness_StreamBitOrder :
    (slice [0xA5, 0x3C] 0).pktRam.read ((⟨0, 16⟩ : Slice).base + 15 / 8) = some 0x3C := by decide

theorem witness_DebugReadFrame :
    (∃ t, exec (.readBits 4) (slice [0xA5, 0x3C] 12) = .next t ∧ (t.dbgValue == 0xC) = true)
      ∧ ∃ t, exec .decodeWord (slice [0x98, 0x40] 6) = .next t ∧ (t.dbgValue == 0x40) = true :=
  ⟨of_answers (by decide), of_answers (by decide)⟩

/-- W7: the word ends exactly at the end of the slice. -/
theorem witness_DecodeWordResult :
    LenLegal (slice [0x98, 0x40] 6)
      ∧ (slice [0x98, 0x40] 6).argCursor.toNat + 10 ≤ 8 * (slice [0x98, 0x40] 6).argLen.toNat
      ∧ ∀ a, (slice [0x98, 0x40] 6).argCursor.toNat / 8 ≤ a → a ≤ ((slice [0x98, 0x40] 6).argCursor.toNat + 9) / 8 →
        PktReadable (slice [0x98, 0x40] 6) a := by
  refine ⟨by decide, by decide, fun a _ h => ?_⟩
  have h : a ≤ (6 + 9) / 8 := h
  have : a < 2 := by omega
  revert this; revert a; decide

/-- W8. -/
theorem witness_DecodeWordResult_exhausted :
    LenLegal (slice [0x98, 0x40] 7)
      ∧ 8 * (slice [0x98, 0x40] 7).argLen.toNat < (slice [0x98, 0x40] 7).argCursor.toNat + 10 := by decide

/-- W5 and W6: two words that differ only in bits 9:8. -/
theorem witness_DataByteRange :
    ∃ d d' : DecodedWord, decodeAncWord (slice [0x58, 0x40] 0) ⟨0, 16⟩ 0 = .ok d
      ∧ decodeAncWord (slice [0x18, 0x40] 0) ⟨0, 16⟩ 0 = .ok d'
      ∧ d.raw.extractLsb' 0 8 = d'.raw.extractLsb' 0 8 ∧ d.raw ≠ d'.raw :=
  ⟨⟨0x61, 10, 0x161⟩, ⟨0x61, 10, 0x061⟩, rfl, rfl, by decide, by decide⟩

/-- The stream bits from a cursor, where they may all be read. -/
def bitsOf (s : State) (sl : Slice) (c n : Nat) : List (Option Bool) :=
  (List.range n).map fun j => (streamBit s sl (c + j)).toOption

theorem bitsAt_of_bitsOf {s : State} {sl : Slice} {c : Nat} {bits : List Bool} (hl : c + bits.length ≤ sl.bitLen)
    (h : bitsOf s sl c bits.length = bits.map some) : BitsAt s sl c bits := by
  refine ⟨hl, fun j hj => ?_⟩
  have hj' : j < (bitsOf s sl c bits.length).length := by simpa [bitsOf] using hj
  have : (bitsOf s sl c bits.length)[j] = (bits.map some)[j]'(by simpa using hj) := by simp [h]
  simp only [bitsOf, List.getElem_map, List.getElem_range] at this
  revert this
  cases streamBit s sl (c + j) with
  | ok b => intro h; simp only [Except.toOption, Option.some.injEq] at h; rw [h]
  | error f => simp [Except.toOption]

/-- The fields of `RTp` (S5 (b)). -/
def rtpFields : CdpFields where
  dcw := 0x010
  id0w := 0x296
  id1w := 0x169
  lenw := 0x05F
  ratew := 0x14F
  flagsw := 0x243
  composite := 0xABCDE
  ccw := 0x2E3
  captions := [0x011, 0x022, 0x033, 0x044, 0x055, 0x066, 0x077, 0x088, 0x099]

theorem witness_CdpUnitRoundTrip :
    LenLegal (slice unitRtp 0) ∧ rtpFields.Counted
      ∧ BitsAt (slice unitRtp 0) (debugSlice (slice unitRtp 0)) (slice unitRtp 0).argCursor.toNat
        (cdpIdBits 1 1 ++ rtpFields.bits) :=
  ⟨by decide, by unfold CdpFields.Counted; decide, bitsAt_of_bitsOf (by decide +kernel) (by decide +kernel)⟩

/-- `RTp` as the unit of a packet, in the slice from byte 12. -/
theorem witness_CdpUnitRoundTrip_packet :
    BitsAt (packet 5 (header 1 ++ unitRtp)) (packetSlice (packet 5 (header 1 ++ unitRtp))) 0
      (cdpIdBits 1 1 ++ rtpFields.bits) :=
  bitsAt_of_bitsOf (by decide +kernel) (by decide +kernel)

theorem witness_UnitInstructionResult :
    LenLegal (slice unitRtp 0) ∧ rtpFields.Counted
      ∧ BitsAt (slice unitRtp 0) (debugSlice (slice unitRtp 0)) ((slice unitRtp 0).argCursor.toNat + 20) rtpFields.bits
      ∧ LenLegal (slice (unit1.take 17) 0)
      ∧ unitRead (.cdpUnit 0 0) (slice (unit1.take 17) 0) = .error .exhausted
      ∧ unitRead (.otherUnit 0x041 0x005) (slice [0x10, 0x40, 0x50] 0) = .error .exhausted :=
  ⟨by decide, by unfold CdpFields.Counted; decide, bitsAt_of_bitsOf (by decide +kernel) (by decide +kernel),
    by decide, of_runsOut (by decide +kernel), of_runsOut (by decide)⟩

/-- X5 and X6, the second with a slice that ends exactly at the skipped words. -/
theorem witness_OtherUnitResult :
    (LenLegal (slice unitOth 0) ∧ ¬ (dataByte 0x041 = 0x61 ∧ dataByte 0x005 = 0x01)
      ∧ BitsAt (slice unitOth 0) (debugSlice (slice unitOth 0)) (slice unitOth 0).argCursor.toNat
        (msbBits (0x041 : AncWord10) ++ msbBits (0x005 : AncWord10) ++ msbBits (0x002 : AncWord10))
      ∧ (slice unitOth 0).argCursor.toNat + 30 + skipBits (slice unitOth 0) (dataByte 0x002)
        ≤ 8 * (slice unitOth 0).argLen.toNat)
      ∧ BitsAt (declared (slice [0x10, 0x40, 0x50, 0x04, 0x00] 0))
        (debugSlice (declared (slice [0x10, 0x40, 0x50, 0x04, 0x00] 0))) 0
        (msbBits (0x041 : AncWord10) ++ msbBits (0x005 : AncWord10) ++ msbBits (0x001 : AncWord10))
      ∧ 0 + 30 + skipBits (declared (slice [0x10, 0x40, 0x50, 0x04, 0x00] 0)) (dataByte 0x001) = 8 * 5 :=
  ⟨⟨by decide, by decide, bitsAt_of_bitsOf (by decide) (by decide), by decide⟩,
    bitsAt_of_bitsOf (by decide) (by decide), by decide⟩

/-- `OTH` as the unit of a packet, in a slice from byte 11; and a header whose declared words do not fit. -/
theorem witness_OtherUnitResult_slices :
    BitsAt (packet 5 (header 1 ++ unitOth)) ⟨11, 64⟩ 8
        (msbBits (0x041 : AncWord10) ++ msbBits (0x005 : AncWord10) ++ msbBits (0x002 : AncWord10))
      ∧ BitsAt (declared (slice unitOth 0)) ⟨0, 40⟩ 0
        (msbBits (0x041 : AncWord10) ++ msbBits (0x005 : AncWord10) ++ msbBits (0x002 : AncWord10))
      ∧ ¬ 0 + 30 + skipBits (declared (slice unitOth 0)) (dataByte 0x002) ≤ 40 :=
  ⟨bitsAt_of_bitsOf (by decide +kernel) (by decide +kernel), bitsAt_of_bitsOf (by decide) (by decide), by decide⟩

theorem witness_ExtractExhausted :
    LenLegal (slice (unit1.take 17) 0)
      ∧ extractAncUnit (slice (unit1.take 17) 0) (debugSlice (slice (unit1.take 17) 0)) 0 = .error .exhausted :=
  ⟨by decide, of_runsOut (by decide +kernel)⟩

theorem witness_UnitLength :
    (∃ u, extractAncUnit (slice unit1 0) ⟨0, 144⟩ 0 = .ok u ∧ (u.isCdp && u.next == 140) = true)
      ∧ ∃ u, extractAncUnit (declared (slice unitOth 0)) ⟨0, 56⟩ 0 = .ok u ∧ (!u.isCdp && u.next == 50) = true :=
  ⟨of_reads (by decide +kernel), of_reads (by decide +kernel)⟩

theorem witness_ShortHeaderGivesNoUnit :
    (⟨0, 24⟩ : Slice).bitLen < 0 + 30
      ∧ ∀ a, (⟨0, 24⟩ : Slice).base ≤ a → a < (⟨0, 24⟩ : Slice).base + ((⟨0, 24⟩ : Slice).bitLen + 7) / 8 →
        PktReadable (slice [0x10, 0x40, 0x50] 0) a := by
  refine ⟨by decide, fun a _ h => ?_⟩
  have h : a < 0 + (24 + 7) / 8 := h
  have : a < 3 := by omega
  revert this; revert a; decide

theorem witness_ParityBitsIgnored : dataByte 0x041 = dataByte 0x341 ∧ dataByte 0x005 = dataByte 0x105 := by decide

theorem witness_ExtractFrame :
    (∃ t, exec .extractUnit (slice unit1 0) = .next t ∧ (t.unitLen == 3) = true)
      ∧ (∃ t, exec (.cdpUnit 0 0) (slice unit1 0) = .next t ∧ (t.unitLen == 3) = true)
      ∧ ∃ t, exec (.otherUnit 0x041 0x005) (slice unitOth 0) = .next t ∧ (t.unitLen == 0) = true :=
  ⟨of_answers (by decide +kernel), of_answers (by decide +kernel), of_answers (by decide +kernel)⟩

theorem witness_FinalizeAndResetFrame :
    (∃ t, exec .forceFinalize (withFrame State.reset 9 [1]) = .next t ∧ (t.wrOff == 0) = true)
      ∧ ∃ t, exec .softReset (withFrame State.reset 9 [1]) = .next t ∧ (t.wrOff == 0) = true :=
  ⟨of_answers (by decide), of_answers (by decide)⟩

/-- `P1`, with a frame capacity it fills exactly. -/
theorem witness_PacketAppendsUnits :
    ∃ (s : State) (us : List AncUnit), PacketLegal s ∧ (OpensFrame s → s.allocOk = true)
      ∧ s.argHdrLen.toNat ≤ s.argLen.toNat ∧ pktByte s 4 = .ok 1
      ∧ unitsFrom s (packetSlice s) (1 : Byte).toNat 0 = .ok us
      ∧ firstStored s + (captionBytes us).length ≤ s.cfg.cap.toNat ∧ us ≠ [] := by
  let s : State := { packet 100 (header 1 ++ unit1) with cfg := { Config.default with cap := 3, allocMayFail := false } }
  obtain ⟨us, h, hp⟩ := of_reads (r := unitsFrom s (packetSlice s) (1 : Byte).toNat 0)
    (p := fun us => decide ((captionBytes us).length = 3 ∧ us ≠ [])) (by decide +kernel)
  simp only [decide_eq_true_eq] at hp
  refine ⟨s, us, by decide, fun _ => rfl, by decide, rfl, h, ?_, hp.2⟩
  rw [hp.1]; decide

/-- F7: `P1` that counts two units. -/
def countsTwo : State := packet 100 (header 2 ++ unit1)

theorem witness_PacketExhaustedUnit :
    ∃ (s : State) (us : List AncUnit), PacketLegal s ∧ (OpensFrame s → s.allocOk = true)
      ∧ s.argHdrLen.toNat ≤ s.argLen.toNat ∧ pktByte s 4 = .ok 2 ∧ 1 < (2 : Byte).toNat
      ∧ unitsFrom s (packetSlice s) 1 0 = .ok us
      ∧ extractAncUnit s (packetSlice s) (unitsEnd 0 us) = .error .exhausted
      ∧ firstStored s + (captionBytes us).length ≤ s.cfg.cap.toNat := by
  obtain ⟨us, h, hp⟩ := of_reads (r := unitsFrom countsTwo (packetSlice countsTwo) 1 0)
    (p := fun us => decide ((captionBytes us).length = 3)
      && runsOut (extractAncUnit countsTwo (packetSlice countsTwo) (unitsEnd 0 us)))
    (by decide +kernel)
  simp only [Bool.and_eq_true, decide_eq_true_eq] at hp
  refine ⟨countsTwo, us, by decide, fun _ => rfl, by decide, rfl, by decide, h, of_runsOut hp.2, ?_⟩
  rw [hp.1]; decide

/-- `P1` into a frame that has room for two bytes of its three. -/
theorem witness_PacketOverflowingUnit :
    ∃ (s : State) (u : AncUnit), PacketLegal s ∧ (OpensFrame s → s.allocOk = true)
      ∧ s.argHdrLen.toNat ≤ s.argLen.toNat ∧ pktByte s 4 = .ok 1 ∧ 0 < (1 : Byte).toNat
      ∧ unitsFrom s (packetSlice s) 0 0 = .ok []
      ∧ extractAncUnit s (packetSlice s) (unitsEnd 0 []) = .ok u
      ∧ firstStored s + (captionBytes []).length ≤ s.cfg.cap.toNat
      ∧ s.cfg.cap.toNat < firstStored s + (captionBytes []).length + u.bytes.length := by
  let s : State := { withFrame (packet 100 (header 1 ++ unit1)) 100 [0xAA] with
    cfg := { Config.default with cap := 3, allocMayFail := false } }
  obtain ⟨u, h, hp⟩ := of_reads (r := extractAncUnit s (packetSlice s) (unitsEnd 0 []))
    (p := fun u => decide (u.bytes.length = 3)) (by decide +kernel)
  simp only [decide_eq_true_eq] at hp
  refine ⟨s, u, by decide, fun _ => rfl, by decide, rfl, by decide, rfl, h, by decide, ?_⟩
  rw [hp]; decide

/-- From Idle, from an open frame of another timestamp, and from one of the packet's own, which opens none. -/
theorem witness_PacketAllocationFailure :
    (PacketLegal State.reset ∧ OpensFrame State.reset)
      ∧ (PacketLegal (withFrame State.reset 9 [1]) ∧ OpensFrame (withFrame State.reset 9 [1]))
      ∧ PacketLegal (withFrame State.reset 0 [1]) ∧ ¬ OpensFrame (withFrame State.reset 0 [1]) := by decide

/-- F11, one byte short of the header. -/
theorem witness_PacketShorterThanHeader :
    PacketLegal (packet 9 (List.replicate 11 0)) ∧ (OpensFrame (packet 9 (List.replicate 11 0)) →
      (packet 9 (List.replicate 11 0)).allocOk = true)
      ∧ (packet 9 (List.replicate 11 0)).argLen.toNat < (packet 9 (List.replicate 11 0)).argHdrLen.toNat :=
  ⟨by decide, fun _ => rfl, by decide⟩

theorem witness_PacketFrame_MarkerEndsFrame :
    (∃ t, exec (.processPacket true) (packet 100 (header 1 ++ unit1)) = .next t ∧ t.resp.mark = true)
      ∧ PacketLegal (packet 100 (header 1 ++ unit1))
      ∧ (∃ t, exec (.processPacket false) (withFrame (packet 9 (header 1 ++ unit1)) 9 [1]) = .next t
        ∧ (t.wrOff == 4) = true)
      ∧ (∃ t, exec (.processPacket false) { State.reset with argHdrLen := 4 } = .next t ∧ (t.accBuf == []) = true) ∧ ¬ PacketLegal
        { State.reset with argHdrLen := 4 } :=
  ⟨of_answers (by decide +kernel), by decide, of_answers (by decide +kernel), of_answers (by decide +kernel), by decide⟩

/-- The body of a packet whose unit stores three bytes. -/
theorem witness_PacketFrame_stored :
    ∃ r, packetBody (packet 100 (header 1 ++ unit1)) = .ok r ∧ r.stored = 3 := by
  have h : (match packetBody (packet 100 (header 1 ++ unit1)) with
    | .ok r => r.stored == 3
    | .error _ => false) = true := by decide +kernel
  revert h
  cases packetBody (packet 100 (header 1 ++ unit1)) with
  | ok r => intro h; exact ⟨r, rfl, by simpa using h⟩
  | error f => intro h; cases h

/-- S7: the first packet opens the frame of timestamp 100; between the packets the host writes the byte of the
payload in which the second differs, and the last has the marker. -/
def twoPackets : State :=
  hostDoes (packet 100 (header 1 ++ unit1)) [.writeCsr 0x00 32 0x00000001, .writePkt 29 0x50, .writeCsr 0x00 32 0x00000011]

theorem quiet_writePkt {s : State} {a : Nat} {b : Byte} {rest : List HostAction} (h : s.host = .writePkt a b :: rest) :
    QuietNext s := by
  intro x r hx
  rw [h] at hx
  cases hx
  exact ⟨by simp, fun w i hw => by simp at hw⟩

theorem witness_ConcatenationLaw :
    ∃ (s t : State) (bs : List Byte), FrameRun 100 [] s bs ∧ s.host = .writeCsr 0x00 32 0x00000011 :: []
      ∧ s.argTs = 100 ∧ step s = .next t ∧ t.resp.result.isError = false := by
  have hp : answers (step twoPackets) (fun t => t.resp.result == .pending
      && t.host == [.writePkt 29 0x50, .writeCsr 0x00 32 0x00000011]
      && answers (step t) (fun u => u.argTs == 100 && u.host == [.writeCsr 0x00 32 0x00000011]
        && answers (step u) (fun v => !v.resp.result.isError))) = true := by decide +kernel
  obtain ⟨t, ht, h⟩ := of_answers hp
  simp only [Bool.and_eq_true, beq_iff_eq] at h
  obtain ⟨u, hu, h'⟩ := of_answers h.2
  simp only [Bool.and_eq_true, beq_iff_eq] at h'
  obtain ⟨v, hv, h''⟩ := of_answers h'.2
  have run := FrameRun.first (ts := 100) twoPackets t _ rfl rfl (.inl rfl) ht h.1.1
  exact ⟨u, v, _, FrameRun.quiet _ t u _ run (quiet_writePkt h.1.2) hu, h'.1.2, h'.1.1, hv, by simpa using h''⟩

/-- A packet alone that opens and completes its frame. -/
theorem witness_ConcatenationLaw_alone :
    OpensFrame (commanded (packet 100 (header 1 ++ unit1)) 0x11)
      ∧ ∃ t, step (commanded (packet 100 (header 1 ++ unit1)) 0x11) = .next t
        ∧ (!t.resp.result.isError) = true := ⟨by decide, of_answers (by decide +kernel)⟩

/-- `P1` with other bytes in its header and after its end. -/
theorem witness_IgnoredPayloadBytes :
    ∀ a, a = 4 ∨ ((packet 1 (header 1 ++ unit1)).argHdrLen.toNat ≤ a ∧ a < (packet 1 (header 1 ++ unit1)).argLen.toNat) →
      Memory.read (((packet 1 (header 1 ++ unit1)).pktRam.write 0 0x80).write 30 0xFF) a
        = (packet 1 (header 1 ++ unit1)).pktRam.read a := by
  intro a h
  have : a < 30 := by
    have h : a = 4 ∨ (12 ≤ a ∧ a < 30) := h
    omega
  revert h; revert this; revert a; decide

/-- A write to each of the argument registers, and to the last reserved offset. -/
theorem witness_HostCsrWrite :
    (hostDoes State.reset [.writeCsr 0x10 32 5]).faulted = false
      ∧ (hostDoes State.reset [.writeCsr 0x10 32 5]).host = .writeCsr 0x10 32 5 :: []
      ∧ (∀ off ∈ [0x04, 0x08, 0x0C, 0x10, 0xFC], off % 4 = 0 ∧ off ≤ 0xFC ∧ off ≠ 0x00) := by decide

/-- The last register offset, the last byte of `PKT`, and the last of `UBUF`. -/
theorem witness_HostReads :
    (hostDoes State.reset [.readCsr 0xFC 32]).faulted = false
      ∧ (hostDoes State.reset [.readCsr 0xFC 32]).host = .readCsr 0xFC 32 :: [] ∧ 0xFC % 4 = 0
      ∧ ((hostDoes State.reset [.readPkt 2047]).host = .readPkt 2047 :: [] ∧ 2047 < State.reset.cfg.pktMax.toNat)
      ∧ (hostDoes State.reset [.readUnit 95]).host = .readUnit 95 :: [] := by decide

theorem witness_HostByteWrites :
    (hostDoes State.reset [.writePkt 2047 1]).faulted = false
      ∧ (hostDoes State.reset [.writePkt 2047 1]).host = .writePkt 2047 1 :: [] ∧ 2047 < State.reset.cfg.pktMax.toNat
      ∧ (hostDoes State.reset [.writeUnit 0 1]).host = .writeUnit 0 1 :: [] := by decide

/-- A refused access of each kind, and accepted ones at the same borders. -/
theorem witness_RefusedAccesses :
    (∃ r, step (hostDoes State.reset [.writeCsr 0x100 32 0]) = .refused r)
      ∧ (∃ r, step (hostDoes State.reset [.readCsr 0x02 32]) = .refused r)
      ∧ (∃ r, step (hostDoes State.reset [.writeCsr 0x00 16 2]) = .refused r)
      ∧ (∃ r, step (hostDoes State.reset [.writePkt 2048 0]) = .refused r)
      ∧ (∃ r, step (hostDoes State.reset [.readUnit 96]) = .refused r)
      ∧ answers (step (hostDoes State.reset [.readCsr 0xFC 32])) (fun t => t.hostData == 0) = true
      ∧ answers (step (hostDoes State.reset [.writePkt 2047 0])) (fun t => t.pktWritten 2047) = true :=
  ⟨⟨_, rfl⟩, ⟨_, rfl⟩, ⟨_, rfl⟩, ⟨_, rfl⟩, ⟨_, rfl⟩, by decide, by decide⟩
end

section
/-! PROOFS. The kind of an identifier pair in terms of its two data bytes (R88, R93). -/

namespace Sys2Proof.Machine

/-- The comparison of R152, stated with the data bytes of R93. -/
theorem isCdpPair_iff_dataByte (d e : AncWord10) :
    isCdpPair d e = true ↔ dataByte d = 0x61 ∧ dataByte e = 0x01 := by
  simp [isCdpPair, dataByte]

theorem isCdpId_iff_mask (k : UnitId) : isCdpId k = true ↔ k &&& 0x3FCFF#20 = 0x18401#20 := by
  simp only [isCdpId, beq_iff_eq]

/-- The decoder of R88 on a pair given as its two words. -/
theorem decodeUnitId_append (d e : AncWord10) :
    decodeUnitId (d ++ e) =
      if isCdpPair d e then .cdpUnit (d.extractLsb' 8 2) (e.extractLsb' 8 2) else .otherUnit d e := by
  simp only [decodeUnitId, isCdpId_append, didOfId_append, sdidOfId_append]

/-- Settles O5: the mask and match of R88 are `isCdpPair` of the two words (`isCdpId_append`), which is a
comparison of their data bytes, and the decoder branches on it. -/
theorem unitKindByDataBytes : Obligations.UnitKindByDataBytes := by
  intro d e
  constructor
  · rw [← isCdpId_iff_mask, isCdpId_append, isCdpPair_iff_dataByte]
  · simp only [decode, decodeUnitId_append, isCdpPair_iff_dataByte]

end Sys2Proof.Machine
end

section
/-! PROOFS. The bit reader: where `READ_BITS` runs out of bits (R127), and the split law (R129). -/

namespace Sys2Proof.Machine

/-! ### `READ_BITS` out of bits -/

theorem illegalWidth_eq_false {n : BitVec 6} : illegalWidth n = false ↔ 1 ≤ n.toNat ∧ n.toNat ≤ 32 := by
  rw [illegalWidth_eq, decide_eq_false_iff_not, BitVec.toNat_eq,
    show (0 : BitVec 6).toNat = 0 from rfl]
  omega

/-- A `READ_BITS` whose operands are legal is the read at the debug cursor (R125, R126). -/
theorem exec_readBits_of_legal {n : BitVec 6} {s : State} (h1 : 1 ≤ n.toNat) (h32 : n.toNat ≤ 32)
    (hl : LenLegal s) :
    exec (.readBits n) s = debugCommand false (readBits s (debugSlice s) s.argCursor.toNat n.toNat)
      (fun (v, c) => ((s.setDbg (BitVec.ofNat 32 v)).setCursor c).respond (Resp.only .ok)) s := by
  have hbad : (illegalWidth n || lenTooLong s) = false := by
    rw [illegalWidth_eq_false.2 ⟨h1, h32⟩, lenTooLong_eq_false.2 hl, Bool.or_self]
  rw [← hbad]
  rfl

/-- Settles O29: the operands are legal, so the command is its read, which is exhausted (`readBits_exhausted`). -/
theorem readBitsExhausted : Obligations.ReadBitsExhausted := by
  intro n s h1 h32 hl hshort
  have hread : readBits s (debugSlice s) s.argCursor.toNat n.toNat = .error .exhausted := by
    rw [readBits_exhausted]
    simp only [debugSlice]
    omega
  rw [exec_readBits_of_legal h1 h32 hl, hread, debugCommand_exhausted, State.failCommand_exhausted]

/-! ### The split law -/

/-- Two runs of bits that follow each other in the slice are one run. -/
theorem bitsAt_append_iff {s : State} {sl : Slice} {c : Nat} {a b : List Bool} :
    BitsAt s sl c (a ++ b) ↔ BitsAt s sl c a ∧ BitsAt s sl (c + a.length) b := by
  refine ⟨BitsAt.append, fun ⟨⟨_, ha⟩, ⟨hb, hb'⟩⟩ => ⟨by simp; omega, fun j hj => ?_⟩⟩
  by_cases h : j < a.length
  · rw [List.getElem_append_left h, ha j h]
  · have hlen : j - a.length < b.length := by simp at hj; omega
    rw [List.getElem_append_right (by omega), ← hb' _ hlen, show c + a.length + (j - a.length) = c + j by omega]

/-- A read that answers is a run of bits in the slice, and its value is the number they spell. -/
theorem readBits_eq_ok_iff {s : State} {sl : Slice} {c n v c' : Nat} :
    readBits s sl c n = .ok (v, c') ↔
      c' = c + n ∧ ∃ bits : List Bool, bits.length = n ∧ v = bitsOnto 0 bits ∧ BitsAt s sl c bits := by
  constructor
  · intro h
    obtain ⟨hc, hl, bits, hn, hv, hbits⟩ := readBits_eq_ok h
    exact ⟨hc, bits, hn, hv, by omega, hbits⟩
  · rintro ⟨rfl, bits, rfl, rfl, hl, hbits⟩
    exact readBits_of_bits hl hbits

theorem readBits_lt {s : State} {sl : Slice} {c n v c' : Nat} (h : readBits s sl c n = .ok (v, c')) : v < 2 ^ n := by
  obtain ⟨-, bits, rfl, rfl, -⟩ := readBits_eq_ok_iff.1 h
  exact bitsOnto_lt bits

/-- A read of `n1 + n2` bits answers exactly when a read of `n1` bits and one of the next `n2` do, and its value is
theirs side by side: the bits of the long read are those of the two short ones in a row. -/
theorem readBits_add_eq_ok_iff {s : State} {sl : Slice} {c n1 n2 v c' : Nat} :
    readBits s sl c (n1 + n2) = .ok (v, c') ↔
      ∃ v1 v2, readBits s sl c n1 = .ok (v1, c + n1) ∧ readBits s sl (c + n1) n2 = .ok (v2, c')
        ∧ v = v1 * 2 ^ n2 + v2 := by
  constructor
  · intro h
    obtain ⟨rfl, bits, hn, rfl, hbits⟩ := readBits_eq_ok_iff.1 h
    have h1 : (bits.take n1).length = n1 := by simp; omega
    have h2 : (bits.drop n1).length = n2 := by simp; omega
    rw [← List.take_append_drop n1 bits, bitsAt_append_iff, h1] at hbits
    refine ⟨_, _, readBits_eq_ok_iff.2 ⟨rfl, _, h1, rfl, hbits.1⟩,
      readBits_eq_ok_iff.2 ⟨by omega, _, h2, rfl, hbits.2⟩, ?_⟩
    conv_lhs => rw [← List.take_append_drop n1 bits, bitsOnto_append, bitsOnto_eq, h2]
  · rintro ⟨v1, v2, h1, h2, rfl⟩
    obtain ⟨-, a, rfl, rfl, ha⟩ := readBits_eq_ok_iff.1 h1
    obtain ⟨rfl, b, rfl, rfl, hb⟩ := readBits_eq_ok_iff.1 h2
    exact readBits_eq_ok_iff.2 ⟨by omega, a ++ b, List.length_append,
      by rw [bitsOnto_append, bitsOnto_eq (bitsOnto 0 a)], bitsAt_append_iff.2 ⟨ha, hb⟩⟩

/-- The shift and the mask of R129 take two numbers set side by side apart, and the shift and the union put them
together. -/
theorem sideBySide_parts {x y n : Nat} (hy : y < 2 ^ n) :
    x = (x * 2 ^ n + y) >>> n ∧ y = (x * 2 ^ n + y) &&& (2 ^ n - 1) ∧ x * 2 ^ n + y = (x <<< n) ||| y := by
  refine ⟨?_, ?_, ?_⟩
  · rw [Nat.shiftRight_eq_div_pow, Nat.add_comm, Nat.add_mul_div_right _ _ (Nat.two_pow_pos n),
      Nat.div_eq_of_lt hy, Nat.zero_add]
  · rw [Nat.and_two_pow_sub_one_eq_mod, Nat.mul_add_mod_self_right, Nat.mod_eq_of_lt hy]
  · rw [← Nat.shiftLeft_add_eq_or_of_lt hy, Nat.shiftLeft_eq]

/-- Settles O30: the long read answers exactly when the two short ones do, with their values side by side
(`readBits_add_eq_ok_iff`), and a read is exhausted exactly when its bits are not left (`readBits_exhausted`). -/
theorem splitLaw : Obligations.SplitLaw := by
  intro s sl c n1 n2 h1 h2 _
  refine ⟨fun v v1 v2 hv1 hv2 hv => ?_, fun v hv => ?_, fun hshort => ⟨?_, fun hk => ?_, fun hk => ⟨?_, ?_⟩⟩⟩
  · have hsum := hv.symm.trans (readBits_add_eq_ok_iff.2 ⟨v1, v2, hv1, hv2, rfl⟩)
    obtain rfl : v = v1 * 2 ^ n2 + v2 := by simpa using hsum
    exact sideBySide_parts (readBits_lt hv2)
  · obtain ⟨v1, v2, hv1, hv2, -⟩ := readBits_add_eq_ok_iff.1 hv
    exact ⟨v1, v2, hv1, by rw [hv2, Nat.add_assoc]⟩
  · rw [readBits_exhausted]; omega
  · rw [readBits_exhausted]; omega
  · rw [Ne, readBits_exhausted]; omega
  · rw [readBits_exhausted]; omega

end Sys2Proof.Machine
end

section
/-! PROOFS. The ANC word decoder: the data byte as a function of the raw word (R93, R140, R144). -/

namespace Sys2Proof.Machine

theorem toNat_dataByte (w : AncWord10) : (dataByte w).toNat = w.toNat % 256 := by
  simp [dataByte, BitVec.extractLsb'_toNat]

/-- A decoded word's data byte is that of its raw word, and nothing else of the slice or the state enters it. -/
theorem data_eq_dataByte_of_decodeAncWord {s : State} {sl : Slice} {c : Nat} {d : DecodedWord}
    (h : decodeAncWord s sl c = .ok d) : d.data = dataByte d.raw := by
  obtain ⟨-, -, hdata, -⟩ := decodeAncWord_eq_ok h
  exact hdata

/-- Settles O34: the data byte is `dataByte` of the raw word, whichever slice and state it was decoded from
(`data_eq_dataByte_of_decodeAncWord`), and that is the word modulo 256 (`toNat_dataByte`). -/
theorem dataByteRange : Obligations.DataByteRange := by
  intro s sl c d hd
  have hdata := data_eq_dataByte_of_decodeAncWord hd
  obtain ⟨hnext, -⟩ := decodeAncWord_eq_ok hd
  refine ⟨Nat.le_of_lt_succ d.data.isLt, ?_, hnext, fun s' sl' c' d' hd' hlow => ?_⟩
  · rw [hdata, toNat_dataByte]
  · calc d.data = dataByte d.raw := hdata
      _ = dataByte d'.raw := hlow
      _ = d'.data := (data_eq_dataByte_of_decodeAncWord hd').symm

end Sys2Proof.Machine
end

section
/-! PROOFS. The extractor: a CDP unit laid out in a slice is read back field by field (R150 to R155, R162), what
`EXTRACT_UNIT` does with it (R160), and what it does where the unit runs out of bits (R161). -/

namespace Sys2Proof.Machine

/-! ### `EXTRACT_UNIT` by what its extraction gives -/

/-- An `EXTRACT_UNIT` whose length is legal is the extraction at the debug cursor (R126, R160). -/
theorem exec_extractUnit_of_legal {s : State} (hl : LenLegal s) :
    exec .extractUnit s = debugCommand false (extractAncUnit s (debugSlice s) s.argCursor.toNat)
      (afterExtract s) s := by
  rw [exec_unit s (.inl rfl), lenTooLong_eq_false.2 hl]
  rfl

theorem exec_extractUnit_of_ok {s : State} {u : AncUnit} (hl : LenLegal s)
    (h : extractAncUnit s (debugSlice s) s.argCursor.toNat = .ok u) :
    exec .extractUnit s = .next (afterExtract s u) := by
  rw [exec_extractUnit_of_legal hl, h, debugCommand_ok]

/-- Settles O38: the length is legal, so the command is its extraction, which is exhausted. -/
theorem extractExhausted : Obligations.ExtractExhausted := by
  intro s hl hshort
  rw [exec_extractUnit_of_legal hl, hshort, debugCommand_exhausted, State.failCommand_exhausted]

/-! ### The identifier words -/

/-- The identifier bits of a CDP unit are those of two ANC words (R88). -/
theorem cdpIdBits_eq (didHi sdidHi : BitVec 2) :
    cdpIdBits didHi sdidHi = msbBits (didHi ++ 0x61#8 : AncWord10) ++ msbBits (sdidHi ++ 0x01#8 : AncWord10) := by
  simp only [cdpIdBits, msbBits_append, List.append_assoc]

@[simp] theorem length_cdpIdBits (didHi sdidHi : BitVec 2) : (cdpIdBits didHi sdidHi).length = 20 := by
  simp [cdpIdBits]

theorem dataByte_append (hi : BitVec 2) (b : Byte) : dataByte (hi ++ b : AncWord10) = b :=
  BitVec.extractLsb'_append_eq_right

/-- The pair of identifier words is a CDP pair whatever its bits 9:8 are (R141, R152). -/
theorem isCdpId_of_idWords (didHi sdidHi : BitVec 2) :
    isCdpId ((didHi ++ 0x61#8 : AncWord10) ++ (sdidHi ++ 0x01#8 : AncWord10)) = true := by
  rw [isCdpId_append, isCdpPair_iff_dataByte, dataByte_append, dataByte_append]
  exact ⟨rfl, rfl⟩

/-- With a CDP unit's identifier words at the cursor, the unit is the CDP body after them (R152). -/
theorem extractAncUnit_of_cdpIdBits {s : State} {sl : Slice} {c : Nat} {didHi sdidHi : BitVec 2}
    (h : BitsAt s sl c (cdpIdBits didHi sdidHi)) : extractAncUnit s sl c = cdpUnitBody s sl (c + 20) := by
  rw [cdpIdBits_eq, bitsAt_append_iff, length_msbBits] at h
  obtain ⟨hdid, hsdid⟩ := h
  rw [extractAncUnit_of_ids (decodeAncWord_of_field _ hdid) (decodeAncWord_of_field _ hsdid),
    if_pos (isCdpId_of_idWords didHi sdidHi)]

/-! ### The body -/

/-- The count in the data byte of the caption-count word is the one in the word itself (R90, R154). -/
theorem captionCount_dataByte (w : AncWord10) : captionCount (dataByte w) = (w.extractLsb' 0 5).toNat := by
  simp only [captionCount, dataByte, BitVec.extractLsb'_toNat]
  omega

/-- The body of a CDP unit, its fields laid out after 20 bits of identifier words, is read back field by field: each
read takes the field that stands at its cursor (R153 to R155, R157). -/
theorem cdpUnitBody_of_bits {s : State} {sl : Slice} {c : Nat} {f : CdpFields} (hf : f.Counted)
    (h : BitsAt s sl (c + 20) f.bits) : cdpUnitBody s sl (c + 20) = .ok (f.unit c) := by
  simp only [CdpFields.bits, List.append_assoc, bitsAt_append_iff, length_msbBits] at h
  obtain ⟨hdc, hid0, hid1, hlen, hrate, hflags, hcomp, hccw, hcap⟩ := h
  have hcount : 3 * captionCount (dataByte f.ccw) = f.captions.length := by rw [captionCount_dataByte, hf]
  have hend : c + 20 + 10 + 10 + 10 + 10 + 10 + 10 + 20 + 10 + 10 * f.captions.length
      = c + 110 + 30 * (f.ccw.extractLsb' 0 5).toNat := by rw [hf]; omega
  have hwords := captionWords_of_fields f.captions _ (Nat.le_of_add_right_le hcap.1) hcap
  simp only [cdpUnitBody, decodeAncWord_of_field _ hdc, decodeAncWord_of_field _ hid0,
    decodeAncWord_of_field _ hid1, decodeAncWord_of_field _ hlen, decodeAncWord_of_field _ hrate,
    decodeAncWord_of_field _ hflags, readBits_of_field _ hcomp, decodeAncWord_of_field _ hccw, ok_bind, hcount,
    hwords, hend, BitVec.ofNat_toNat, BitVec.setWidth_eq]
  rfl

/-- Reading inverts layout (R162): a CDP unit of any fields, laid out from any bit of any slice, is extracted as
those fields. -/
theorem extractAncUnit_of_bits {s : State} {sl : Slice} {c : Nat} {didHi sdidHi : BitVec 2} {f : CdpFields}
    (hf : f.Counted) (h : BitsAt s sl c (cdpIdBits didHi sdidHi ++ f.bits)) :
    extractAncUnit s sl c = .ok (f.unit c) := by
  rw [bitsAt_append_iff, length_cdpIdBits] at h
  obtain ⟨hid, hbody⟩ := h
  rw [extractAncUnit_of_cdpIdBits hid, cdpUnitBody_of_bits hf hbody]

/-! ### The bytes in `UNIT_BUF` -/

/-- A successful extraction leaves the unit's bytes where the host reads them (R64, R160): `UNIT_LEN` has 7 bits,
and a unit's bytes fit it. -/
theorem unitByte_afterExtract {s : State} {u : AncUnit} (hu : u.bytes.length < 128) {j : Nat}
    (hj : j < u.bytes.length) : unitByte (afterExtract s u) j = u.bytes[j] := by
  have hlen : (afterExtract s u).unitLen.toNat = u.bytes.length := Nat.mod_eq_of_lt hu
  have hread : (afterExtract s u).unitBuf.read j = some u.bytes[j] := by
    have := Memory.read_writeRange_inside s.unitBuf 0 u.bytes hj
    rwa [Nat.zero_add] at this
  rw [unitByte, hlen, if_pos hj, hread, Option.getD_some]

/-- A unit's caption words number at most 93 (R91, R92). -/
theorem CdpFields.Counted.length_le {f : CdpFields} (hf : f.Counted) : f.captions.length ≤ 93 := by
  have hcount := (f.ccw.extractLsb' 0 5).isLt
  rw [hf]
  omega

/-- Settles O35: the extraction reads back the fields (`extractAncUnit_of_bits`), so the command leaves
`afterExtract` of them, and the host reads their caption bytes (`unitByte_afterExtract`). -/
theorem cdpUnitRoundTrip : Obligations.CdpUnitRoundTrip := by
  intro s didHi sdidHi f hf
  refine ⟨fun sl c h => extractAncUnit_of_bits hf h, fun hl h =>
    ⟨exec_extractUnit_of_ok hl (extractAncUnit_of_bits hf h), fun j hj => ?_⟩⟩
  have hbytes : (f.unit s.argCursor.toNat).bytes = f.captions.map dataByte := rfl
  have hlen : (f.unit s.argCursor.toNat).bytes.length = f.captions.length := by rw [hbytes, List.length_map]
  have hfit := hf.length_le
  rw [unitByte_afterExtract (by omega) (by omega)]
  exact List.getElem_map dataByte

end Sys2Proof.Machine
end

section
/-! PROOFS. The packet that ends with an error and an open frame (R188, R192), and the allocation of an open (R186). -/

namespace Sys2Proof.Machine

/-! ### Exhaustion -/

/-- A packet that runs out of bits keeps its frame open, so its end honours the marker (R188, R192, R193). -/
theorem packetEnd_exhausted {m : Bool} {s : State} {r : PacketRun} (h : r.st.status = .accumulating)
    (hm : r.mark = false) (hs : r.stale = decide (Discontinuity s)) (hn : r.nemit = (staleRecords s).length) :
    packetEnd m (packetError r .exhausted) =
      (let t := { r.st with cntExhausted := r.st.cntExhausted + 1 }
       { afterMarker m t with resp := packetResponse m s t (.error .exhausted) r.nunits r.count }) := by
  rw [packetEnd_open (s := s) (r := packetError r .exhausted) (by simpa [packetError] using h) hm hs hn]
  rfl

theorem afterOpen_cntExhausted (s : State) : (afterOpen s).cntExhausted = s.cntExhausted := by
  rw [afterOpen_eq]

theorem afterUnits_cntExhausted (s : State) (us : List AncUnit) :
    (afterUnits s us).cntExhausted = s.cntExhausted := by
  rw [afterUnits_eq]

theorem afterUnits_status (s : State) (us : List AncUnit) : (afterUnits s us).status = .accumulating := by
  rw [afterUnits_eq]

/-- The run of a packet once its frame is open (R184, R185); `packetOpen_ok` says that it is phases 1 and 2. -/
def openedRun (s : State) : PacketRun :=
  { packetStart s with
    st := afterOpen s, stale := decide (Discontinuity s), nemit := (staleRecords s).length }

/-- The body of a packet whose payload does not reach the end of its header reads nothing (R188). -/
theorem packetBody_of_short {s : State} (ha : OpensFrame s → s.allocOk = true)
    (hh : s.argLen.toNat < s.argHdrLen.toNat) :
    packetBody s = .ok (packetError (openedRun s) .exhausted) := by
  have hlen : ¬ s.argHdrLen ≤ s.argLen := by rw [BitVec.le_def]; omega
  rw [packetBody, packetOpen_ok ha]
  simp only [packetUnits, hlen, false_and, if_false, packetStart, if_true, openedRun]

/-- Settles O51: the body records the exhaustion on the opened frame (`packetBody_of_short`), and the end honours the
marker (`packetEnd_exhausted`). -/
theorem packetShorterThanHeader : Obligations.PacketShorterThanHeader := by
  intro m s hl ha hh t
  change execProcessPacket m s = _
  rw [execProcessPacket_of_legal hl, packetBody_of_short ha hh]
  simp only
  rw [packetEnd_exhausted (s := s) (r := openedRun s) (afterOpen_status s) rfl rfl rfl]
  simp only [openedRun, packetStart, afterOpen_cntExhausted]
  rfl

/-- The loop over units that decode and fit, with a unit after them that runs out of bits (R192). -/
theorem unitLoop_of_exhausted {s : State} {sl : Slice} {k n c : Nat} {r : PacketRun} {us : List AncUnit}
    (hs : SameReads s r.st) (hk : k < n) (hu : unitsFrom s sl k c = .ok us)
    (hx : extractAncUnit s sl (unitsEnd c us) = .error .exhausted)
    (hf : r.st.wrOff.toNat + (captionBytes us).length ≤ s.cfg.cap.toNat) :
    unitLoop sl n c r = .ok (packetError (acceptAll r us) .exhausted) := by
  obtain ⟨j, rfl⟩ : ∃ j, n = k + (j + 1) := ⟨n - k - 1, by omega⟩
  rw [unitLoop_of_units hs hu hf, unitLoop, (hs.acceptAll us).extract, hx]

/-- Settles O48: the loop accepts the units before the one that runs out (`unitLoop_of_exhausted`), which is
`afterUnits`, and the end honours the marker (`packetEnd_exhausted`). -/
theorem packetExhaustedUnit : Obligations.PacketExhaustedUnit := by
  intro m s count k us hl ha hh hc hk hu hx hf t
  change execProcessPacket m s = _
  rw [execProcessPacket_of_legal hl, packetBody_of_count ha hh hc,
    unitLoop_of_exhausted (afterOpen_sameReads s) hk hu hx (by rw [afterOpen_wrOff]; exact hf)]
  have hlen := unitsFrom_length hu
  simp only
  rw [packetEnd_exhausted (s := s) (afterUnits_status s us) rfl rfl rfl]
  simp only [acceptAll, packetStart, hlen, Nat.zero_add, ← afterUnits_eq_appendBytes, afterUnits_cntExhausted]
  rfl

/-! ### Allocation -/

theorem afterDiscontinuity_cntAlloc (s : State) : (afterDiscontinuity s).cntAlloc = s.cntAlloc := by
  unfold afterDiscontinuity; split <;> rfl

theorem afterMarker_cntAlloc (m : Bool) (t : State) : (afterMarker m t).cntAlloc = t.cntAlloc := by
  cases m <;> rfl

theorem markerResult_ne_error (m : Bool) (t : State) (e : ErrorCode) : markerResult m t ≠ .error e := by
  unfold markerResult; split_ifs <;> simp

/-- The body of a packet whose open fails its draw stops there (R186). -/
theorem packetBody_of_alloc {s : State} (ho : OpensFrame s) (ha : s.allocOk = false) :
    packetBody s = .ok (packetError { packetStart s with
      st := afterDiscontinuity s, stale := decide (Discontinuity s), nemit := (staleRecords s).length } .alloc) := by
  rw [packetBody, packetOpen_alloc ho ha]
  simp only [packetUnits, packetError, reduceCtorEq, and_false, if_false]

/-- A packet whose open fails leaves the discontinuity's machine, the error counted (R186). -/
theorem execProcessPacket_of_alloc {m : Bool} {s : State} (hl : PacketLegal s) (ho : OpensFrame s)
    (ha : s.allocOk = false) : execProcessPacket m s = .next { afterDiscontinuity s with
      cntAlloc := s.cntAlloc + 1
      resp :=
        { result := .error .alloc, stale := decide (Discontinuity s), mark := false
          nemit := BitVec.ofNat 2 (staleRecords s).length, nunits := 0, ancCount := 0 } } := by
  rw [execProcessPacket_of_legal hl, packetBody_of_alloc ho ha]
  simp only
  rw [packetEnd_idle (e := .alloc) (by simpa [packetError] using afterDiscontinuity_idle.2 ho) rfl rfl,
    ← afterDiscontinuity_cntAlloc s]
  rfl

/-- A legal packet that opens no frame, or whose open succeeds, reports and counts no allocation failure. -/
theorem execProcessPacket_no_alloc {m : Bool} {s t : State} (hl : PacketLegal s)
    (ha : OpensFrame s → s.allocOk = true) (h : execProcessPacket m s = .next t) :
    t.resp.result ≠ .error .alloc ∧ t.cntAlloc = s.cntAlloc := by
  rcases execProcessPacket_cases h with ⟨hn, -⟩ | ⟨-, ho, hf, -⟩ | ⟨-, -, -, v, rfl, rfl⟩ |
    ⟨-, -, -, count, k, us, -, -, -, -, ⟨-, rfl⟩ | ⟨-, -, v, rfl, rfl⟩ | ⟨u, v, -, -, -, rfl, rfl⟩⟩
  · exact absurd hl hn
  · rw [ha ho] at hf; cases hf
  · exact ⟨by simp [packetResponse], by simp only [afterMarker_cntAlloc]; rw [afterOpen_eq]⟩
  · exact ⟨markerResult_ne_error m _ _, by simp only [afterMarker_cntAlloc]; rw [afterUnits_eq]⟩
  · exact ⟨by simp [packetResponse], by simp only [afterMarker_cntAlloc]; rw [afterUnits_eq]⟩
  · exact ⟨by simp, by simp only [captured]; rw [afterUnits_eq]⟩

/-- Settles O50, for either value of the draw: where the frame may open by `execProcessPacket_no_alloc`, and where its
open fails by `execProcessPacket_of_alloc`. -/
theorem packetAllocationFailure : Obligations.PacketAllocationFailure := by
  intro m s hl
  split
  · rename_i ha
    exact fun t h => execProcessPacket_no_alloc hl ha h
  · rename_i hn
    obtain ⟨ho, hf⟩ := Classical.not_imp.1 hn
    exact execProcessPacket_of_alloc hl ho (Bool.eq_false_iff.2 hf)

end Sys2Proof.Machine
end

section
/-! PROOFS. The records a command appends, and how it counts them (R43, R195). -/

namespace Sys2Proof.Machine

/-! ### The debug commands and the units -/

/-- From `s` to `t` a command that is about no frame has run: it counts no record in `RESP`, and changes only the debug
registers, the captured unit, `RESP` and the two counters of its errors (R127, R160, R161, R234). -/
def DebugChange (s t : State) : Prop :=
  t.resp.nemit = 0 ∧ t = { s with
    argCursor := t.argCursor, resp := t.resp, dbgValue := t.dbgValue, unitLen := t.unitLen, unitBuf := t.unitBuf
    lastUnit := t.lastUnit, lastCdpA := t.lastCdpA, lastCdpB := t.lastCdpB, lastCdpC := t.lastCdpC
    cntExhausted := t.cntExhausted, cntBadcmd := t.cntBadcmd }

theorem debugChange_badCmd (s : State) : DebugChange s (s.failCommand .badCmd) := ⟨rfl, rfl⟩

/-- A debug command changes what its failures do or what it does with the value read. -/
theorem debugCommand_change {α : Type} {bad : Bool} {r : Except ReadStop α} {done : α → State} {s t : State}
    (hd : ∀ v, DebugChange s (done v)) (h : debugCommand bad r done s = .next t) : DebugChange s t := by
  rcases debugCommand_cases h with ⟨-, rfl⟩ | ⟨-, -, rfl⟩ | ⟨-, v, -, rfl⟩
  · exact debugChange_badCmd s
  · exact ⟨rfl, rfl⟩
  · exact hd v

theorem exec_unit_change {i : Instr} {s t : State}
    (hi : i = .extractUnit ∨ (∃ a b, i = .cdpUnit a b) ∨ (∃ d e, i = .otherUnit d e))
    (h : exec i s = .next t) : DebugChange s t := by
  rw [exec_unit s hi] at h
  exact debugCommand_change (fun _ => ⟨rfl, rfl⟩) h

/-- Every instruction but the three of the reassembler makes such a change (R125, R143, R160). -/
theorem exec_debug_change {i : Instr} {s t : State} (hp : ∀ m, i ≠ .processPacket m) (hf : i ≠ .forceFinalize)
    (hr : i ≠ .softReset) (h : exec i s = .next t) : DebugChange s t := by
  cases i with
  | processPacket m => exact absurd rfl (hp m)
  | forceFinalize => exact absurd rfl hf
  | softReset => exact absurd rfl hr
  | readBits n => exact debugCommand_change (fun _ => ⟨rfl, rfl⟩) h
  | decodeWord => exact debugCommand_change (fun _ => ⟨rfl, rfl⟩) h
  | extractUnit => exact exec_unit_change (.inl rfl) h
  | cdpUnit a b => exact exec_unit_change (.inr (.inl ⟨a, b, rfl⟩)) h
  | otherUnit d e => exact exec_unit_change (.inr (.inr ⟨d, e, rfl⟩)) h

/-! ### Emissions -/

/-- From `s` to `t` the records `rs` are appended, and counted in `CNT_FRAMES` and `RESP.NEMIT`. -/
structure Emits (s t : State) (rs : List OutRecord) : Prop where
  out : t.out = s.out ++ rs
  frames : t.cntFrames = s.cntFrames + BitVec.ofNat 32 rs.length
  nemit : t.resp.nemit = BitVec.ofNat 2 rs.length

/-- At most two records, and of two the `STALE` one first (R195). -/
def StaleFirst (rs : List OutRecord) : Prop :=
  rs.length ≤ 2
    ∧ ∀ r₁ r₂, rs = [r₁, r₂] → r₁.kind = .stale ∧ (r₂.kind = .complete ∨ r₂.kind = .overflow)

theorem StaleFirst.of_length_le_one {rs : List OutRecord} (h : rs.length ≤ 1) : StaleFirst rs :=
  ⟨by omega, fun _ _ he => by simp [he] at h⟩

/-- A finalize appends nothing or one record of its kind (R182). -/
theorem finalRecord_eq_nil_or (k : RecordKind) (s : State) :
    finalRecord k s = [] ∨ ∃ r, finalRecord k s = [r] ∧ r.kind = k := by
  unfold finalRecord
  split
  · exact .inl rfl
  · exact .inr ⟨_, rfl, rfl⟩

theorem staleRecords_eq_nil_or (s : State) :
    staleRecords s = [] ∨ ∃ r, staleRecords s = [r] ∧ r.kind = .stale := by
  unfold staleRecords
  split
  · exact finalRecord_eq_nil_or .stale s
  · exact .inl rfl

/-- A discontinuity's finalize comes before the packet's own, by the marker or an overflow (R184, R191, R193). -/
theorem StaleFirst.stale_append_final (s v : State) {k : RecordKind} (hk : k = .complete ∨ k = .overflow) :
    StaleFirst (staleRecords s ++ finalRecord k v) := by
  rcases staleRecords_eq_nil_or s with ha | ⟨a, ha, hka⟩
  · rw [ha]; exact .of_length_le_one (finalRecord_length_le k v)
  rcases finalRecord_eq_nil_or k v with hb | ⟨b, hb, rfl⟩
  · rw [hb, List.append_nil]; exact .of_length_le_one (staleRecords_length_le s)
  rw [ha, hb]
  refine ⟨Nat.le_refl 2, fun r₁ r₂ he => ?_⟩
  obtain ⟨rfl, rfl⟩ : a = r₁ ∧ b = r₂ := by simpa using he
  exact ⟨hka, hk⟩

/-- A command that is about no frame emits nothing (R31, R195). -/
theorem DebugChange.emits {s t : State} (h : DebugChange s t) : Emits s t [] := by
  obtain ⟨hn, ht⟩ := h
  exact ⟨by rw [ht]; simp, by rw [ht]; simp, by rw [hn]; rfl⟩

theorem execForceFinalize_emits {s t : State} (h : execForceFinalize s = .next t) :
    ∃ rs, Emits s t rs ∧ StaleFirst rs := by
  rw [execForceFinalize_eq, Host.Outcome.next.injEq] at h
  split at h
  · subst h
    exact ⟨[], ⟨by simp, by simp, rfl⟩, .of_length_le_one (by simp)⟩
  · subst h
    refine ⟨finalRecord .forced s, ⟨rfl, rfl, ?_⟩, .of_length_le_one (finalRecord_length_le _ _)⟩
    rw [finalRecord_length]
    cases s.hasBytes <;> rfl

/-! ### Emissions of a packet -/

/-- The discontinuity's records are in `OUT` and counted (R184). -/
structure StaleEmitted (s v : State) : Prop where
  out : v.out = s.out ++ staleRecords s
  frames : v.cntFrames = s.cntFrames + BitVec.ofNat 32 (staleRecords s).length

theorem afterDiscontinuity_staleEmitted (s : State) : StaleEmitted s (afterDiscontinuity s) := by
  unfold afterDiscontinuity
  split
  · exact ⟨rfl, rfl⟩
  · rename_i h
    exact ⟨by simp [staleRecords, h], by simp [staleRecords, h]⟩

theorem afterOpen_staleEmitted (s : State) : StaleEmitted s (afterOpen s) := by
  rw [afterOpen_eq]; exact ⟨rfl, rfl⟩

theorem afterUnits_staleEmitted (s : State) (us : List AncUnit) : StaleEmitted s (afterUnits s us) := by
  rw [afterUnits_eq]; exact ⟨rfl, rfl⟩

theorem StaleEmitted.set_cntExhausted {s v : State} (h : StaleEmitted s v) (c : Word) :
    StaleEmitted s { v with cntExhausted := c } := ⟨h.out, h.frames⟩

/-- A packet that ends with the open frame `v` appends the discontinuity's records and then the marker's. -/
theorem StaleEmitted.marker {s v : State} (h : StaleEmitted s v) (m : Bool) (r : Result) (n : Nat) (c : Byte) :
    ∃ rs, Emits s { afterMarker m v with resp := packetResponse m s v r n c } rs ∧ StaleFirst rs := by
  cases m with
  | false => exact ⟨staleRecords s, ⟨h.out, h.frames, rfl⟩, .of_length_le_one (staleRecords_length_le s)⟩
  | true =>
    refine ⟨staleRecords s ++ finalRecord .complete v, ⟨?_, ?_, ?_⟩, .stale_append_final s v (.inl rfl)⟩
    · simp [afterMarker, h.out]
    · simp [afterMarker, h.frames, BitVec.ofNat_add, BitVec.add_assoc]
    · simp [packetResponse, markerCount]

theorem execProcessPacket_emits {m : Bool} {s t : State} (h : execProcessPacket m s = .next t) :
    ∃ rs, Emits s t rs ∧ StaleFirst rs := by
  rcases execProcessPacket_cases h with ⟨-, rfl⟩ | ⟨-, -, -, rfl⟩ | ⟨-, -, -, v, rfl, rfl⟩ |
    ⟨-, -, -, count, k, us, -, -, -, -, ⟨-, rfl⟩ | ⟨-, -, v, rfl, rfl⟩ | ⟨u, v, -, -, -, rfl, rfl⟩⟩
  · exact ⟨[], (debugChange_badCmd s).emits, .of_length_le_one (by simp)⟩
  · have hs := afterDiscontinuity_staleEmitted s
    exact ⟨staleRecords s, ⟨hs.out, hs.frames, rfl⟩, .of_length_le_one (staleRecords_length_le s)⟩
  · exact ((afterOpen_staleEmitted s).set_cntExhausted _).marker ..
  · exact (afterUnits_staleEmitted s us).marker ..
  · exact ((afterUnits_staleEmitted s us).set_cntExhausted _).marker ..
  · have hs := afterUnits_staleEmitted s us
    refine ⟨staleRecords s ++ finalRecord .overflow (captured (afterUnits s us) u), ⟨?_, ?_, ?_⟩,
      .stale_append_final s _ (.inr rfl)⟩
    · simp [captured, hs.out]
    · simp [captured, hs.frames, BitVec.ofNat_add, BitVec.add_assoc]
    · simp

theorem exec_emits {i : Instr} {s t : State} (hi : i ≠ .softReset) (h : exec i s = .next t) :
    ∃ rs, Emits s t rs ∧ StaleFirst rs := by
  by_cases hp : ∃ m, i = .processPacket m
  · obtain ⟨m, rfl⟩ := hp
    exact execProcessPacket_emits h
  by_cases hf : i = .forceFinalize
  · subst hf
    exact execForceFinalize_emits h
  exact ⟨[], (exec_debug_change (fun m hm => hp ⟨m, hm⟩) hf hi h).emits, .of_length_le_one (by simp)⟩

/-- Settles O20: the records of `exec_emits`, whose number fits the two bits of `NEMIT`. -/
theorem emissionsAreCounted : Obligations.EmissionsAreCounted := by
  intro i s t hi h
  obtain ⟨rs, ⟨hout, hframes, hnemit⟩, hle, hpair⟩ := exec_emits hi h
  refine ⟨rs, hout, ?_, hle, hframes, hpair⟩
  rw [hnemit, BitVec.toNat_ofNat, Nat.mod_eq_of_lt (by omega)]

end Sys2Proof.Machine
end

section
/-! PROOFS. The concatenation law (R197): what the open frame holds, operation by operation, along a run of the
machine. -/

namespace Sys2Proof.Machine

/-! ### What the open frame holds -/

/-- The frame of `ts` is open and holds the bytes `bs`, all of them stored, and `OUT` is `out`. -/
structure HoldsFrame (ts : Word) (out : List OutRecord) (s : State) (bs : List Byte) : Prop where
  status : s.status = .accumulating
  curTs : s.curTs = ts
  out : s.out = out
  wrOff : s.wrOff.toNat = bs.length
  stored : ∀ (j : Nat) (h : j < bs.length), s.accBuf.read j = some bs[j]

variable {ts : Word} {out : List OutRecord} {s t : State} {bs cs : List Byte}

theorem HoldsFrame.of_eq (h : HoldsFrame ts out s bs) (h₁ : t.status = s.status) (h₂ : t.curTs = s.curTs)
    (h₃ : t.out = s.out) (h₄ : t.wrOff = s.wrOff) (h₅ : t.accBuf = s.accBuf) : HoldsFrame ts out t bs :=
  ⟨h₁.trans h.status, h₂.trans h.curTs, h₃.trans h.out, by rw [h₄, h.wrOff], by rw [h₅]; exact h.stored⟩

/-- The bytes a finalize of the frame emits are the bytes it holds. -/
theorem HoldsFrame.frameBytes_eq (h : HoldsFrame ts out s bs) : s.frameBytes = bs := by
  have hlen : s.frameBytes.length = bs.length := by rw [State.frameBytes_length, h.wrOff]
  refine List.ext_getElem hlen fun j hj hj' => ?_
  simp [State.frameBytes, accBytes, accByte, h.stored j hj']

/-- A `COMPLETE` finalize emits the one record of the law, or none (R182, R197). -/
theorem HoldsFrame.finalRecord_complete (h : HoldsFrame ts out s bs) :
    finalRecord .complete s = completeRecord ts bs := by
  have hempty : s.wrOff = 0 ↔ bs = [] := by
    rw [← List.length_eq_zero_iff, ← h.wrOff, ← BitVec.toNat_inj]
    rfl
  simp only [finalRecord, completeRecord, hempty, h.curTs, h.frameBytes_eq]

theorem HoldsFrame.captureAll (h : HoldsFrame ts out s bs) (us : List AncUnit) :
    HoldsFrame ts out (captureAll s us) bs := by
  rw [captureAll_eq]
  exact h.of_eq rfl rfl rfl rfl rfl

/-- Bytes appended to the frame come after those it holds (R190). -/
theorem HoldsFrame.appendBytes (h : HoldsFrame ts out s bs) (hfit : s.wrOff.toNat + cs.length < 2 ^ 16) :
    HoldsFrame ts out (s.appendBytes cs) (bs ++ cs) where
  status := h.status
  curTs := h.curTs
  out := h.out
  wrOff := by
    rw [State.appendBytes_wrOff, BitVec.toNat_ofNat, Nat.mod_eq_of_lt hfit, h.wrOff, List.length_append]
  stored j hj := by
    rw [State.appendBytes_accBuf, h.wrOff]
    by_cases hlt : j < bs.length
    · rw [Memory.read_writeRange_outside _ _ _ (.inl hlt), h.stored j hlt, List.getElem_append_left hlt]
    · obtain ⟨i, rfl⟩ : ∃ i, j = bs.length + i := ⟨j - bs.length, by omega⟩
      rw [Memory.read_writeRange_inside _ _ _ (by simpa using hj)]
      simp

/-- A frame just opened holds no byte (R185). -/
theorem holdsFrame_afterOpen (ho : OpensFrame s) : HoldsFrame s.argTs (s.out ++ staleRecords s) (afterOpen s) [] where
  status := afterOpen_status s
  curTs := afterOpen_curTs
  out := (afterOpen_staleEmitted s).out
  wrOff := by rw [afterOpen_wrOff, firstStored, if_pos ho]; rfl
  stored j hj := absurd hj (by simp)

/-- A packet of the open frame's own timestamp opens none (R184, R185). -/
theorem HoldsFrame.afterOpen (h : HoldsFrame ts out s bs) (hts : s.argTs = ts) :
    HoldsFrame ts out (afterOpen s) bs := by
  have hn : ¬ OpensFrame s := by simp [OpensFrame, h.status, h.curTs, hts]
  rwa [Sys2Proof.Machine.afterOpen, if_neg hn]

/-! ### A packet that does not fail -/

/-- A packet that reports no error has accepted all its units, whose bytes are `packetCaptions` (R189, R194). -/
theorem execProcessPacket_of_not_error {m : Bool} (h : execProcessPacket m s = .next t)
    (he : t.resp.result.isError = false) :
    ∃ us r, packetCaptions s = captionBytes us ∧ firstStored s + (captionBytes us).length < 2 ^ 16
      ∧ t = { afterMarker m (afterUnits s us) with resp := r } := by
  rcases execProcessPacket_cases h with ⟨-, rfl⟩ | ⟨-, -, -, rfl⟩ | ⟨-, -, -, v, rfl, rfl⟩ |
    ⟨-, -, -, count, k, us, hc, -, hu, hf, ⟨rfl, rfl⟩ | ⟨-, -, v, rfl, rfl⟩ | ⟨u, v, -, -, -, rfl, rfl⟩⟩
  case inr.inr.inr.inl =>
    have hcap := s.cfg.cap.isLt
    have hfirst : firstStored s < 2 ^ 16 := by rw [← afterOpen_wrOff]; exact BitVec.isLt _
    refine ⟨us, _, by simp only [packetCaptions, hc, hu], ?_, rfl⟩
    rcases hf with rfl | hf
    · exact hfirst
    · omega
  all_goals cases he

/-- Such a packet's bytes come after those its opened frame holds, and then its marker ends the frame (R190, R193). -/
theorem execProcessPacket_holdsFrame {m : Bool} (hb : HoldsFrame ts out (afterOpen s) bs)
    (h : execProcessPacket m s = .next t) (he : t.resp.result.isError = false) :
    ∃ v r, HoldsFrame ts out v (bs ++ packetCaptions s) ∧ t = { afterMarker m v with resp := r } := by
  obtain ⟨us, r, hus, hfit, ht⟩ := execProcessPacket_of_not_error h he
  refine ⟨afterUnits s us, r, ?_, ht⟩
  rw [hus, afterUnits_eq_appendBytes]
  exact (hb.captureAll us).appendBytes (by rw [captureAll_wrOff, afterOpen_wrOff]; exact hfit)

/-- Without the marker the frame stays open. -/
theorem execProcessPacket_unmarked (hb : HoldsFrame ts out (afterOpen s) bs)
    (h : execProcessPacket false s = .next t) (he : t.resp.result.isError = false) :
    HoldsFrame ts out t (bs ++ packetCaptions s) := by
  obtain ⟨v, r, hv, rfl⟩ := execProcessPacket_holdsFrame hb h he
  exact hv.of_eq rfl rfl rfl rfl rfl

/-- With the marker the block is Idle, and the frame's bytes are its record. -/
theorem execProcessPacket_marked (hb : HoldsFrame ts out (afterOpen s) bs)
    (h : execProcessPacket true s = .next t) (he : t.resp.result.isError = false) :
    t.status = .idle ∧ t.out = out ++ completeRecord ts (bs ++ packetCaptions s) := by
  obtain ⟨v, r, hv, rfl⟩ := execProcessPacket_holdsFrame hb h he
  refine ⟨rfl, ?_⟩
  rw [← hv.finalRecord_complete, ← hv.out]
  rfl

/-! ### Steps -/

/-- The step of a command word that decodes runs it in the state `issued` (R25). -/
theorem step_eq_exec_issued {w : Word} {rest : List HostAction} {i : Instr} (hf : s.faulted = false)
    (hh : s.host = .writeCsr 0x00 32 w :: rest) (hd : decodeCommand w = .ok i) :
    step s = exec i (issued s w rest) := by
  have hf' : s.faulted ≠ true := Bool.eq_false_iff.1 hf
  simp only [step, if_neg hf', hh, hostAccess_writeCmd, issuedCommand, hd]
  rfl

theorem exec_issued_of_step {w : Word} {rest : List HostAction} {i : Instr}
    (hh : s.host = .writeCsr 0x00 32 w :: rest) (hd : decodeCommand w = .ok i) (h : step s = .next t) :
    exec i (issued s w rest) = .next t := by
  obtain ⟨hf, -⟩ := step_cases h
  rw [← step_eq_exec_issued hf hh hd, h]

/-- A host write to `CSR` changes a register the host writes, and nothing the frame is made of (R22). -/
theorem HoldsFrame.writeCsr (h : HoldsFrame ts out s bs) (off : Nat) (v : Word) :
    HoldsFrame ts out (writeCsr s off v) bs := by
  unfold Sys2Proof.Machine.writeCsr
  split
  case h_6 => exact h
  all_goals exact h.of_eq rfl rfl rfl rfl rfl

/-- No host access but a reset changes what the frame holds (R22, R24, R62, R64). -/
theorem HoldsFrame.hostAccess {x : HostAction} (h : HoldsFrame ts out s bs) (hx : x ≠ .hardReset)
    (ht : hostAccess x s = .next t) : HoldsFrame ts out t bs := by
  cases x with
  | hardReset => exact absurd rfl hx
  | writeUnit a b => cases ht; exact h
  | writeCsr off width v =>
    simp only [Sys2Proof.Machine.hostAccess] at ht
    split at ht <;> cases ht
    exact h.writeCsr off v
  | writePkt a b | readPkt a | readCsr off width | readUnit a =>
    simp only [Sys2Proof.Machine.hostAccess] at ht
    split at ht <;> cases ht
    exact h.of_eq rfl rfl rfl rfl rfl

/-- A quiet step leaves the frame what it holds. -/
theorem HoldsFrame.quiet (h : HoldsFrame ts out s bs) (hq : QuietNext s) (ht : step s = .next t) :
    HoldsFrame ts out t bs := by
  obtain ⟨-, ⟨-, rfl⟩ | ⟨x, rest, hh, -, hx⟩ | ⟨w, rest, hh, ⟨i, hd, hi⟩ | ⟨-, rfl⟩⟩⟩ := step_cases ht
  · exact h
  · have hs : HoldsFrame ts out (s.advance rest) bs := h.of_eq rfl rfl rfl rfl rfl
    exact hs.hostAccess (hq x rest hh).1 hx
  · obtain ⟨hp, hf, hr⟩ := (hq _ rest hh).2 w i rfl hd
    obtain ⟨-, ht⟩ := exec_debug_change hp hf hr hi
    rw [ht]
    exact h.of_eq rfl rfl rfl rfl rfl
  · exact h.of_eq rfl rfl rfl rfl rfl

/-- Along a run the open frame holds the bytes of the run's packets, in order. -/
theorem FrameRun.holdsFrame (h : FrameRun ts out s bs) : HoldsFrame ts out s bs := by
  induction h with
  | first s t rest hh hts ho ht hr =>
    subst hts
    exact execProcessPacket_unmarked (holdsFrame_afterOpen (s := issued s 1 rest) ho)
      (exec_issued_of_step hh (i := .processPacket false) (by decide) ht) (by rw [hr]; rfl)
  | quiet out s t bs _ hq ht ih => exact ih.quiet hq ht
  | more out s t bs rest _ hh hts ht hr ih =>
    have hs : HoldsFrame ts out (issued s 1 rest) bs := ih.of_eq rfl rfl rfl rfl rfl
    exact execProcessPacket_unmarked (hs.afterOpen hts)
      (exec_issued_of_step hh (i := .processPacket false) (by decide) ht) (by rw [hr]; rfl)

/-- Settles O54: the frame the last packet finds, just opened or held along the run (`FrameRun.holdsFrame`), takes that
packet's bytes, and its marker emits them all (`execProcessPacket_marked`). -/
theorem concatenationLaw : Obligations.ConcatenationLaw := by
  intro ts s t rest hh hts ht he
  have hx := exec_issued_of_step hh (i := .processPacket true) (by decide) ht
  refine ⟨fun ho => ?_, fun out bs hrun => ?_⟩
  · subst hts
    exact execProcessPacket_marked (holdsFrame_afterOpen (s := issued s 0x11 rest) ho) hx he
  · have hs : HoldsFrame ts out (issued s 0x11 rest) bs := hrun.holdsFrame.of_eq rfl rfl rfl rfl rfl
    exact execProcessPacket_marked (hs.afterOpen hts) hx he

end Sys2Proof.Machine
end

section
/-! PROOFS. The commands that fail with `ERR_BADCMD` (R96, R128, R234): what a word that decodes holds in its fields,
what an argument out of range does to the instruction, and the step of a failing word. -/

namespace Sys2Proof

/-! ### The fields of a word that decodes -/

theorem noOperands_eq_ok {w : Word} {i j : Instr} (h : noOperands w j = .ok i) :
    markerField w = false ∧ widthField w = 0 ∧ i = j := by
  unfold noOperands at h
  split at h
  · cases h
  next hm =>
    split at h
    · cases h
    next hn =>
      cases h
      exact ⟨Bool.eq_false_iff.2 hm, not_not.1 hn, rfl⟩

/-- What a word that decodes holds in its fields, row by row of the table (R80 to R83). -/
theorem decodeCommand_cases {w : Word} {i : Instr} (h : decodeCommand w = .ok i) :
    reservedClear w = true ∧
    ((opField w = 1 ∧ widthField w = 0 ∧ i = .processPacket (markerField w))
    ∨ (opField w = 4 ∧ markerField w = false ∧ i = .readBits (widthField w))
    ∨ (markerField w = false ∧ widthField w = 0
        ∧ ((opField w = 2 ∧ i = .forceFinalize) ∨ (opField w = 3 ∧ i = .softReset)
          ∨ (opField w = 5 ∧ i = .decodeWord) ∨ (opField w = 6 ∧ i = .extractUnit)))) := by
  have hop {k : BitVec 4} (hk : (opField w).toNat = k.toNat) : opField w = k := BitVec.toNat_inj.1 hk
  unfold decodeCommand at h
  split at h
  case isFalse => cases h
  case isTrue hr =>
    refine ⟨hr, ?_⟩
    split at h
    next h1 =>
      split at h
      · cases h
      next hn => cases h; exact .inl ⟨hop h1, not_not.1 hn, rfl⟩
    next h2 =>
      obtain ⟨hm, hn, rfl⟩ := noOperands_eq_ok h
      exact .inr (.inr ⟨hm, hn, .inl ⟨hop h2, rfl⟩⟩)
    next h3 =>
      obtain ⟨hm, hn, rfl⟩ := noOperands_eq_ok h
      exact .inr (.inr ⟨hm, hn, .inr (.inl ⟨hop h3, rfl⟩)⟩)
    next h4 =>
      split at h
      · cases h
      next hm => cases h; exact .inr (.inl ⟨hop h4, Bool.eq_false_iff.2 hm, rfl⟩)
    next h5 =>
      obtain ⟨hm, hn, rfl⟩ := noOperands_eq_ok h
      exact .inr (.inr ⟨hm, hn, .inr (.inr (.inl ⟨hop h5, rfl⟩))⟩)
    next h6 =>
      obtain ⟨hm, hn, rfl⟩ := noOperands_eq_ok h
      exact .inr (.inr ⟨hm, hn, .inr (.inr (.inr ⟨hop h6, rfl⟩))⟩)
    next => cases h

/-- A word of R96 that still decodes is a `READ_BITS` of an illegal width, R96 (e). -/
theorem readBits_of_decodeCommand_badCmd {w : Word} {i : Instr} (hd : decodeCommand w = .ok i)
    (hb : badCmd w = true) : ∃ n : BitVec 6, i = .readBits n ∧ (n = 0 ∨ 32 < n.toNat) := by
  obtain ⟨hr, ⟨hop, hn, -⟩ | ⟨hop, hm, rfl⟩ | ⟨hm, hn, hi⟩⟩ := decodeCommand_cases hd
  · simp [badCmd, hop, hn, hr] at hb
  · exact ⟨_, rfl, by simpa [badCmd, hop, hm, hr] using hb⟩
  · rcases hi with ⟨hop, -⟩ | ⟨hop, -⟩ | ⟨hop, -⟩ | ⟨hop, -⟩ <;> simp [badCmd, hop, hm, hn, hr] at hb

end Sys2Proof

namespace Sys2Proof.Machine

/-! ### Arguments out of range -/

/-- A failing word that decodes is an instruction whose operands fail (R128, R234). -/
theorem FailsBadCmd.argumentFails {w : Word} {s : State} {i : Instr} (h : FailsBadCmd w s)
    (hd : decodeCommand w = .ok i) : ArgumentFails i s := by
  rcases h with hbad | ⟨hop, hlen⟩ | ⟨hop, hhdr⟩
  · obtain ⟨n, rfl, hn⟩ := readBits_of_decodeCommand_badCmd hd hbad
    exact hn.imp_right .inl
  · obtain ⟨-, ⟨-, -, rfl⟩ | ⟨-, -, rfl⟩ | ⟨-, -, ⟨hop', -⟩ | ⟨hop', -⟩ | ⟨-, rfl⟩ | ⟨-, rfl⟩⟩⟩ :=
      decodeCommand_cases hd
    · exact fun hl => hlen hl.1
    · exact .inr (.inr hlen)
    · simp [hop'] at hop
    · simp [hop'] at hop
    · exact hlen
    · exact hlen
  · obtain ⟨-, ⟨-, -, rfl⟩ | ⟨hop', -⟩ | ⟨-, -, ⟨hop', -⟩ | ⟨hop', -⟩ | ⟨hop', -⟩ | ⟨hop', -⟩⟩⟩ :=
      decodeCommand_cases hd
    · rintro ⟨-, h5, hmax⟩; omega
    all_goals simp [hop'] at hop

/-- An instruction whose operands fail does nothing but fail with `ERR_BADCMD`: its guard holds (R128, R234). -/
theorem exec_of_argumentFails {i : Instr} {s : State} (h : ArgumentFails i s) :
    exec i s = .next (s.failCommand .badCmd) := by
  cases i with
  | processPacket m => exact if_pos (by rw [packetGuard_eq]; exact decide_eq_true h)
  | forceFinalize => exact h.elim
  | softReset => exact h.elim
  | readBits n =>
    have hbad : (illegalWidth n || lenTooLong s) = true := by
      rw [illegalWidth_eq, lenTooLong_eq, ← Bool.decide_or, decide_eq_true_eq, or_assoc]
      exact h
    exact if_pos hbad
  | decodeWord => exact if_pos (lenTooLong_eq_true.2 h)
  | extractUnit => exact if_pos (lenTooLong_eq_true.2 h)
  | cdpUnit a b => exact if_pos (lenTooLong_eq_true.2 h)
  | otherUnit d e => exact if_pos (lenTooLong_eq_true.2 h)

/-! ### The step -/

/-- The step of a word that does not decode fails it in the state `issued` (R25, R96). -/
theorem step_eq_illegalCommand_issued {s : State} {w : Word} {rest : List HostAction} {e : DecodeError}
    (hf : s.faulted = false) (hh : s.host = .writeCsr 0x00 32 w :: rest) (hd : decodeCommand w = .error e) :
    step s = .next (illegalCommand (issued s w rest)) := by
  have hf' : s.faulted ≠ true := Bool.eq_false_iff.1 hf
  simp only [step, if_neg hf', hh, hostAccess_writeCmd, issuedCommand, hd]
  rfl

/-- Settles O25: a failing word that decodes is an instruction whose operands fail (`FailsBadCmd.argumentFails`), and
one that does not is failed by the step; both leave `State.failCommand` of the state in which the word is issued. -/
theorem badCommandChangesNothingElse : Obligations.BadCommandChangesNothingElse := by
  intro s w rest hf hh hfail
  have hstep : step s = .next ((issued s w rest).failCommand .badCmd) := by
    cases hd : decodeCommand w with
    | error e => exact step_eq_illegalCommand_issued hf hh hd
    | ok i =>
      have hfail' : FailsBadCmd w (issued s w rest) := hfail
      rw [step_eq_exec_issued hf hh hd, exec_of_argumentFails (hfail'.argumentFails hd)]
  rw [hstep, State.failCommand_badCmd]
  rfl

end Sys2Proof.Machine
end

section
/-! PROOFS. Hard reset (R260): what every register offset reads after it, and the step that takes it. -/

namespace Sys2Proof.Machine

/-- A register is at an offset only where the map of 10_state.md section 3 lists it. -/
theorem mem_registerMap_of_regAt {off : Nat} {r : Reg} (h : regAt off = some r) : (off, r) ∈ registerMap := by
  obtain ⟨l₁, l₂, heq, -⟩ := List.lookup_eq_some_iff.1 h
  simp [heq]

theorem SkipPolicy.bit_eq_decide (p : SkipPolicy) : SkipPolicy.bit p = decide (p = .declared) := by
  cases p <;> rfl

/-- Every register but `ARG_HDRLEN` and the two constants of the build is 0 after hard reset. -/
theorem readReg_hardReset_eq_zero (s : State) {r : Reg} (hhdr : r ≠ .argHdrLen) (hcap : r ≠ .capacity)
    (hcfg : r ≠ .config) : readReg (hardReset s) r = 0 := by
  cases r with
  | argHdrLen => exact absurd rfl hhdr
  | capacity => exact absurd rfl hcap
  | config => exact absurd rfl hcfg
  | resp => exact (by decide : Resp.reset.word = 0)
  | lastUnit => exact (by decide : LastUnit.word ⟨0, 0, 0, false⟩ = 0)
  | lastCdpA => exact (by decide : LastCdpA.word ⟨0, 0, 0, 0⟩ = 0)
  | lastCdpB => exact (by decide : LastCdpB.word ⟨0, 0⟩ = 0)
  | _ => rfl

/-- The offsets of those three registers are the only ones that read another value than 0. -/
theorem readCsr_hardReset_eq_zero (s : State) {off : Nat} (hhdr : off ≠ 0x0C) (hcap : off ≠ 0x3C)
    (hcfg : off ≠ 0x40) : readCsr (hardReset s) off = 0 := by
  unfold readCsr
  cases hr : regAt off with
  | none => rfl
  | some r =>
    have hmem := mem_registerMap_of_regAt hr
    refine readReg_hardReset_eq_zero s ?_ ?_ ?_ <;> rintro rfl
    · exact hhdr (by simpa [registerMap] using hmem)
    · exact hcap (by simpa [registerMap] using hmem)
    · exact hcfg (by simpa [registerMap] using hmem)

/-- What every offset of `CSR` reads after hard reset (R260). -/
theorem readCsr_hardReset (s : State) (off : Nat) :
    readCsr (hardReset s) off =
      if off = 0x0C then 0x0000000C
      else if off = 0x3C then s.cfg.cap.setWidth 32
      else if off = 0x40 then s.cfg.pktMax ++ 0#15 ++ BitVec.ofBool (s.cfg.skipPolicy = .declared)
      else 0 := by
  split_ifs with hhdr hcap hcfg
  · subst hhdr; rfl
  · subst hcap; rfl
  · subst hcfg
    rw [← SkipPolicy.bit_eq_decide]
    rfl
  · exact readCsr_hardReset_eq_zero s hhdr hcap hcfg

/-- The step that takes the reset input is `hardReset` of the state the step has advanced (R260). -/
theorem step_eq_hardReset {s : State} {rest : List HostAction} (hf : s.faulted = false)
    (hh : s.host = .hardReset :: rest) : step s = .next (hardReset (s.advance rest)) :=
  step_access hf hh rfl

/-- Settles O10: the step is `hardReset`, whose every offset reads as `readCsr_hardReset` says; its packet memory
lists no offset, and the fields it keeps are those the step had not touched. -/
theorem hardResetValues : Obligations.HardResetValues := by
  intro s rest hf hh
  exact ⟨hardReset (s.advance rest), step_eq_hardReset hf hh, readCsr_hardReset (s.advance rest), rfl,
    fun _ => rfl, rfl, rfl, rfl⟩

end Sys2Proof.Machine
end

section
/-! PROOFS. The two round trips of the encoder and the decoder (R80 to R83, R88), and the words R96 makes illegal. -/

namespace Sys2Proof

/-! ### The fields of a command word -/

@[simp] theorem opField_commandWord (op : BitVec 4) (m : Bool) (n : BitVec 6) : opField (commandWord op m n) = op :=
  BitVec.extractLsb'_append_eq_right

@[simp] theorem markerField_commandWord (op : BitVec 4) (m : Bool) (n : BitVec 6) :
    markerField (commandWord op m n) = m := by
  simp only [markerField, commandWord, BitVec.getLsbD_append]
  simp

@[simp] theorem widthField_commandWord (op : BitVec 4) (m : Bool) (n : BitVec 6) :
    widthField (commandWord op m n) = n :=
  calc widthField (commandWord op m n)
    _ = (0#18 ++ n ++ 0#3 ++ BitVec.ofBool m).extractLsb' 4 6 := BitVec.extractLsb'_append_eq_of_le (by decide)
    _ = (0#18 ++ n ++ 0#3).extractLsb' 3 6 := BitVec.extractLsb'_append_eq_of_le (by decide)
    _ = (0#18 ++ n).extractLsb' 0 6 := BitVec.extractLsb'_append_eq_of_le (by decide)
    _ = n := BitVec.extractLsb'_append_eq_right

@[simp] theorem reservedClear_commandWord (op : BitVec 4) (m : Bool) (n : BitVec 6) :
    reservedClear (commandWord op m n) = true := by
  have hlow : (commandWord op m n).extractLsb' 5 3 = 0#3 :=
    calc (commandWord op m n).extractLsb' 5 3
      _ = (0#18 ++ n ++ 0#3 ++ BitVec.ofBool m).extractLsb' 1 3 := BitVec.extractLsb'_append_eq_of_le (by decide)
      _ = (0#18 ++ n ++ 0#3).extractLsb' 0 3 := BitVec.extractLsb'_append_eq_of_le (by decide)
      _ = 0#3 := BitVec.extractLsb'_append_eq_right
  have hhigh : (commandWord op m n).extractLsb' 14 18 = 0#18 :=
    calc (commandWord op m n).extractLsb' 14 18
      _ = (0#18 ++ n ++ 0#3 ++ BitVec.ofBool m).extractLsb' 10 18 := BitVec.extractLsb'_append_eq_of_le (by decide)
      _ = (0#18 ++ n ++ 0#3).extractLsb' 9 18 := BitVec.extractLsb'_append_eq_of_le (by decide)
      _ = (0#18 ++ n).extractLsb' 6 18 := BitVec.extractLsb'_append_eq_of_le (by decide)
      _ = 0#18 := BitVec.extractLsb'_append_eq_left
  rw [reservedClear, hlow, hhigh]
  rfl

/-- A word whose reserved bits are 0 is the word of its three fields (R80). -/
theorem commandWord_fields {w : Word} (h : reservedClear w = true) :
    commandWord (opField w) (markerField w) (widthField w) = w := by
  simp only [reservedClear, Bool.and_eq_true, beq_iff_eq] at h
  obtain ⟨hlow, hhigh⟩ := h
  have hm : BitVec.ofBool (w.getLsbD 4) = w.extractLsb' 4 1 := by
    ext i hi
    obtain rfl : i = 0 := by omega
    simp
  rw [commandWord, opField, markerField, widthField, ← hlow, ← hhigh, hm,
    BitVec.extractLsb'_append_extractLsb'_eq_extractLsb' (start₁ := 8) (len₁ := 6) (start₂ := 14) rfl,
    BitVec.extractLsb'_append_extractLsb'_eq_extractLsb' (start₁ := 5) (len₁ := 3) (start₂ := 8) rfl,
    BitVec.extractLsb'_append_extractLsb'_eq_extractLsb' (start₁ := 4) (len₁ := 1) (start₂ := 5) rfl,
    BitVec.extractLsb'_append_extractLsb'_eq_extractLsb' (start₁ := 0) (len₁ := 4) (start₂ := 4) rfl]
  exact BitVec.extractLsb'_eq_self

/-! ### The identifier pair of a CDP unit -/

/-- The encoding of a CDP unit is a pair of ANC words, bits 9:8 of each an operand (R88). -/
theorem encode_cdpUnit (a b : BitVec 2) :
    encode (.cdpUnit a b) = .unitId ((a ++ 0x61#8 : AncWord10) ++ (b ++ 0x01#8 : AncWord10)) :=
  congrArg Encoded.unitId BitVec.append_assoc

theorem isCdpPair_append (a b : BitVec 2) : isCdpPair (a ++ 0x61#8) (b ++ 0x01#8) = true :=
  (Machine.isCdpPair_iff_dataByte _ _).2 ⟨Machine.dataByte_append a _, Machine.dataByte_append b _⟩

/-- An ANC word is its bits 9:8 and its data byte (R93). -/
theorem high_append_dataByte (d : AncWord10) : d.extractLsb' 8 2 ++ Machine.dataByte d = d :=
  (BitVec.extractLsb'_append_extractLsb'_eq_extractLsb' (start₁ := 0) (len₁ := 8) rfl).trans
    BitVec.extractLsb'_eq_self

/-! ### The round trips -/

/-- Settles O2: a command's word gives back its fields, on which the decoder branches, and an identifier pair its two
words, which are a CDP unit's exactly for the encoding of a `CDP_UNIT`. -/
theorem decodeInvertsEncode : Obligations.DecodeInvertsEncode := by
  intro i hi
  cases i with
  | processPacket m => simp [encode, decode, decodeCommand]
  | forceFinalize => simp [encode, decode, decodeCommand, noOperands]
  | softReset => simp [encode, decode, decodeCommand, noOperands]
  | readBits n => simp [encode, decode, decodeCommand]
  | decodeWord => simp [encode, decode, decodeCommand, noOperands]
  | extractUnit => simp [encode, decode, decodeCommand, noOperands]
  | cdpUnit a b =>
    rw [encode_cdpUnit, decode, Machine.decodeUnitId_append, if_pos (isCdpPair_append a b)]
    congr 2 <;> exact BitVec.extractLsb'_append_eq_left
  | otherUnit d e =>
    have hpair : ¬ isCdpPair d e = true := by simpa [Instr.wellFormed] using hi
    rw [encode, decode, Machine.decodeUnitId_append, if_neg hpair]

theorem wellFormed_of_decodeCommand {w : Word} {i : Instr} (h : decodeCommand w = .ok i) : i.wellFormed = true := by
  obtain ⟨-, ⟨-, -, rfl⟩ | ⟨-, -, rfl⟩ | ⟨-, -, ⟨-, rfl⟩ | ⟨-, rfl⟩ | ⟨-, rfl⟩ | ⟨-, rfl⟩⟩⟩ :=
    decodeCommand_cases h <;> rfl

/-- A command word that decodes is the encoding of what it decodes to (R80 to R83). -/
theorem encode_of_decodeCommand {w : Word} {i : Instr} (h : decodeCommand w = .ok i) : encode i = .command w := by
  obtain ⟨hr, hrow⟩ := decodeCommand_cases h
  rw [← commandWord_fields hr]
  obtain ⟨hop, hn, rfl⟩ | ⟨hop, hm, rfl⟩ | ⟨hm, hn, hi⟩ := hrow
  · rw [hop, hn]; rfl
  · rw [hop, hm]; rfl
  · rw [hm, hn]
    obtain ⟨hop, rfl⟩ | ⟨hop, rfl⟩ | ⟨hop, rfl⟩ | ⟨hop, rfl⟩ := hi <;> rw [hop] <;> rfl

/-- An identifier pair has one meaning: the unit it decodes to is well formed and encodes to it (R88). -/
theorem encode_decodeUnitId (k : UnitId) :
    (decodeUnitId k).wellFormed = true ∧ encode (decodeUnitId k) = .unitId k := by
  obtain ⟨d, e, rfl⟩ : ∃ d e : AncWord10, k = d ++ e := ⟨didOfId k, sdidOfId k, (append_ofId k).symm⟩
  rw [Machine.decodeUnitId_append]
  split
  case isTrue h =>
    obtain ⟨hd, he⟩ := (Machine.isCdpPair_iff_dataByte d e).1 h
    refine ⟨rfl, ?_⟩
    rw [encode_cdpUnit]
    congr 2
    · exact (congrArg (d.extractLsb' 8 2 ++ ·) hd.symm).trans (high_append_dataByte d)
    · exact (congrArg (e.extractLsb' 8 2 ++ ·) he.symm).trans (high_append_dataByte e)
  case isFalse h => exact ⟨by simpa [Instr.wellFormed] using h, rfl⟩

/-- Settles O3, command words by `encode_of_decodeCommand` and identifier pairs by `encode_decodeUnitId`. -/
theorem encodeInvertsDecode : Obligations.EncodeInvertsDecode := by
  intro e i h
  cases e with
  | command w => exact ⟨wellFormed_of_decodeCommand h, encode_of_decodeCommand h⟩
  | unitId k =>
    obtain rfl : decodeUnitId k = i := by simpa [decode] using h
    exact encode_decodeUnitId k

/-! ### Illegal words -/

/-- A word the decoder refuses is illegal by one of R96 (a) to (d). -/
theorem badCmd_of_decodeCommand_error {w : Word} {e : DecodeError} (h : decodeCommand w = .error e) :
    badCmd w = true := by
  have hno {j : Instr} (h : noOperands w j = .error e) : markerField w = true ∨ widthField w ≠ 0 := by
    unfold noOperands at h
    split_ifs at h with hm hn
    · exact .inl hm
    · exact .inr hn
  unfold decodeCommand at h
  split at h
  case isFalse hr => simp [badCmd, hr]
  case isTrue hr =>
    split at h
    next hop =>
      split at h
      · rename_i hn
        simpa [badCmd, hr, hop] using hn
      · cases h
    next hop => simpa [badCmd, hr, hop] using hno h
    next hop => simpa [badCmd, hr, hop] using hno h
    next hop =>
      split at h
      · rename_i hm
        simp [badCmd, hr, hop, hm]
      · cases h
    next hop => simpa [badCmd, hr, hop] using hno h
    next hop => simpa [badCmd, hr, hop] using hno h
    next h1 h2 h3 h4 h5 h6 =>
      simp only [imp_false] at h1 h2 h3 h4 h5 h6
      have hop : (opField w).toNat = 0 ∨ 7 ≤ (opField w).toNat := by omega
      simp [badCmd, hop]

/-- Settles O4: a refused word is illegal (`badCmd_of_decodeCommand_error`), and of the words that decode only a
`READ_BITS` of an illegal width is (`readBits_of_decodeCommand_badCmd`). -/
theorem badWordsAreTheRefusedOnes : Obligations.BadWordsAreTheRefusedOnes := by
  intro w
  constructor
  · intro h
    cases hd : decodeCommand w with
    | error e => exact .inl ⟨e, rfl⟩
    | ok i =>
      obtain ⟨n, rfl, hn⟩ := readBits_of_decodeCommand_badCmd hd h
      exact .inr ⟨n, rfl, hn⟩
  · rintro (⟨e, he⟩ | ⟨n, hd, hn⟩)
    · exact badCmd_of_decodeCommand_error he
    · have hw := encode_of_decodeCommand hd
      obtain rfl : commandWord 4 false n = w := by simpa [encode] using hw
      simpa [badCmd] using hn

/-- Settles O1: the decoder evaluates on each of the fifteen words. -/
theorem sampleWordsDecode : Obligations.SampleWordsDecode := by
  unfold Obligations.SampleWordsDecode; decide

end Sys2Proof
end

section
/-! PROOFS. What no command writes (R25 to R29, R50), and the frame records of `PROCESS_PACKET`, `FORCE_FINALIZE` and
`SOFT_RESET` it follows from. -/

namespace Sys2Proof.Machine

/-- From `s` to `t` the block has written none of the host's inputs, nor the build, nor anything of the host's side
(R25 to R28, R40, R41, R50). -/
structure HostInputsKept (s t : State) : Prop where
  pktRam : t.pktRam = s.pktRam
  cmd : t.cmd = s.cmd
  argTs : t.argTs = s.argTs
  argLen : t.argLen = s.argLen
  argHdrLen : t.argHdrLen = s.argHdrLen
  cfg : t.cfg = s.cfg
  faulted : t.faulted = s.faulted
  draw : t.draw = s.draw
  host : t.host = s.host
  hostData : t.hostData = s.hostData

/-- From `s` to `t` only the registers of `PROCESS_PACKET`'s "Writes" and `ACC_BUF` have changed (R183). -/
def PacketChange (s t : State) : Prop :=
  t = { s with
    status := t.status, curTs := t.curTs, wrOff := t.wrOff, accBuf := t.accBuf, out := t.out
    lastUnit := t.lastUnit, lastCdpA := t.lastCdpA, lastCdpB := t.lastCdpB, lastCdpC := t.lastCdpC
    resp := t.resp, cntFrames := t.cntFrames, cntStale := t.cntStale, cntExhausted := t.cntExhausted
    cntOverflow := t.cntOverflow, cntAlloc := t.cntAlloc, cntBadcmd := t.cntBadcmd }

theorem PacketChange.trans {s t u : State} (h : PacketChange s t) (h' : PacketChange t u) : PacketChange s u := by
  unfold PacketChange at h
  exact Eq.trans h' (by rw [h])

theorem afterDiscontinuity_change (s : State) : PacketChange s (afterDiscontinuity s) := by
  unfold afterDiscontinuity
  split <;> rfl

theorem afterOpen_change (s : State) : PacketChange s (afterOpen s) := by
  rw [afterOpen_eq]; rfl

theorem afterUnits_change (s : State) (us : List AncUnit) : PacketChange s (afterUnits s us) := by
  rw [afterUnits_eq]; rfl

theorem PacketChange.set_cntExhausted {s v : State} (h : PacketChange s v) (c : Word) :
    PacketChange s { v with cntExhausted := c } := h.trans rfl

/-- The marker and the response write no other register (R193 to R195). -/
theorem PacketChange.marker {s v : State} (h : PacketChange s v) (m : Bool) (r : Resp) :
    PacketChange s { afterMarker m v with resp := r } :=
  h.trans (by cases m <;> rfl)

/-- A packet writes the registers of its rule and `ACC_BUF`, whatever it ends with (R183). -/
theorem execProcessPacket_change {m : Bool} {s t : State} (h : execProcessPacket m s = .next t) :
    PacketChange s t := by
  rcases execProcessPacket_cases h with ⟨-, rfl⟩ | ⟨-, -, -, rfl⟩ | ⟨-, -, -, v, rfl, rfl⟩ |
    ⟨-, -, -, count, k, us, -, -, -, -, ⟨-, rfl⟩ | ⟨-, -, v, rfl, rfl⟩ | ⟨u, v, -, -, -, rfl, rfl⟩⟩
  · rfl
  · exact (afterDiscontinuity_change s).trans rfl
  · exact ((afterOpen_change s).set_cntExhausted _).marker m _
  · exact (afterUnits_change s us).marker m _
  · exact ((afterUnits_change s us).set_cntExhausted _).marker m _
  · exact (afterUnits_change s us).trans rfl

theorem PacketChange.hostInputsKept {s t : State} (h : PacketChange s t) : HostInputsKept s t := by
  unfold PacketChange at h
  constructor <;> rw [h]

theorem PacketChange.argCursor {s t : State} (h : PacketChange s t) : t.argCursor = s.argCursor := by
  unfold PacketChange at h
  rw [h]

theorem DebugChange.hostInputsKept {s t : State} (h : DebugChange s t) : HostInputsKept s t := by
  obtain ⟨-, h⟩ := h
  constructor <;> rw [h]

/-- `FORCE_FINALIZE` writes the registers of its rule (R201). -/
def FinalizeChange (s t : State) : Prop :=
  t = { s with status := t.status, wrOff := t.wrOff, out := t.out, cntFrames := t.cntFrames, resp := t.resp }

theorem execForceFinalize_change {s t : State} (h : execForceFinalize s = .next t) : FinalizeChange s t := by
  rw [execForceFinalize_eq, Host.Outcome.next.injEq] at h
  split at h <;> (subst h; rfl)

theorem FinalizeChange.packetChange {s t : State} (h : FinalizeChange s t) : PacketChange s t := by
  unfold FinalizeChange at h
  rw [h]; rfl

/-- The instructions of the debug port: the ones that are about no frame (R125, R143, R160). -/
def IsDebug (i : Instr) : Prop := (∀ m, i ≠ .processPacket m) ∧ i ≠ .forceFinalize ∧ i ≠ .softReset

/-- An instruction is one of the reassembler's three or one of the debug port's. -/
theorem instr_cases (i : Instr) :
    (∃ m, i = .processPacket m) ∨ i = .forceFinalize ∨ i = .softReset ∨ IsDebug i := by
  cases i <;> simp [IsDebug]

theorem IsDebug.cases {i : Instr} (hi : IsDebug i) :
    (∃ n, i = .readBits n) ∨ i = .decodeWord ∨ i = .extractUnit ∨ (∃ a b, i = .cdpUnit a b)
      ∨ ∃ d e, i = .otherUnit d e := by
  cases i <;> simp_all [IsDebug]

theorem IsDebug.change {i : Instr} {s t : State} (hi : IsDebug i) (h : exec i s = .next t) : DebugChange s t := by
  obtain ⟨hp, hf, hr⟩ := hi
  exact exec_debug_change hp hf hr h

/-- No command writes the host's inputs (R25 to R28, R50). -/
theorem exec_hostInputsKept {i : Instr} {s t : State} (h : exec i s = .next t) : HostInputsKept s t := by
  rcases instr_cases i with ⟨m, rfl⟩ | rfl | rfl | hi
  · exact (execProcessPacket_change h).hostInputsKept
  · exact (execForceFinalize_change h).packetChange.hostInputsKept
  · cases h
    exact ⟨rfl, rfl, rfl, rfl, rfl, rfl, rfl, rfl, rfl, rfl⟩
  · exact (hi.change h).hostInputsKept

/-! ### What a host access can do -/

/-- The cases of a host access that answers a next state: a byte stored in `PKT`, a register written, a value read, a
write ignored, a reset. -/
theorem hostAccess_cases {x : HostAction} {s t : State} (h : hostAccess x s = .next t) :
    (∃ a b, a < s.cfg.pktMax.toNat ∧ t = s.storePkt a b)
    ∨ (∃ off v, t = writeCsr s off v) ∨ (∃ v, t = s.answer v) ∨ t = s ∨ t = hardReset s := by
  cases x with
  | writePkt a b =>
    simp only [hostAccess] at h
    split at h <;> cases h
    exact .inl ⟨a, b, ‹_›, rfl⟩
  | writeCsr off width v =>
    simp only [hostAccess] at h
    split at h <;> cases h
    exact .inr (.inl ⟨off, v, rfl⟩)
  | readPkt a | readCsr off width | readUnit a =>
    simp only [hostAccess] at h
    split at h <;> cases h
    exact .inr (.inr (.inl ⟨_, rfl⟩))
  | writeUnit a b => cases h; exact .inr (.inr (.inr (.inl rfl)))
  | hardReset => cases h; exact .inr (.inr (.inr (.inr rfl)))

end Sys2Proof.Machine
end

section
/-! PROOFS. The invariant of R55 and R203, part by part: the frame, the packet buffer and the unit buffer; what each
operation keeps of its part, and the step. -/

namespace Sys2Proof.Machine

/-! ### The parts of the invariant -/

/-- The part of the invariant that speaks of the frame, `ACC_BUF` and `OUT`. -/
structure FrameInv (s : State) : Prop where
  wrOff_le : s.wrOff.toNat ≤ s.cfg.cap.toNat
  idle_empty : s.status = .idle → s.wrOff = 0
  record_size : ∀ r ∈ s.out, 1 ≤ r.data.length ∧ r.data.length ≤ s.cfg.cap.toNat
  acc_wf : Memory.wf s.accBuf
  acc_range : ∀ x ∈ s.accBuf, x.1 < s.cfg.cap.toNat
  acc_stored : ∀ a < s.wrOff.toNat, (s.accBuf.read a).isSome

/-- The part that speaks of `PKT_RAM`. -/
structure PktInv (s : State) : Prop where
  pkt_wf : Memory.wf s.pktRam
  pkt_range : ∀ x ∈ s.pktRam, x.1 < s.cfg.pktMax.toNat

/-- The part that speaks of `UNIT_BUF`. -/
structure UnitInv (s : State) : Prop where
  unit_wf : Memory.wf s.unitBuf
  unit_range : ∀ x ∈ s.unitBuf, x.1 < 96
  unitLen_le : s.unitLen.toNat ≤ 93
  unit_stored : ∀ a < s.unitLen.toNat, (s.unitBuf.read a).isSome

/-- The invariant is its parts, with the legal build and the two bits of `NEMIT`. -/
theorem inv_iff {s : State} :
    s.Inv ↔ s.cfg.Legal ∧ FrameInv s ∧ PktInv s ∧ UnitInv s ∧ s.resp.nemit.toNat ≤ 2 := by
  constructor
  · intro h
    exact ⟨h.legal, ⟨h.wrOff_le, h.idle_empty, h.record_size, h.acc_wf, h.acc_range, h.acc_stored⟩,
      ⟨h.pkt_wf, h.pkt_range⟩, ⟨h.unit_wf, h.unit_range, h.unitLen_le, h.unit_stored⟩, h.nemit_le⟩
  · rintro ⟨hlegal, hframe, hpkt, hunit, hn⟩
    exact { hframe, hpkt, hunit with legal := hlegal, nemit_le := hn }

variable {s t : State}

theorem FrameInv.of_eq (h : FrameInv s) (hcfg : t.cfg = s.cfg) (hst : t.status = s.status) (hw : t.wrOff = s.wrOff)
    (ho : t.out = s.out) (ha : t.accBuf = s.accBuf) : FrameInv t := by
  obtain ⟨h1, h2, h3, h4, h5, h6⟩ := h
  constructor <;> simpa only [hcfg, hst, hw, ho, ha]

theorem PktInv.of_eq (h : PktInv s) (hcfg : t.cfg = s.cfg) (hp : t.pktRam = s.pktRam) : PktInv t :=
  ⟨by rw [hp]; exact h.pkt_wf, by rw [hp, hcfg]; exact h.pkt_range⟩

theorem UnitInv.of_eq (h : UnitInv s) (hl : t.unitLen = s.unitLen) (hb : t.unitBuf = s.unitBuf) : UnitInv t := by
  obtain ⟨h1, h2, h3, h4⟩ := h
  constructor <;> simpa only [hl, hb]

/-! ### The frame -/

/-- A frame of no byte needs nothing of `ACC_BUF` but its canonical form. -/
theorem FrameInv.of_empty (h : FrameInv s) (hcfg : t.cfg = s.cfg) (hw : t.wrOff = 0)
    (ho : ∀ r ∈ t.out, 1 ≤ r.data.length ∧ r.data.length ≤ s.cfg.cap.toNat) (ha : t.accBuf = s.accBuf) :
    FrameInv t where
  wrOff_le := by simp [hw]
  idle_empty _ := hw
  record_size := by rw [hcfg]; exact ho
  acc_wf := by rw [ha]; exact h.acc_wf
  acc_range := by rw [ha, hcfg]; exact h.acc_range
  acc_stored a := by simp [hw]

/-- The record a finalize emits holds the frame's bytes, 1 to `CAP` of them (R55, R182). -/
theorem FrameInv.finalRecord_size (h : FrameInv s) (k : RecordKind) :
    ∀ r ∈ finalRecord k s, 1 ≤ r.data.length ∧ r.data.length ≤ s.cfg.cap.toNat := by
  intro r hr
  unfold finalRecord at hr
  split at hr
  · cases hr
  · rename_i hw
    obtain rfl := List.mem_singleton.1 hr
    have hpos : s.wrOff.toNat ≠ 0 := fun h0 => hw (BitVec.eq_of_toNat_eq h0)
    rw [State.frameBytes_length]
    exact ⟨by omega, h.wrOff_le⟩

/-- A finalize keeps the frame's part: no byte is left, and the record it appends is that of the frame (R181). -/
theorem FrameInv.finalize (h : FrameInv s) {k : RecordKind} (hcfg : t.cfg = s.cfg) (hw : t.wrOff = 0)
    (ho : t.out = s.out ++ finalRecord k s) (ha : t.accBuf = s.accBuf) : FrameInv t := by
  refine h.of_empty hcfg hw (fun r hr => ?_) ha
  rw [ho, List.mem_append] at hr
  exact hr.elim (h.record_size r) (h.finalRecord_size k r)

theorem FrameInv.afterDiscontinuity (h : FrameInv s) : FrameInv (afterDiscontinuity s) := by
  unfold Sys2Proof.Machine.afterDiscontinuity
  split
  · rename_i hd
    exact h.finalize (k := .stale) rfl rfl (by simp only [staleRecords, if_pos hd]) rfl
  · exact h

theorem FrameInv.afterOpen (h : FrameInv s) : FrameInv (afterOpen s) := by
  unfold Sys2Proof.Machine.afterOpen
  split
  · have hd := h.afterDiscontinuity
    exact hd.of_empty rfl rfl hd.record_size rfl
  · exact h

/-- Bytes that fit the frame may be appended to it (R190). -/
theorem FrameInv.appendBytes (h : FrameInv s) (hst : s.status = .accumulating) {bs : List Byte}
    (hfit : s.wrOff.toNat + bs.length ≤ s.cfg.cap.toNat) : FrameInv (s.appendBytes bs) := by
  have hcap := s.cfg.cap.isLt
  have hw : (s.appendBytes bs).wrOff.toNat = s.wrOff.toNat + bs.length := Nat.mod_eq_of_lt (by omega)
  refine ⟨by rw [hw]; exact hfit, fun hi => ?_, h.record_size, Memory.wf_writeRange h.acc_wf _ _, fun x hx => ?_,
    fun a ha => Memory.isSome_writeRange (h.acc_stored a) (by omega)⟩
  · rw [State.appendBytes_status, hst] at hi
    cases hi
  · rcases Memory.mem_writeRange hx with ⟨-, hlt⟩ | hx
    · exact Nat.lt_of_lt_of_le hlt hfit
    · exact h.acc_range x hx

theorem FrameInv.captureAll (h : FrameInv s) (us : List AncUnit) : FrameInv (captureAll s us) := by
  rw [captureAll_eq]
  exact h.of_eq rfl rfl rfl rfl rfl

/-- The units a packet accepts fit the frame, or there are none (R190). -/
theorem FrameInv.afterUnits (h : FrameInv s) {us : List AncUnit}
    (hfit : us = [] ∨ firstStored s + (captionBytes us).length ≤ s.cfg.cap.toNat) : FrameInv (afterUnits s us) := by
  have hopen := h.afterOpen.captureAll us
  rw [afterUnits_eq_appendBytes]
  rcases hfit with rfl | hfit
  · rw [captionBytes_nil, State.appendBytes_nil]
    exact hopen
  · have hcfg : (Machine.captureAll (Machine.afterOpen s) us).cfg = s.cfg := by rw [captureAll_eq, afterOpen_eq]
    refine hopen.appendBytes ?_ ?_
    · rw [captureAll_eq]; exact afterOpen_status s
    · rw [captureAll_wrOff, afterOpen_wrOff, hcfg]
      exact hfit

theorem FrameInv.set_cntExhausted (h : FrameInv s) (c : Word) : FrameInv { s with cntExhausted := c } :=
  h.of_eq rfl rfl rfl rfl rfl

/-- A marker's finalize keeps the frame's part (R193). -/
theorem FrameInv.marker (h : FrameInv s) (m : Bool) (r : Resp) : FrameInv { afterMarker m s with resp := r } := by
  cases m
  · exact h.of_eq rfl rfl rfl rfl rfl
  · exact h.finalize (k := .complete) rfl rfl rfl rfl

theorem execProcessPacket_frameInv {m : Bool} (hs : FrameInv s) (h : execProcessPacket m s = .next t) :
    FrameInv t := by
  rcases execProcessPacket_cases h with ⟨-, rfl⟩ | ⟨-, -, -, rfl⟩ | ⟨-, -, -, v, rfl, rfl⟩ |
    ⟨-, -, -, count, k, us, -, -, -, hfit, ⟨-, rfl⟩ | ⟨-, -, v, rfl, rfl⟩ | ⟨u, v, -, -, -, rfl, rfl⟩⟩
  · exact hs.of_eq rfl rfl rfl rfl rfl
  · exact hs.afterDiscontinuity.of_eq rfl rfl rfl rfl rfl
  · exact (hs.afterOpen.set_cntExhausted _).marker m _
  · exact (hs.afterUnits hfit).marker m _
  · exact ((hs.afterUnits hfit).set_cntExhausted _).marker m _
  · have hv : FrameInv (captured (Machine.afterUnits s us) u) := (hs.afterUnits hfit).of_eq rfl rfl rfl rfl rfl
    exact hv.finalize (k := .overflow) rfl rfl rfl rfl

theorem execForceFinalize_frameInv (hs : FrameInv s) (h : execForceFinalize s = .next t) : FrameInv t := by
  rw [execForceFinalize_eq, Host.Outcome.next.injEq] at h
  split at h <;> subst h
  · exact hs.of_eq rfl rfl rfl rfl rfl
  · exact hs.finalize (k := .forced) rfl rfl rfl rfl

theorem DebugChange.frameInv (h : DebugChange s t) (hs : FrameInv s) : FrameInv t := by
  obtain ⟨-, h⟩ := h
  rw [h]
  exact hs.of_eq rfl rfl rfl rfl rfl

theorem exec_frameInv {i : Instr} (hs : FrameInv s) (h : exec i s = .next t) : FrameInv t := by
  rcases instr_cases i with ⟨m, rfl⟩ | rfl | rfl | hi
  · exact execProcessPacket_frameInv hs h
  · exact execForceFinalize_frameInv hs h
  · cases h
    exact hs.of_empty rfl rfl hs.record_size rfl
  · exact (hi.change h).frameInv hs

/-! ### `UNIT_BUF` -/

/-- A unit's bytes, at most 93, fit `UNIT_BUF` and `UNIT_LEN` (R35, R154). -/
theorem UnitInv.afterExtract (h : UnitInv s) {u : AncUnit} (hu : u.bytes.length ≤ 93) :
    UnitInv (afterExtract s u) := by
  have hlen : (Machine.afterExtract s u).unitLen.toNat = u.bytes.length := Nat.mod_eq_of_lt (by omega)
  refine ⟨Memory.wf_writeRange h.unit_wf _ _, fun x hx => ?_, by rw [hlen]; exact hu, fun a ha =>
    Memory.isSome_writeRange (fun h0 => absurd h0 (Nat.not_lt_zero a)) (by omega)⟩
  rcases Memory.mem_writeRange hx with ⟨-, hlt⟩ | hx
  · omega
  · exact h.unit_range x hx

theorem PacketChange.unitInv (h : PacketChange s t) (hs : UnitInv s) : UnitInv t := by
  unfold PacketChange at h
  rw [h]
  exact hs.of_eq rfl rfl

theorem exec_unit_unitInv {i : Instr} (hs : UnitInv s)
    (hi : i = .extractUnit ∨ (∃ a b, i = .cdpUnit a b) ∨ (∃ d e, i = .otherUnit d e))
    (h : exec i s = .next t) : UnitInv t := by
  rw [exec_unit s hi] at h
  rcases debugCommand_cases h with ⟨-, rfl⟩ | ⟨-, -, rfl⟩ | ⟨-, u, hu, rfl⟩
  · exact hs.of_eq rfl rfl
  · exact hs.of_eq rfl rfl
  · exact hs.afterExtract (unitRead_bytes_le hu)

theorem exec_unitInv {i : Instr} (hs : UnitInv s) (h : exec i s = .next t) : UnitInv t := by
  cases i with
  | processPacket m => exact (execProcessPacket_change h).unitInv hs
  | forceFinalize => exact (execForceFinalize_change h).packetChange.unitInv hs
  | softReset =>
    cases h
    exact ⟨hs.unit_wf, hs.unit_range, Nat.zero_le _, fun a ha => absurd ha (Nat.not_lt_zero a)⟩
  | readBits n | decodeWord =>
    rcases debugCommand_cases h with ⟨-, rfl⟩ | ⟨-, -, rfl⟩ | ⟨-, v, -, rfl⟩ <;> exact hs.of_eq rfl rfl
  | extractUnit => exact exec_unit_unitInv hs (.inl rfl) h
  | cdpUnit a b => exact exec_unit_unitInv hs (.inr (.inl ⟨a, b, rfl⟩)) h
  | otherUnit d e => exact exec_unit_unitInv hs (.inr (.inr ⟨d, e, rfl⟩)) h

/-! ### Commands, accesses and steps -/

theorem exec_nemit_le {i : Instr} (h : exec i s = .next t) : t.resp.nemit.toNat ≤ 2 := by
  by_cases hi : i = .softReset
  · subst hi; cases h; exact Nat.zero_le 2
  · obtain ⟨rs, hrs, hle, -⟩ := exec_emits hi h
    rw [hrs.nemit, BitVec.toNat_ofNat]
    exact (Nat.mod_le _ _).trans hle

theorem exec_inv {i : Instr} (hs : s.Inv) (h : exec i s = .next t) : t.Inv := by
  obtain ⟨hlegal, hframe, hpkt, hunit, -⟩ := inv_iff.1 hs
  have hkept := exec_hostInputsKept h
  exact inv_iff.2 ⟨by rw [hkept.cfg]; exact hlegal, exec_frameInv hframe h, hpkt.of_eq hkept.cfg hkept.pktRam,
    exec_unitInv hunit h, exec_nemit_le h⟩

/-- What the block's frame, buffers, build and response are decides the invariant. -/
theorem State.Inv.of_eq (h : s.Inv) (hcfg : t.cfg = s.cfg) (hst : t.status = s.status) (hw : t.wrOff = s.wrOff)
    (ho : t.out = s.out) (ha : t.accBuf = s.accBuf) (hp : t.pktRam = s.pktRam) (hl : t.unitLen = s.unitLen)
    (hb : t.unitBuf = s.unitBuf) (hr : t.resp = s.resp) : t.Inv := by
  obtain ⟨hlegal, hframe, hpkt, hunit, hn⟩ := inv_iff.1 h
  exact inv_iff.2 ⟨by rw [hcfg]; exact hlegal, hframe.of_eq hcfg hst hw ho ha, hpkt.of_eq hcfg hp, hunit.of_eq hl hb,
    by rw [hr]; exact hn⟩

theorem writeCsr_inv (hs : s.Inv) (off : Nat) (v : Word) : (writeCsr s off v).Inv := by
  unfold writeCsr
  split
  case h_6 => exact hs
  all_goals exact hs.of_eq rfl rfl rfl rfl rfl rfl rfl rfl rfl

theorem advance_inv (hs : s.Inv) (rest : List HostAction) : (s.advance rest).Inv :=
  hs.of_eq rfl rfl rfl rfl rfl rfl rfl rfl rfl

theorem storePkt_inv (hs : s.Inv) {a : Nat} (ha : a < s.cfg.pktMax.toNat) (b : Byte) : (s.storePkt a b).Inv := by
  obtain ⟨hlegal, hframe, hpkt, hunit, hn⟩ := inv_iff.1 hs
  refine inv_iff.2 ⟨hlegal, hframe.of_eq rfl rfl rfl rfl rfl, ⟨Memory.wf_write hpkt.pkt_wf a b, fun x hx => ?_⟩,
    hunit.of_eq rfl rfl, hn⟩
  rcases Memory.mem_write hx with rfl | hx
  · exact ha
  · exact hpkt.pkt_range x hx

/-- Hard reset leaves no byte in any buffer, and the records of `OUT` (R260). -/
theorem hardReset_inv (hlegal : s.cfg.Legal)
    (hout : ∀ r ∈ s.out, 1 ≤ r.data.length ∧ r.data.length ≤ s.cfg.cap.toNat) : (hardReset s).Inv where
  legal := hlegal
  wrOff_le := Nat.zero_le _
  idle_empty _ := rfl
  record_size := hout
  pkt_wf := .nil
  acc_wf := .nil
  unit_wf := .nil
  pkt_range _ hx := absurd hx List.not_mem_nil
  acc_range _ hx := absurd hx List.not_mem_nil
  unit_range _ hx := absurd hx List.not_mem_nil
  acc_stored a ha := absurd ha (Nat.not_lt_zero a)
  unitLen_le := Nat.zero_le _
  unit_stored a ha := absurd ha (Nat.not_lt_zero a)
  nemit_le := Nat.zero_le _

theorem hostAccess_inv {x : HostAction} (hs : s.Inv) (h : hostAccess x s = .next t) : t.Inv := by
  rcases hostAccess_cases h with ⟨a, b, ha, rfl⟩ | ⟨off, v, rfl⟩ | ⟨v, rfl⟩ | rfl | rfl
  · exact storePkt_inv hs ha b
  · exact writeCsr_inv hs off v
  · exact hs.of_eq rfl rfl rfl rfl rfl rfl rfl rfl rfl
  · exact hs
  · exact hardReset_inv hs.legal hs.record_size

theorem illegalCommand_inv (hs : s.Inv) : (illegalCommand s).Inv := by
  obtain ⟨hlegal, hframe, hpkt, hunit, -⟩ := inv_iff.1 hs
  exact inv_iff.2 ⟨hlegal, hframe.of_eq rfl rfl rfl rfl rfl, hpkt.of_eq rfl rfl, hunit.of_eq rfl rfl, Nat.zero_le 2⟩

/-- Settles O13: a step is an access (`hostAccess_inv`), or the write of a word to `CMD` and then its command
(`exec_inv`), or that word's refusal. -/
theorem stepKeepsInvariant : Obligations.StepKeepsInvariant := by
  intro s t hs h
  have hcmd (w : Word) (rest : List HostAction) : { s.advance rest with cmd := w }.Inv :=
    hostAccess_inv (x := .writeCsr 0 32 w) (advance_inv hs rest) (hostAccess_writeCmd w _)
  obtain ⟨-, ⟨-, rfl⟩ | ⟨x, rest, -, -, hx⟩ | ⟨w, rest, -, ⟨i, -, hi⟩ | ⟨-, rfl⟩⟩⟩ := step_cases h
  · exact hs
  · exact hostAccess_inv (advance_inv hs rest) hx
  · exact exec_inv (hcmd w rest) hi
  · exact illegalCommand_inv (hcmd w rest)

/-- Settles O12: power-on reset is the hard reset of itself, under the default build and with no record. -/
theorem resetMeetsInvariant : Obligations.ResetMeetsInvariant :=
  hardReset_inv (s := State.reset) (by decide) (fun _ hr => absurd hr List.not_mem_nil)

end Sys2Proof.Machine
end

section
/-! PROOFS. What every step keeps of the build (R40, R41) and of `OUT` (R52). -/

namespace Sys2Proof.Machine

variable {s t : State}

/-- No host access changes the build, `FAULTED` or `OUT`, a reset included (R260). -/
theorem hostAccess_keeps {x : HostAction} (h : hostAccess x s = .next t) :
    t.cfg = s.cfg ∧ t.faulted = s.faulted ∧ t.out = s.out := by
  rcases hostAccess_cases h with ⟨a, b, -, rfl⟩ | ⟨off, v, rfl⟩ | ⟨v, rfl⟩ | rfl | rfl
  case inr.inl =>
    unfold writeCsr
    split <;> exact ⟨rfl, rfl, rfl⟩
  all_goals exact ⟨rfl, rfl, rfl⟩

/-- No step changes the build or `FAULTED`. -/
theorem step_keeps_build (h : step s = .next t) : t.cfg = s.cfg ∧ t.faulted = s.faulted := by
  obtain ⟨-, ⟨-, rfl⟩ | ⟨x, rest, -, -, hx⟩ | ⟨w, rest, -, ⟨i, -, hi⟩ | ⟨-, rfl⟩⟩⟩ := step_cases h
  · exact ⟨rfl, rfl⟩
  · obtain ⟨hcfg, hf, -⟩ := hostAccess_keeps hx
    exact ⟨hcfg, hf⟩
  · have hkept := exec_hostInputsKept hi
    exact ⟨hkept.cfg, hkept.faulted⟩
  · exact ⟨rfl, rfl⟩

/-- Settles O14: `CAPACITY` and `CONFIG` read the build, which no step changes (`step_keeps_build`). -/
theorem stepKeepsBuild : Obligations.StepKeepsBuild := by
  intro s t h
  obtain ⟨hcfg, hf⟩ := step_keeps_build h
  refine ⟨hcfg, hf, ?_⟩
  rintro off (rfl | rfl)
  · exact congrArg (fun c => c.cap.setWidth 32) hcfg
  · exact congrArg configWord hcfg

/-- A command appends at most two records (R195). -/
theorem exec_out {i : Instr} (h : exec i s = .next t) : ∃ rs, t.out = s.out ++ rs ∧ rs.length ≤ 2 := by
  by_cases hi : i = .softReset
  · subst hi; cases h
    exact ⟨[], (List.append_nil _).symm, Nat.zero_le 2⟩
  · obtain ⟨rs, hrs, hle, -⟩ := exec_emits hi h
    exact ⟨rs, hrs.out, hle⟩

/-- Settles O15: only a command appends (`exec_out`); every other step leaves `OUT` as it was. -/
theorem outputOnlyGrows : Obligations.OutputOnlyGrows := by
  intro s t h
  have hsame (ho : t.out = s.out) : ∃ rs, t.out = s.out ++ rs ∧ rs.length ≤ 2 :=
    ⟨[], by rw [ho, List.append_nil], Nat.zero_le 2⟩
  obtain ⟨-, ⟨-, rfl⟩ | ⟨x, rest, -, -, hx⟩ | ⟨w, rest, -, ⟨i, -, hi⟩ | ⟨-, rfl⟩⟩⟩ := step_cases h
  · exact hsame rfl
  · obtain ⟨-, -, ho⟩ := hostAccess_keeps hx
    exact hsame ho
  · obtain ⟨rs, ho, hle⟩ := exec_out hi
    exact ⟨rs, ho, hle⟩
  · exact hsame rfl

end Sys2Proof.Machine
end

section
/-! PROOFS. The outcome of every command, register by register: the error counters (R45 to R48), `RESULT` (R95),
`RESP.STALE` and `CNT_STALE` (R44, R184), `CUR_TS` (R32) and the marker (R193). -/

namespace Sys2Proof.Machine

variable {s t v : State}

/-! ### The debug port -/

/-- What a successful command of the debug port answers (R125, R143, R160): `OK`, no other flag, no error counted. -/
def DebugOk (s t : State) : Prop :=
  (∃ n, t.resp = ⟨.ok, false, false, 0, n, 0⟩) ∧ t.cntExhausted = s.cntExhausted ∧ t.cntBadcmd = s.cntBadcmd

theorem debugCommand_outcome {α : Type} {bad : Bool} {r : Except ReadStop α} {done : α → State}
    (h : debugCommand bad r done s = .next t) (hd : ∀ v, DebugOk s (done v)) :
    (∃ e, (e = .badCmd ∨ e = .exhausted) ∧ t = s.failCommand e) ∨ DebugOk s t := by
  rcases debugCommand_cases h with ⟨-, ht⟩ | ⟨-, -, ht⟩ | ⟨-, v, -, rfl⟩
  · exact .inl ⟨_, .inl rfl, ht⟩
  · exact .inl ⟨_, .inr rfl, ht⟩
  · exact .inr (hd v)

theorem exec_unit_outcome {i : Instr}
    (hi : i = .extractUnit ∨ (∃ a b, i = .cdpUnit a b) ∨ (∃ d e, i = .otherUnit d e)) (h : exec i s = .next t) :
    (∃ e, (e = .badCmd ∨ e = .exhausted) ∧ t = s.failCommand e) ∨ DebugOk s t := by
  rw [exec_unit s hi] at h
  exact debugCommand_outcome h (fun _ => ⟨⟨_, rfl⟩, rfl, rfl⟩)

/-- A command of the debug port fails with one of two errors, and nothing of its effect done, or succeeds. -/
theorem IsDebug.outcome {i : Instr} (hi : IsDebug i) (h : exec i s = .next t) :
    (∃ e, (e = .badCmd ∨ e = .exhausted) ∧ t = s.failCommand e) ∨ DebugOk s t := by
  obtain ⟨hp, hf, hr⟩ := hi
  cases i with
  | processPacket m => exact absurd rfl (hp m)
  | forceFinalize => exact absurd rfl hf
  | softReset => exact absurd rfl hr
  | readBits n => exact debugCommand_outcome h (fun _ => ⟨⟨_, rfl⟩, rfl, rfl⟩)
  | decodeWord => exact debugCommand_outcome h (fun _ => ⟨⟨_, rfl⟩, rfl, rfl⟩)
  | extractUnit => exact exec_unit_outcome (.inl rfl) h
  | cdpUnit a b => exact exec_unit_outcome (.inr (.inl ⟨a, b, rfl⟩)) h
  | otherUnit d e => exact exec_unit_outcome (.inr (.inr ⟨d, e, rfl⟩)) h

/-- Settles O24: a debug command changes what `DebugChange` lists, and the frame is not in it. -/
theorem debugCommandsKeepFrame : Obligations.DebugCommandsKeepFrame := by
  intro i s t hp hf hr h
  obtain ⟨-, ht⟩ := exec_debug_change hp hf hr h
  rw [ht]
  exact ⟨rfl, rfl, rfl, rfl, fun _ => rfl⟩

/-- Settles O16: what a command keeps is `exec_hostInputsKept`; only the debug port's commands write the cursor, and
those that fail leave it. -/
theorem commandKeepsHostInputs : Obligations.CommandKeepsHostInputs := by
  intro i s t h
  have hkept := exec_hostInputsKept h
  refine ⟨hkept.pktRam, hkept.cmd, hkept.argTs, hkept.argLen, hkept.argHdrLen, hkept.cfg, hkept.faulted, hkept.draw,
    hkept.host, hkept.hostData, fun hcur => ?_⟩
  rcases instr_cases i with ⟨m, rfl⟩ | rfl | rfl | hi
  · exact absurd (execProcessPacket_change h).argCursor hcur
  · exact absurd (execForceFinalize_change h).packetChange.argCursor hcur
  · cases h; exact absurd rfl hcur
  · have hok : t.resp.result = .ok := by
      rcases hi.outcome h with ⟨e, -, rfl⟩ | ⟨⟨n, hn⟩, -⟩
      · exact absurd (by simp [State.failCommand]) hcur
      · rw [hn]
    exact ⟨hok, hi.cases⟩

/-! ### The error counters -/

/-- The four error counters are the same in both states. -/
def SameErrors (s t : State) : Prop :=
  t.cntExhausted = s.cntExhausted ∧ t.cntOverflow = s.cntOverflow ∧ t.cntAlloc = s.cntAlloc
    ∧ t.cntBadcmd = s.cntBadcmd

/-- From `s` to `t` each error counter has counted the command if its `RESULT` is the counter's error (R45 to R48). -/
def ErrorsCounted (s t : State) : Prop :=
  t.cntExhausted = s.cntExhausted + (if t.resp.result = .error .exhausted then 1 else 0)
    ∧ t.cntOverflow = s.cntOverflow + (if t.resp.result = .error .overflow then 1 else 0)
    ∧ t.cntAlloc = s.cntAlloc + (if t.resp.result = .error .alloc then 1 else 0)
    ∧ t.cntBadcmd = s.cntBadcmd + (if t.resp.result = .error .badCmd then 1 else 0)

theorem ErrorsCounted.of_error {e : ErrorCode} (hr : t.resp.result = .error e) (h : SameErrors (s.countError e) t) :
    ErrorsCounted s t := by
  obtain ⟨h1, h2, h3, h4⟩ := h
  simp only [ErrorsCounted, hr, h1, h2, h3, h4, State.countError_cntExhausted, State.countError_cntOverflow,
    State.countError_cntAlloc, State.countError_cntBadcmd, Result.error.injEq, and_self]

theorem ErrorsCounted.of_not_error (hr : ∀ e, t.resp.result ≠ .error e) (h : SameErrors s t) :
    ErrorsCounted s t := by
  obtain ⟨h1, h2, h3, h4⟩ := h
  simp [ErrorsCounted, hr, h1, h2, h3, h4]

theorem sameErrors_afterDiscontinuity (s : State) : SameErrors s (afterDiscontinuity s) := by
  unfold afterDiscontinuity
  split <;> exact ⟨rfl, rfl, rfl, rfl⟩

theorem sameErrors_afterOpen (s : State) : SameErrors s (afterOpen s) := by
  rw [afterOpen_eq]; exact ⟨rfl, rfl, rfl, rfl⟩

theorem sameErrors_afterUnits (s : State) (us : List AncUnit) : SameErrors s (afterUnits s us) := by
  rw [afterUnits_eq]; exact ⟨rfl, rfl, rfl, rfl⟩

theorem SameErrors.marker (h : SameErrors s v) (m : Bool) (r : Resp) :
    SameErrors s { afterMarker m v with resp := r } := by
  cases m <;> exact h

/-- The one more count of an exhaustion, on a machine with the counters of `s` (R192). -/
theorem SameErrors.exhausted (h : SameErrors s v) :
    SameErrors (s.countError .exhausted) { v with cntExhausted := s.cntExhausted + 1 } := by
  obtain ⟨-, h2, h3, h4⟩ := h
  exact ⟨rfl, h2, h3, h4⟩

theorem execProcessPacket_errorsCounted {m : Bool} (h : execProcessPacket m s = .next t) : ErrorsCounted s t := by
  rcases execProcessPacket_cases h with ⟨-, rfl⟩ | ⟨-, -, -, rfl⟩ | ⟨-, -, -, v, rfl, rfl⟩ |
    ⟨-, -, -, count, k, us, -, -, -, -, ⟨-, rfl⟩ | ⟨-, -, v, rfl, rfl⟩ | ⟨u, v, -, -, -, rfl, rfl⟩⟩
  · exact .of_error rfl ⟨rfl, rfl, rfl, rfl⟩
  · obtain ⟨h1, h2, -, h4⟩ := sameErrors_afterDiscontinuity s
    exact .of_error (e := .alloc) rfl ⟨h1, h2, rfl, h4⟩
  · exact .of_error (e := .exhausted) rfl ((sameErrors_afterOpen s).exhausted.marker m _)
  · exact .of_not_error (markerResult_ne_error m _) ((sameErrors_afterUnits s us).marker m _)
  · exact .of_error (e := .exhausted) rfl ((sameErrors_afterUnits s us).exhausted.marker m _)
  · obtain ⟨h1, -, h3, h4⟩ := sameErrors_afterUnits s us
    exact .of_error (e := .overflow) rfl ⟨h1, rfl, h3, h4⟩

theorem execForceFinalize_result (h : execForceFinalize s = .next t) :
    t.resp.result = .ok ∨ t.resp.result = .complete ∨ t.resp.result = .finalEmpty := by
  rw [execForceFinalize_eq, Host.Outcome.next.injEq] at h
  subst h
  split
  · exact .inl rfl
  · cases s.hasBytes
    · exact .inr (.inr rfl)
    · exact .inr (.inl rfl)

/-- Settles O19: by command, each error counted once where it is reported. -/
theorem errorCountersCountResults : Obligations.ErrorCountersCountResults := by
  intro i s t hi h
  rcases instr_cases i with ⟨m, rfl⟩ | rfl | rfl | hd
  · exact execProcessPacket_errorsCounted h
  · have hres := execForceFinalize_result h
    have hchange := execForceFinalize_change h
    refine ErrorsCounted.of_not_error (fun e he => by simp [he] at hres) ?_
    unfold FinalizeChange at hchange
    rw [hchange]
    exact ⟨rfl, rfl, rfl, rfl⟩
  · exact absurd rfl hi
  · rcases hd.outcome h with ⟨e, -, rfl⟩ | ⟨⟨n, hn⟩, hex, hbad⟩
    · exact ErrorsCounted.of_error rfl ⟨rfl, rfl, rfl, rfl⟩
    · obtain ⟨-, ht⟩ := hd.change h
      exact ErrorsCounted.of_not_error (by simp [hn]) ⟨hex, by rw [ht], by rw [ht], hbad⟩

/-! ### `RESULT` -/

theorem markerResult_ne_none_ok (m : Bool) (t : State) : markerResult m t ≠ .none ∧ markerResult m t ≠ .ok := by
  unfold markerResult
  split_ifs <;> simp

theorem execProcessPacket_result {m : Bool} (h : execProcessPacket m s = .next t) :
    t.resp.result ≠ .none ∧ t.resp.result ≠ .ok := by
  rcases execProcessPacket_cases h with ⟨-, rfl⟩ | ⟨-, -, -, rfl⟩ | ⟨-, -, -, v, rfl, rfl⟩ |
    ⟨-, -, -, count, k, us, -, -, -, -, ⟨-, rfl⟩ | ⟨-, -, v, rfl, rfl⟩ | ⟨u, v, -, -, -, rfl, rfl⟩⟩
  case inr.inr.inr.inl => exact markerResult_ne_none_ok m _
  all_goals exact ⟨Result.noConfusion, Result.noConfusion⟩

theorem IsDebug.result {i : Instr} (hi : IsDebug i) (h : exec i s = .next t) :
    t.resp.result = .ok ∨ t.resp.result = .error .exhausted ∨ t.resp.result = .error .badCmd := by
  rcases hi.outcome h with ⟨e, rfl | rfl, rfl⟩ | ⟨⟨n, hn⟩, -⟩
  · exact .inr (.inr rfl)
  · exact .inr (.inl rfl)
  · exact .inl (by rw [hn])

/-- Settles O22, by command. -/
theorem resultsByCommand : Obligations.ResultsByCommand := by
  intro i s t h
  cases i with
  | processPacket m => exact execProcessPacket_result h
  | forceFinalize => exact execForceFinalize_result h
  | softReset => cases h; rfl
  | readBits n | decodeWord | extractUnit | cdpUnit a b | otherUnit d e =>
    exact IsDebug.result (by simp [IsDebug]) h

/-- No command reports `NONE` (R95). -/
theorem exec_result_ne_none {i : Instr} (h : exec i s = .next t) : t.resp.result ≠ .none := by
  rcases instr_cases i with ⟨m, rfl⟩ | rfl | rfl | hi
  · exact (execProcessPacket_result h).1
  · rcases execForceFinalize_result h with hr | hr | hr <;> simp [hr]
  · cases h; exact Result.noConfusion
  · rcases hi.result h with hr | hr | hr <;> simp [hr]

/-! ### `RESP.STALE` and `CNT_STALE` -/

/-- A legal packet reports and counts its discontinuity, whatever it ends with (R184). -/
theorem execProcessPacket_stale {m : Bool} (hl : PacketLegal s) (h : execProcessPacket m s = .next t) :
    t.resp.stale = decide (Discontinuity s) ∧ t.cntStale = s.cntStale + (if Discontinuity s then 1 else 0) := by
  have hmark (v : State) : (afterMarker m v).cntStale = v.cntStale := by cases m <;> rfl
  rcases execProcessPacket_cases h with ⟨hn, -⟩ | ⟨-, -, -, rfl⟩ | ⟨-, -, -, v, rfl, rfl⟩ |
    ⟨-, -, -, count, k, us, -, -, -, -, ⟨-, rfl⟩ | ⟨-, -, v, rfl, rfl⟩ | ⟨u, v, -, -, -, rfl, rfl⟩⟩
  · exact absurd hl hn
  · refine ⟨rfl, ?_⟩
    unfold afterDiscontinuity
    split <;> simp
  · exact ⟨rfl, by simp only [hmark]; rw [afterOpen_eq]⟩
  · exact ⟨rfl, by simp only [hmark]; rw [afterUnits_eq]⟩
  · exact ⟨rfl, by simp only [hmark]; rw [afterUnits_eq]⟩
  · exact ⟨rfl, by simp only [captured]; rw [afterUnits_eq]⟩

/-- A packet whose arguments are out of range fails (R234). -/
theorem execProcessPacket_of_not_legal {m : Bool} (hl : ¬ PacketLegal s) :
    execProcessPacket m s = .next (s.failCommand .badCmd) :=
  exec_of_argumentFails (i := .processPacket m) hl

/-- Every other command reports no discontinuity and counts none. -/
theorem exec_not_stale {i : Instr} (hp : ∀ m, i ≠ .processPacket m) (hi : i ≠ .softReset)
    (h : exec i s = .next t) : t.resp.stale = false ∧ t.cntStale = s.cntStale := by
  rcases instr_cases i with ⟨m, rfl⟩ | rfl | rfl | hd
  · exact absurd rfl (hp m)
  · change execForceFinalize s = _ at h
    have hchange := execForceFinalize_change h
    rw [execForceFinalize_eq, Host.Outcome.next.injEq] at h
    subst h
    split
    · exact ⟨rfl, rfl⟩
    · refine ⟨?_, rfl⟩
      cases s.hasBytes <;> rfl
  · exact absurd rfl hi
  · obtain ⟨-, ht⟩ := hd.change h
    refine ⟨?_, by rw [ht]⟩
    rcases hd.outcome h with ⟨e, -, rfl⟩ | ⟨⟨n, hn⟩, -⟩
    · rfl
    · rw [hn]

/-- Settles O21: a legal packet by `execProcessPacket_stale`; an illegal one fails, and no other command is about
discontinuities. -/
theorem staleCountsDiscontinuities : Obligations.StaleCountsDiscontinuities := by
  intro i s t hi h
  by_cases hp : (∃ m, i = .processPacket m) ∧ PacketLegal s
  · obtain ⟨⟨m, rfl⟩, hl⟩ := hp
    obtain ⟨hstale, hcount⟩ := execProcessPacket_stale hl h
    rw [hstale, hcount]
    simp only [decide_eq_true_eq, true_and]
    exact ⟨fun hd => ⟨⟨m, rfl⟩, hl, hd⟩, fun ⟨_, _, hd⟩ => hd⟩
  · have hnone : t.resp.stale = false ∧ t.cntStale = s.cntStale := by
      by_cases hm : ∃ m, i = .processPacket m
      · obtain ⟨m, rfl⟩ := hm
        have hl : ¬ PacketLegal s := fun hl => hp ⟨⟨m, rfl⟩, hl⟩
        obtain rfl := Host.Outcome.next.inj (h.symm.trans (execProcessPacket_of_not_legal hl))
        exact ⟨rfl, rfl⟩
      · exact exec_not_stale (fun m hm' => hm ⟨m, hm'⟩) hi h
    obtain ⟨hstale, hcount⟩ := hnone
    rw [hstale, hcount]
    refine ⟨by simp, ?_⟩
    constructor
    · intro h'; cases h'
    · rintro ⟨hm, hl, -⟩; exact absurd ⟨hm, hl⟩ hp

/-! ### `CUR_TS` -/

/-- A packet leaves `CUR_TS`, or has its frame open for `ARG_TS` (R32, R185). -/
theorem execProcessPacket_curTs {m : Bool} (h : execProcessPacket m s = .next t) :
    t.curTs = s.curTs ∨ (PacketLegal s ∧ (OpensFrame s → s.allocOk = true) ∧ t.curTs = s.argTs) := by
  have hmark (v : State) : (afterMarker m v).curTs = v.curTs := by cases m <;> rfl
  rcases execProcessPacket_cases h with ⟨-, rfl⟩ | ⟨-, -, -, rfl⟩ | ⟨hl, ha, -, v, rfl, rfl⟩ |
    ⟨hl, ha, -, count, k, us, -, -, -, -, ⟨-, rfl⟩ | ⟨-, -, v, rfl, rfl⟩ | ⟨u, v, -, -, -, rfl, rfl⟩⟩
  · exact .inl rfl
  · refine .inl ?_
    unfold afterDiscontinuity
    split <;> rfl
  · exact .inr ⟨hl, ha, by simp only [hmark]; exact afterOpen_curTs⟩
  · exact .inr ⟨hl, ha, by simp only [hmark]; rw [afterUnits_eq]⟩
  · exact .inr ⟨hl, ha, by simp only [hmark]; rw [afterUnits_eq]⟩
  · exact .inr ⟨hl, ha, by simp only [captured]; rw [afterUnits_eq]⟩

/-- Settles O23: a packet that changes `CUR_TS` has its frame open for `ARG_TS`, another timestamp than before, and so
has opened it. -/
theorem onlyOpenWritesTimestamp : Obligations.OnlyOpenWritesTimestamp := by
  intro i s t h hne
  rcases instr_cases i with ⟨m, rfl⟩ | rfl | rfl | hd
  · obtain hsame | ⟨hl, ha, hts⟩ := execProcessPacket_curTs h
    · exact absurd hsame hne
    · have ho : OpensFrame s := .inr (fun he => hne (hts.trans he))
      exact .inr ⟨⟨m, rfl⟩, hl, ho, ha ho, hts⟩
  · have hchange := execForceFinalize_change h
    unfold FinalizeChange at hchange
    exact absurd (by rw [hchange]) hne
  · cases h; exact .inl ⟨rfl, rfl⟩
  · obtain ⟨-, ht⟩ := hd.change h
    exact absurd (by rw [ht]) hne

/-! ### The marker -/

/-- Where a packet ends with its frame open, its marker ends it (R193). -/
theorem markerEndsFrame_of_open {m : Bool} {r : Result} {n : Nat} {c : Byte}
    (hr : r = markerResult m v ∨ r = .error .exhausted)
    (ht : t = { afterMarker m v with resp := packetResponse m s v r n c }) :
    (m = true → t.status = .idle)
    ∧ (t.resp.mark = true ↔ m = true ∧ t.resp.result ≠ .error .alloc ∧ t.resp.result ≠ .error .overflow)
    ∧ (t.resp.mark = false → t.resp.result ≠ .complete ∧ t.resp.result ≠ .finalEmpty) := by
  have hne (e : ErrorCode) (he : e ≠ .exhausted) : r ≠ .error e := by
    rcases hr with rfl | rfl
    · exact markerResult_ne_error m v e
    · simpa using he.symm
  subst ht
  refine ⟨?_, ?_, ?_⟩
  · rintro rfl; rfl
  · simp [packetResponse, hne]
  · simp only [packetResponse]
    rintro rfl
    rcases hr with rfl | rfl <;> simp [markerResult]

/-- Settles O53: the marker acts exactly where the frame is open at the packet's end (`markerEndsFrame_of_open`), which
it is not after an allocation failure or an overflow. -/
theorem markerEndsFrame : Obligations.MarkerEndsFrame := by
  intro m s t hl h
  rcases execProcessPacket_cases h with ⟨hn, -⟩ | ⟨-, ho, -, rfl⟩ | ⟨-, -, -, v, -, ht⟩ |
    ⟨-, -, -, count, k, us, -, -, -, -, ⟨-, ht⟩ | ⟨-, -, v, -, ht⟩ | ⟨u, v, -, -, -, -, rfl⟩⟩
  · exact absurd hl hn
  · exact ⟨fun _ => afterDiscontinuity_idle.2 ho, by simp, by simp⟩
  · exact markerEndsFrame_of_open (.inr rfl) ht
  · exact markerEndsFrame_of_open (.inl rfl) ht
  · exact markerEndsFrame_of_open (.inr rfl) ht
  · exact ⟨fun _ => rfl, by simp, by simp⟩

end Sys2Proof.Machine
end

section
/-! PROOFS. The frame's own commands: `Finalize` (R181, R182), `FORCE_FINALIZE` (R201) and `SOFT_RESET` (R202). -/

namespace Sys2Proof.Machine

/-- Settles O43: `State.finalize_eq`, the record and its count by whether the frame has a byte. -/
theorem finalizeEmitsFrame : Obligations.FinalizeEmitsFrame := by
  intro s k
  rw [State.finalize_eq, finalRecord]
  by_cases hw : s.wrOff = 0
  · simp [hw]
  · simp only [hw, if_false]
    rfl

/-- Settles O44: `execForceFinalize_eq`, its open frame's record and response by whether it has a byte. -/
theorem forceFinalizeResult : Obligations.ForceFinalizeResult := by
  intro s
  refine (execForceFinalize_eq s).trans ?_
  by_cases hi : s.status = .idle
  · rw [if_pos hi, if_pos hi]
  · rw [if_neg hi, if_neg hi, finalRecord]
    by_cases hw : s.wrOff = 0
    · rw [if_pos hw, if_pos hw, State.hasBytes_eq_false.2 hw]
      simp
    · rw [if_neg hw, if_neg hw, State.hasBytes_eq_true.2 hw]
      rfl

/-- Settles O45: the command is this one record update. -/
theorem softResetResult : Obligations.SoftResetResult := fun _ => rfl

/-- Settles O46: `FORCE_FINALIZE` writes the registers of `FinalizeChange`, and `SOFT_RESET` those of its update. -/
theorem finalizeAndResetFrame : Obligations.FinalizeAndResetFrame := by
  rintro i s t (rfl | rfl) h
  · have hchange := execForceFinalize_change h
    obtain ⟨hpkt, hcmd, hts, hlen, hhdr, hcfg, hf, -⟩ := hchange.packetChange.hostInputsKept
    refine ⟨hcmd, hts, hlen, hhdr, hchange.packetChange.argCursor, hcfg, hf, fun a => ⟨by rw [hpkt], ?_⟩,
      fun hi => (nomatch hi), fun _ => hchange⟩
    unfold FinalizeChange at hchange
    rw [hchange]
    exact ⟨rfl, rfl⟩
  · cases h
    exact ⟨rfl, rfl, rfl, rfl, rfl, rfl, rfl, fun _ => ⟨rfl, rfl, rfl⟩, fun _ => rfl, fun hi => (nomatch hi)⟩

end Sys2Proof.Machine
end

section
/-! PROOFS. `PROCESS_PACKET` whose units all fit (R189, R190, R193), whose unit overflows (R191), its frame (R183), and
the bytes it does not read (R84, R97). -/

namespace Sys2Proof.Machine

/-! ### Units that fit, and a unit that overflows -/

/-- The loop over units that all decode and fit is their acceptance (R189, R190). -/
theorem unitLoop_of_all {s : State} {sl : Slice} {n c : Nat} {r : PacketRun} {us : List AncUnit}
    (hs : SameReads s r.st) (hu : unitsFrom s sl n c = .ok us)
    (hf : r.st.wrOff.toNat + (captionBytes us).length ≤ s.cfg.cap.toNat) :
    unitLoop sl n c r = .ok (acceptAll r us) :=
  unitLoop_of_units (n := 0) hs hu hf

/-- Settles O47: the loop accepts every unit (`unitLoop_of_all`), which is `afterUnits`, and the end honours the
marker (`packetEnd_open`). -/
theorem packetAppendsUnits : Obligations.PacketAppendsUnits := by
  intro m s count us hl ha hh hc hu hf
  change execProcessPacket m s = _
  rw [execProcessPacket_of_legal hl, packetBody_of_count ha hh hc,
    unitLoop_of_all (afterOpen_sameReads s) hu (by rw [afterOpen_wrOff]; exact hf)]
  have hlen := unitsFrom_length hu
  simp only
  rw [packetEnd_open (s := s) (afterUnits_status s us) rfl rfl rfl]
  simp only [acceptAll, packetStart, hlen, Nat.zero_add, ← afterUnits_eq_appendBytes]

theorem afterUnits_cntOverflow (s : State) (us : List AncUnit) : (afterUnits s us).cntOverflow = s.cntOverflow := by
  rw [afterUnits_eq]

/-- The loop over units that decode and fit, with a unit after them that overflows the frame (R191). -/
theorem unitLoop_of_overflow {s : State} {sl : Slice} {k n c : Nat} {r : PacketRun} {us : List AncUnit} {u : AncUnit}
    (hs : SameReads s r.st) (hk : k < n) (hu : unitsFrom s sl k c = .ok us)
    (hx : extractAncUnit s sl (unitsEnd c us) = .ok u)
    (hf : r.st.wrOff.toNat + (captionBytes us).length ≤ s.cfg.cap.toNat)
    (hover : s.cfg.cap.toNat < r.st.wrOff.toNat + (captionBytes us).length + u.bytes.length) :
    unitLoop sl n c r = .ok (packetOverflow (acceptAll r us) u) := by
  obtain ⟨j, rfl⟩ : ∃ j, n = k + (j + 1) := ⟨n - k - 1, by omega⟩
  have hcap := s.cfg.cap.isLt
  have hw : (acceptAll r us).st.wrOff.toNat = r.st.wrOff.toNat + (captionBytes us).length := by
    simp only [acceptAll, State.appendBytes_wrOff, captureAll_wrOff, BitVec.toNat_ofNat]
    exact Nat.mod_eq_of_lt (by omega)
  have ho : overflows (acceptAll r us).st u.bytes = true := by
    rw [overflows_eq_true, (hs.acceptAll us).cfg, hw]
    exact hover
  rw [unitLoop_of_units hs hu hf, unitLoop, (hs.acceptAll us).extract, hx]
  simp only [ho, if_true]

/-- Settles O49: the loop accepts the units before the one that overflows, which is then captured and its frame
finalized (`packetEnd_overflow`). -/
theorem packetOverflowingUnit : Obligations.PacketOverflowingUnit := by
  intro m s count k us u hl ha hh hc hk hu hx hf hover t
  change execProcessPacket m s = _
  rw [execProcessPacket_of_legal hl, packetBody_of_count ha hh hc,
    unitLoop_of_overflow (afterOpen_sameReads s) hk hu hx (by rw [afterOpen_wrOff]; exact hf)
      (by rw [afterOpen_wrOff]; exact hover)]
  have hlen := unitsFrom_length hu
  simp only
  rw [packetEnd_overflow _ _ _ rfl]
  simp only [acceptAll, packetStart, hlen, Nat.zero_add, ← afterUnits_eq_appendBytes, afterUnits_cntOverflow]
  rfl

/-! ### The frame -/

theorem afterDiscontinuity_accBuf (s : State) : (afterDiscontinuity s).accBuf = s.accBuf := by
  unfold afterDiscontinuity
  split <;> rfl

theorem afterOpen_accBuf (s : State) : (afterOpen s).accBuf = s.accBuf := by
  rw [afterOpen_eq]

/-- Units accepted one after the other are stored as one run of bytes. -/
theorem acceptAll_accBuf (r : PacketRun) (us : List AncUnit) :
    (acceptAll r us).st.accBuf = r.st.accBuf.writeRange r.st.wrOff.toNat (captionBytes us) := by
  have hacc : (captureAll r.st us).accBuf = r.st.accBuf := by rw [captureAll_eq]
  simp only [acceptAll, State.appendBytes_accBuf, hacc, captureAll_wrOff]

/-- A packet whose ANC count cannot be read faults on it (R9, R187). -/
theorem packetBody_of_unread {s : State} {f : Fault} (ha : OpensFrame s → s.allocOk = true)
    (hh : s.argHdrLen.toNat ≤ s.argLen.toNat) (hc : pktByte s 4 = .error f) : packetBody s = .error f := by
  have hlen : s.argHdrLen ≤ s.argLen := BitVec.le_def.2 hh
  have hreads := afterOpen_sameReads s
  have hb : pktByte (afterOpen s) 4 = pktByte s 4 := by
    simp only [pktByte, hreads.pktRam, hreads.cfg, hreads.draw]
  rw [packetBody, packetOpen_ok ha]
  simp only [packetUnits, hlen, packetStart, and_self, if_true, hb, hc]

/-- What the body of a packet is: a failed allocation, a payload shorter than its header, or the loop over as many units
as its ANC count says (R186 to R189). -/
theorem packetBody_cases (s : State) :
    (OpensFrame s ∧ s.allocOk = false ∧ packetBody s = .ok (packetError { packetStart s with
        st := afterDiscontinuity s, stale := decide (Discontinuity s), nemit := (staleRecords s).length } .alloc))
    ∨ (s.argLen.toNat < s.argHdrLen.toNat ∧ packetBody s = .ok (packetError (openedRun s) .exhausted))
    ∨ (s.argHdrLen.toNat ≤ s.argLen.toNat ∧ packetBody s = (pktByte s 4 >>= fun count =>
        unitLoop (packetSlice s) count.toNat 0 { openedRun s with count := count })) := by
  by_cases ha : OpensFrame s → s.allocOk = true
  swap
  · obtain ⟨ho, hf⟩ := Classical.not_imp.1 ha
    have hf := Bool.eq_false_iff.2 hf
    exact .inl ⟨ho, hf, packetBody_of_alloc ho hf⟩
  by_cases hh : s.argHdrLen.toNat ≤ s.argLen.toNat
  · refine .inr (.inr ⟨hh, ?_⟩)
    cases hc : pktByte s 4 with
    | error f => exact packetBody_of_unread ha hh hc
    | ok count => exact packetBody_of_count ha hh hc
  · exact .inr (.inl ⟨by omega, packetBody_of_short ha (by omega)⟩)

/-- The bytes a packet stores in `ACC_BUF` lie from `firstStored` on, and `PacketRun.stored` is their number (R190). -/
theorem packetBody_accBuf {s : State} {r : PacketRun} (h : packetBody s = .ok r) :
    ∃ bs : List Byte, bs.length = r.stored ∧ r.st.accBuf = s.accBuf.writeRange (firstStored s) bs := by
  obtain ⟨-, -, hb⟩ | ⟨-, hb⟩ | ⟨-, hb⟩ := packetBody_cases s
  · obtain rfl := Except.ok.inj (h.symm.trans hb)
    exact ⟨[], rfl, afterDiscontinuity_accBuf s⟩
  · obtain rfl := Except.ok.inj (h.symm.trans hb)
    exact ⟨[], rfl, afterOpen_accBuf s⟩
  · obtain ⟨count, -, hloop⟩ := bind_eq_ok.1 (hb.symm.trans h)
    obtain ⟨k, us, -, -, -, hr⟩ := unitLoop_cases (s := s) (afterOpen_sameReads s) hloop
    have hsame : r.stored = (acceptAll { openedRun s with count := count } us).stored
        ∧ r.st.accBuf = (acceptAll { openedRun s with count := count } us).st.accBuf := by
      rcases hr with ⟨-, rfl⟩ | ⟨-, -, rfl⟩ | ⟨u, -, -, -, rfl⟩
      · exact ⟨rfl, rfl⟩
      · exact ⟨rfl, rfl⟩
      · exact ⟨rfl, by simp [packetOverflow, packetFinalize, packetError]⟩
    obtain ⟨hstored, hacc⟩ := hsame
    refine ⟨captionBytes us, by simp [hstored, acceptAll, openedRun, packetStart], ?_⟩
    rw [hacc, acceptAll_accBuf]
    simp only [openedRun, afterOpen_wrOff, afterOpen_accBuf]

theorem packetEnd_accBuf (m : Bool) (r : PacketRun) : (packetEnd m r).accBuf = r.st.accBuf := by
  unfold packetEnd packetMarker
  split <;> simp [packetFinalize]

/-- Settles O52: the registers by `execProcessPacket_change`, and `ACC_BUF` by the one run of bytes the body stores
(`packetBody_accBuf`), which the end leaves (`packetEnd_accBuf`). -/
theorem packetFrame : Obligations.PacketFrame := by
  intro m s t h
  have hchange := execProcessPacket_change h
  have hillegal (hl : ¬ PacketLegal s) : t.accBuf = s.accBuf := by
    obtain rfl := Host.Outcome.next.inj (h.symm.trans (execProcessPacket_of_not_legal hl))
    rfl
  refine ⟨hchange, fun a => ?_, fun hl a => by rw [hillegal hl], fun r hr a ha => ?_⟩
  · unfold PacketChange at hchange
    rw [hchange]
    exact ⟨rfl, rfl⟩
  · by_cases hl : PacketLegal s
    · change execProcessPacket m s = _ at h
      rw [execProcessPacket_of_legal hl, hr] at h
      obtain rfl := Host.Outcome.next.inj h
      obtain ⟨bs, hlen, hacc⟩ := packetBody_accBuf hr
      rw [packetEnd_accBuf, hacc, Memory.read_writeRange_outside _ _ _ (by rw [hlen]; exact ha)]
    · rw [hillegal hl]

end Sys2Proof.Machine
end

section
/-! PROOFS. What a packet does not read (R84, R97): with other bytes in `PKT_RAM` where the packet looks at none, every
phase does the same. -/

namespace Sys2Proof.Machine

/-- The machine with other packet bytes. -/
def State.withRam (ram : Memory) (s : State) : State := { s with pktRam := ram }

/-- The running packet with other packet bytes. -/
def PacketRun.withRam (ram : Memory) (r : PacketRun) : PacketRun := { r with st := r.st.withRam ram }

variable {ram : Memory} {s : State}

/-! ### The operations of a packet -/

theorem State.finalize_withRam (s : State) (k : RecordKind) :
    (s.withRam ram).finalize k = (s.finalize k).withRam ram := by
  rw [State.finalize_eq, State.finalize_eq]; rfl

theorem packetError_withRam (r : PacketRun) (e : ErrorCode) :
    packetError (r.withRam ram) e = (packetError r e).withRam ram := by
  cases e <;> rfl

theorem packetFinalize_withRam (r : PacketRun) (k : RecordKind) :
    packetFinalize (r.withRam ram) k = (packetFinalize r k).withRam ram := by
  have hst : (r.withRam ram).st.finalize k = (r.st.finalize k).withRam ram := State.finalize_withRam r.st k
  rw [packetFinalize, hst]
  rfl

theorem packetAccept_withRam (r : PacketRun) (u : AncUnit) :
    packetAccept (r.withRam ram) u = (packetAccept r u).withRam ram := by
  simp only [packetAccept, State.capture_eq]; rfl

theorem packetOverflow_withRam (r : PacketRun) (u : AncUnit) :
    packetOverflow (r.withRam ram) u = (packetOverflow r u).withRam ram := by
  simp only [packetOverflow, State.capture_eq]
  rw [← packetFinalize_withRam]
  rfl

/-! ### The phases -/

theorem packetDiscontinuity_withRam (r : PacketRun) :
    packetDiscontinuity (r.withRam ram) = (packetDiscontinuity r).withRam ram := by
  have hd : discontinuous (r.withRam ram).st = discontinuous r.st := rfl
  unfold packetDiscontinuity
  rw [hd]
  split
  · rw [packetFinalize_withRam]; rfl
  · rfl

theorem packetOpen_withRam (r : PacketRun) : packetOpen (r.withRam ram) = (packetOpen r).withRam ram := by
  have hs : (r.withRam ram).st.status = r.st.status := rfl
  have ha : (r.withRam ram).st.allocOk = r.st.allocOk := rfl
  unfold packetOpen
  rw [hs, ha]
  split_ifs
  · rfl
  · exact packetError_withRam r .alloc
  · rfl

theorem packetMarker_withRam (m : Bool) (r : PacketRun) :
    packetMarker m (r.withRam ram) = (packetMarker m r).withRam ram := by
  have hs : (r.withRam ram).st.status = r.st.status := rfl
  unfold packetMarker
  rw [hs]
  split
  · rw [packetFinalize_withRam]; rfl
  · rfl

theorem packetEnd_withRam (m : Bool) (r : PacketRun) : packetEnd m (r.withRam ram) = (packetEnd m r).withRam ram := by
  rw [packetEnd, packetMarker_withRam]; rfl

/-- The loop does the same where every unit it may read is the same. -/
theorem unitLoop_withRam {sl : Slice} (hx : ∀ c, extractAncUnit (s.withRam ram) sl c = extractAncUnit s sl c)
    {n c : Nat} {r : PacketRun} (hs : SameReads s r.st) :
    unitLoop sl n c (r.withRam ram) = (unitLoop sl n c r).map (PacketRun.withRam ram) := by
  induction n generalizing c r with
  | zero => rfl
  | succ n ih =>
    have hunit : extractAncUnit (r.withRam ram).st sl c = extractAncUnit r.st sl c :=
      calc extractAncUnit (r.withRam ram).st sl c
        _ = extractAncUnit (s.withRam ram) sl c := 
          extractAncUnit_eq_of_eq (s := s.withRam ram) (s' := (r.withRam ram).st) rfl hs.cfg hs.draw sl c
        _ = extractAncUnit s sl c := hx c
        _ = extractAncUnit r.st sl c := (hs.extract sl c).symm
    rw [unitLoop, unitLoop, hunit]
    cases hu : extractAncUnit r.st sl c with
    | error e =>
      cases e with
      | exhausted => exact congrArg Except.ok (packetError_withRam r .exhausted)
      | fault f => rfl
    | ok u =>
      have ho : overflows (r.withRam ram).st u.bytes = overflows r.st u.bytes := rfl
      simp only [ho]
      split
      · exact congrArg Except.ok (packetOverflow_withRam r u)
      · rw [packetAccept_withRam]
        exact ih (hs.accept u)

/-! ### The command -/

/-- The packet reads only byte 4 of its header and the bytes of its slice (R84, R187). -/
def AgreeOnPacket (ram : Memory) (s : State) : Prop :=
  ∀ a, a = 4 ∨ (s.argHdrLen.toNat ≤ a ∧ a < s.argLen.toNat) → ram.read a = s.pktRam.read a

theorem pktByte_withRam {a : Nat} (h : ram.read a = s.pktRam.read a) : pktByte (s.withRam ram) a = pktByte s a := by
  unfold pktByte
  rw [show (s.withRam ram).pktRam.read a = s.pktRam.read a from h]
  rfl

theorem extractAncUnit_withRam (h : AgreeOnPacket ram s) (c : Nat) :
    extractAncUnit (s.withRam ram) (packetSlice s) c = extractAncUnit s (packetSlice s) c := by
  refine extractAncUnit_congr (fun a hlo hhi => pktByte_withRam (h a (.inr ?_))) rfl c
  simp only [packetSlice] at hlo hhi
  omega

/-- The discontinuity and the open change nothing that a read of the packet depends on. -/
theorem packetOpen_sameReads (s : State) : SameReads s (packetOpen (packetDiscontinuity (packetStart s))).st := by
  by_cases ha : OpensFrame s → s.allocOk = true
  · rw [packetOpen_ok ha]
    exact afterOpen_sameReads s
  · obtain ⟨ho, hf⟩ := Classical.not_imp.1 ha
    have hkept := (afterDiscontinuity_change s).hostInputsKept
    rw [packetOpen_alloc ho (Bool.eq_false_iff.2 hf)]
    exact ⟨hkept.pktRam, hkept.cfg, hkept.draw⟩

theorem packetUnits_withRam (h : AgreeOnPacket ram s) {r : PacketRun} (hs : SameReads s r.st) :
    packetUnits (s.withRam ram) (r.withRam ram) = (packetUnits s r).map (PacketRun.withRam ram) := by
  have hb : pktByte (r.withRam ram).st 4 = pktByte r.st 4 :=
    pktByte_withRam ((h 4 (.inl rfl)).trans (by rw [hs.pktRam]))
  have he : (r.withRam ram).err = r.err := rfl
  have hhdr : (s.withRam ram).argHdrLen = s.argHdrLen := rfl
  have hlen : (s.withRam ram).argLen = s.argLen := rfl
  unfold packetUnits
  rw [hb, he, hhdr, hlen]
  split
  · cases pktByte r.st 4 with
    | error f => rfl
    | ok count =>
      exact unitLoop_withRam (r := { r with count := count }) (extractAncUnit_withRam h) hs
  · split
    · exact congrArg Except.ok (packetError_withRam r .exhausted)
    · rfl

theorem packetBody_withRam (h : AgreeOnPacket ram s) :
    packetBody (s.withRam ram) = (packetBody s).map (PacketRun.withRam ram) := by
  have hstart : packetStart (s.withRam ram) = (packetStart s).withRam ram := rfl
  rw [packetBody, hstart, packetDiscontinuity_withRam, packetOpen_withRam]
  exact packetUnits_withRam h (packetOpen_sameReads s)

/-- Settles O55: the body commutes with the change of bytes (`packetBody_withRam`), and so does the end. -/
theorem ignoredPayloadBytes : Obligations.IgnoredPayloadBytes := by
  intro m s ram h
  change execProcessPacket m (s.withRam ram) = onNext (State.withRam ram) (execProcessPacket m s)
  by_cases hl : PacketLegal s
  · have hl' : PacketLegal (s.withRam ram) := hl
    rw [execProcessPacket_of_legal hl', execProcessPacket_of_legal hl, packetBody_withRam h]
    cases packetBody s with
    | error f => rfl
    | ok r => exact congrArg Host.Outcome.next (packetEnd_withRam m r)
  · have hl' : ¬ PacketLegal (s.withRam ram) := hl
    rw [execProcessPacket_of_not_legal hl', execProcessPacket_of_not_legal hl]
    rfl

end Sys2Proof.Machine
end

section
/-! PROOFS. The debug port's readers: what `READ_BITS` (R125) and `DECODE_WORD` (R143) answer where their bits may be
read, their frame, and the commands with an argument out of range (R234). -/

namespace Sys2Proof.Machine

/-- Settles O26: the fields `exec_of_argumentFails` leaves, written out. -/
theorem badArgumentsChangeNothingElse : Obligations.BadArgumentsChangeNothingElse := by
  intro i s h
  rw [exec_of_argumentFails h, State.failCommand_badCmd]

/-- Settles O31: the bit of the byte that `pktByte` reads where it is written. -/
theorem streamBitOrder : Obligations.StreamBitOrder := by
  intro s sl k b h
  have hb : pktByte s (sl.base + k / 8) = .ok b := by rw [pktByte, h]
  rw [streamBit, hb]

/-- Settles O32: what either command does with a value, and what a failure does, keeps every other field. -/
theorem debugReadFrame : Obligations.DebugReadFrame := by
  rintro i s t (⟨n, rfl⟩ | rfl) h <;>
    rcases debugCommand_cases h with ⟨-, rfl⟩ | ⟨-, -, rfl⟩ | ⟨-, v, -, rfl⟩ <;>
    exact ⟨rfl, fun _ => ⟨rfl, rfl, rfl⟩⟩

/-! ### Bits that may be read -/

/-- A run of bits is the bits of the number it spells. -/
theorem msbBits_bitsOnto (bits : List Bool) : msbBits (BitVec.ofNat bits.length (bitsOnto 0 bits)) = bits := by
  refine List.ext_getElem (length_msbBits _) fun j hj hj' => ?_
  rw [getElem_msbBits, BitVec.getMsbD, BitVec.getLsbD_ofNat, testBit_bitsOnto bits j hj']
  simp [hj']
  omega

/-- `n` bits inside the slice, each under a byte that may be read, are a field (R120, R121). -/
theorem exists_field_of_readable {s : State} {sl : Slice} {c n : Nat} (hl : c + n ≤ sl.bitLen)
    (hr : ∀ a, sl.base + c / 8 ≤ a → a ≤ sl.base + (c + n - 1) / 8 → PktReadable s a) :
    ∃ v : BitVec n, BitsAt s sl c (msbBits v) := by
  cases h : readBits s sl c n with
  | ok p =>
    obtain ⟨v, c'⟩ := p
    obtain ⟨-, bits, rfl, -, hbits⟩ := readBits_eq_ok_iff.1 h
    exact ⟨_, by rw [msbBits_bitsOnto]; exact hbits⟩
  | error e =>
    cases e with
    | exhausted => rw [readBits_exhausted] at h; omega
    | fault f =>
      obtain ⟨k, -, hlo, hhi, hk⟩ := readBits_fault h
      obtain ⟨b, hb⟩ := pktByte_isOk (hr (sl.base + k / 8) (by omega) (by omega))
      rw [hk] at hb
      cases hb

/-- What a field in the slice says of each stream bit. -/
theorem BitsAt.streamBit_eq {s : State} {sl : Slice} {c n : Nat} {v : BitVec n} (h : BitsAt s sl c (msbBits v))
    {j : Nat} (hj : j < n) : streamBit s sl (c + j) = .ok (v.getMsbD j) := by
  rw [h.2 j (by rw [length_msbBits]; exact hj), getElem_msbBits]

/-! ### The two commands -/

/-- Settles O28: the bits are a field (`exists_field_of_readable`), whose value the read gives. -/
theorem readBitsResult : Obligations.ReadBitsResult := by
  intro n s h1 h32 hl hfit hr
  obtain ⟨v, hv⟩ := exists_field_of_readable (sl := debugSlice s) hfit (by simpa [debugSlice] using hr)
  refine ⟨v.toNat, v.isLt, fun j hj => ?_, ?_⟩
  · rw [show (⟨0, 8 * s.argLen.toNat⟩ : Slice) = debugSlice s from rfl, hv.streamBit_eq hj, BitVec.getMsbD]
    simp [hj, BitVec.getLsbD]
  · rw [exec_readBits_of_legal h1 h32 hl, readBits_of_field v hv, debugCommand_ok]
    simp only [State.setCursor, BitVec.ofNat_add, BitVec.ofNat_toNat, BitVec.setWidth_eq]
    rfl

theorem exec_decodeWord_of_legal {s : State} (hl : LenLegal s) :
    exec .decodeWord s = debugCommand false (decodeAncWord s (debugSlice s) s.argCursor.toNat)
      (fun w => ((s.setDbg (w.data.setWidth 32)).setCursor w.next).respond (Resp.only .ok)) s := by
  rw [← lenTooLong_eq_false.2 hl]
  rfl

/-- Settles O33: the ten bits are a word (`exists_field_of_readable`), and with fewer the read is exhausted. -/
theorem decodeWordResult : Obligations.DecodeWordResult := by
  intro s hl
  refine ⟨fun hfit hr => ?_, fun hshort => ?_⟩
  · obtain ⟨w, hw⟩ := exists_field_of_readable (sl := debugSlice s) hfit (by simpa [debugSlice] using hr)
    refine ⟨w, fun j hj => hw.streamBit_eq hj, ?_⟩
    rw [exec_decodeWord_of_legal hl, decodeAncWord_of_field w hw, debugCommand_ok]
    simp only [State.setCursor, BitVec.ofNat_add, BitVec.ofNat_toNat, BitVec.setWidth_eq]
    rfl
  · have hread : decodeAncWord s (debugSlice s) s.argCursor.toNat = .error .exhausted := by
      rw [decodeAncWord_eq_error, readBits_exhausted]
      simp only [debugSlice]
      omega
    rw [exec_decodeWord_of_legal hl, hread, debugCommand_exhausted, State.failCommand_exhausted]

end Sys2Proof.Machine
end

section
/-! PROOFS. Units: an other unit laid out in a slice (R156), a unit as an instruction of its own (assumption 3), the
lengths of units (R92), and the frame of the unit-level commands (R160). -/

namespace Sys2Proof.Machine

/-! ### Other units -/

/-- The rest of an other unit whose data count stands at the cursor (R156). -/
theorem otherUnitBody_of_bits {s : State} {sl : Slice} {c : Nat} {dcw : AncWord10} (d e : AncWord10)
    (h : BitsAt s sl c (msbBits dcw)) :
    otherUnitBody s sl d e c =
      if c + 10 + skipBits s (dataByte dcw) ≤ sl.bitLen then
        .ok (otherUnitOf d e dcw (c + 10 + skipBits s (dataByte dcw)))
      else .error .exhausted := by
  have hfit : c + 10 ≤ sl.bitLen := by simpa using h.1
  cases hp : s.cfg.skipPolicy with
  | reference =>
    simp only [otherUnitBody, decodeAncWord_of_field _ h, ok_bind, skipBits, hp, Nat.add_zero, if_pos hfit]
    rfl
  | declared =>
    simp only [otherUnitBody, decodeAncWord_of_field _ h, ok_bind, skipBits, hp]
    by_cases hd : c + 10 + 10 * (dataByte dcw).toNat ≤ sl.bitLen
    · rw [if_pos hd, if_neg (by omega)]
      rfl
    · rw [if_neg hd, if_pos (by omega)]

/-- With identifier words that are no CDP pair at the cursor, the unit is the other body after them (R88, R152). -/
theorem extractAncUnit_of_otherIds {s : State} {sl : Slice} {c : Nat} {d e : AncWord10}
    (hn : ¬ (dataByte d = 0x61 ∧ dataByte e = 0x01)) (hd : BitsAt s sl c (msbBits d))
    (he : BitsAt s sl (c + 10) (msbBits e)) : extractAncUnit s sl c = otherUnitBody s sl d e (c + 20) := by
  rw [extractAncUnit_of_ids (decodeAncWord_of_field d hd) (decodeAncWord_of_field e he), isCdpId_append,
    if_neg (by rw [isCdpPair_iff_dataByte]; exact hn)]

/-- The unit-level command of a legal length whose read gives a unit leaves `afterExtract` of it (R160). -/
theorem exec_unit_of_ok {i : Instr} {s : State} {u : AncUnit} (hl : LenLegal s)
    (hi : i = .extractUnit ∨ (∃ a b, i = .cdpUnit a b) ∨ (∃ d e, i = .otherUnit d e))
    (h : unitRead i s = .ok u) : exec i s = .next (afterExtract s u) := by
  rw [exec_unit s hi, lenTooLong_eq_false.2 hl, h, debugCommand_ok]

/-- Settles O37: the extraction of a header that is no CDP unit's (`extractAncUnit_of_otherIds`,
`otherUnitBody_of_bits`), and what the two commands that read it leave (`exec_unit_of_ok`). -/
theorem otherUnitResult : Obligations.OtherUnitResult := by
  intro s d e dcw hn
  have hsplit {sl : Slice} {c : Nat} (h : BitsAt s sl c (msbBits d ++ msbBits e ++ msbBits dcw)) :
      extractAncUnit s sl c = otherUnitBody s sl d e (c + 20) ∧ BitsAt s sl (c + 20) (msbBits dcw) := by
    simp only [List.append_assoc, bitsAt_append_iff, length_msbBits] at h
    obtain ⟨hd, he, hdc⟩ := h
    exact ⟨extractAncUnit_of_otherIds hn hd he, hdc⟩
  refine ⟨fun sl c h => ?_, ?_⟩
  · obtain ⟨hx, hdc⟩ := hsplit h
    rw [hx, otherUnitBody_of_bits d e hdc]
  · intro hl h hfit t
    obtain ⟨hx, hdc⟩ := hsplit h
    have hbody := (otherUnitBody_of_bits d e hdc).trans (if_pos hfit)
    exact ⟨exec_unit_of_ok hl (.inl rfl) (hx.trans hbody), exec_unit_of_ok hl (.inr (.inr ⟨d, e, rfl⟩)) hbody⟩

/-- Only the data bytes of the identifier words play a part in an other unit (R141, R156). -/
theorem otherUnitBody_eq_of_dataByte {s : State} {sl : Slice} {c : Nat} {d e d' e' : AncWord10}
    (hd : dataByte d = dataByte d') (he : dataByte e = dataByte e') :
    otherUnitBody s sl d e c = otherUnitBody s sl d' e' c := by
  have hd' : d.extractLsb' 0 8 = d'.extractLsb' 0 8 := hd
  have he' : e.extractLsb' 0 8 = e'.extractLsb' 0 8 := he
  simp only [otherUnitBody, hd', he']

/-- Settles O41: a CDP unit's operands are not read, and of an other unit's words only the data bytes are. -/
theorem parityBitsIgnored : Obligations.ParityBitsIgnored := by
  refine ⟨fun a b a' b' s => rfl, fun d e d' e' s hd he => ?_⟩
  have hread : unitRead (.otherUnit d e) s = unitRead (.otherUnit d' e') s := otherUnitBody_eq_of_dataByte hd he
  rw [exec_unit s (.inr (.inr ⟨d, e, rfl⟩)), exec_unit s (.inr (.inr ⟨d', e', rfl⟩)), hread]

/-- Settles O36: the fields laid out after the identifier words are read back (`cdpUnitBody_of_bits`), and a read that
runs out fails the command. -/
theorem unitInstructionResult : Obligations.UnitInstructionResult := by
  refine fun s hl => ⟨fun a b f hf h => ?_, fun i hi h => ?_⟩
  · exact exec_unit_of_ok hl (.inr (.inl ⟨a, b, rfl⟩)) (cdpUnitBody_of_bits hf h)
  · rw [exec_unit s (.inr hi), lenTooLong_eq_false.2 hl, h, debugCommand_exhausted, State.failCommand_exhausted]

/-! ### Lengths -/

/-- Settles O39: a unit that decodes is one of the two kinds by its data bytes (`extractAncUnit_eq_ok`), and each kind's
body says where it ends. -/
theorem unitLength : Obligations.UnitLength := by
  intro s sl c u h
  obtain ⟨d, e, -, -, ⟨-, hbody⟩ | ⟨hid, hbody⟩⟩ := extractAncUnit_eq_ok h
  · obtain ⟨hcdp, hdid, hsdid, hnext, hlen, hfit⟩ := cdpUnitBody_eq_ok hbody
    refine ⟨hfit, by simp [hcdp, hdid, hsdid], fun _ => ⟨?_, hlen, extractAncUnit_bytes_le h⟩, by simp [hcdp]⟩
    rw [hnext, captionCount]
  · obtain ⟨dc, hu, hnext, hfit⟩ := otherUnitBody_eq_ok hbody
    have hpair : ¬ (dataByte d.raw = 0x61 ∧ dataByte e.raw = 0x01) := by
      rw [← isCdpPair_iff_dataByte, ← isCdpId_append, hid]
      exact Bool.false_ne_true
    have hcdp : u.isCdp = false := by rw [hu]; rfl
    refine ⟨hfit, ?_, by simp [hcdp], fun _ => ⟨?_, by rw [hu]; rfl⟩⟩
    · rw [hcdp, hu]
      exact ⟨fun h => (nomatch h), fun h => absurd h hpair⟩
    · have hdc : u.dc = dc := by rw [hu]; rfl
      rw [hnext, hdc]
      rfl

/-- A read that stops stops what is read after it. -/
theorem error_bind {ε α β : Type} (e : ε) (g : α → Except ε β) : ((.error e : Except ε α) >>= g) = .error e := rfl

/-- A word at a cursor of a slice whose bytes may be read runs out, or is read (R122). -/
theorem decodeAncWord_of_readable {s : State} {sl : Slice} (c : Nat)
    (hr : ∀ a, sl.base ≤ a → a < sl.base + (sl.bitLen + 7) / 8 → PktReadable s a) :
    decodeAncWord s sl c = .error .exhausted ∨ ∃ d, decodeAncWord s sl c = .ok d := by
  cases h : decodeAncWord s sl c with
  | ok d => exact .inr ⟨d, rfl⟩
  | error e =>
    cases e with
    | exhausted => exact .inl rfl
    | fault f =>
      obtain ⟨a, hlo, hhi, ha⟩ := decodeAncWord_faultsIn h
      obtain ⟨b, hb⟩ := pktByte_isOk (hr a hlo hhi)
      rw [ha] at hb
      cases hb

/-- Settles O40: one of the header's three words runs out, the third at the latest. -/
theorem shortHeaderGivesNoUnit : Obligations.ShortHeaderGivesNoUnit := by
  intro s sl c hshort hr
  have hdc : decodeAncWord s sl (c + 20) = .error .exhausted := by
    rw [decodeAncWord_eq_error, readBits_exhausted]
    omega
  obtain hd | ⟨d, hd⟩ := decodeAncWord_of_readable c hr
  · rw [extractAncUnit, hd, error_bind]
  obtain ⟨hdn, -⟩ := decodeAncWord_eq_ok hd
  obtain he | ⟨e, he⟩ := decodeAncWord_of_readable d.next hr
  · rw [extractAncUnit, hd, ok_bind, he, error_bind]
  obtain ⟨hen, -⟩ := decodeAncWord_eq_ok he
  have hcur : e.next = c + 20 := by omega
  rw [extractAncUnit_of_ids hd he, hcur]
  split
  · rw [cdpUnitBody, hdc, error_bind]
  · rw [otherUnitBody, hdc, error_bind]

/-! ### The frame -/

/-- Settles O42: a failure writes only `RESP` and its counter, and a unit read is stored from offset 0 of `UNIT_BUF`. -/
theorem extractFrame : Obligations.ExtractFrame := by
  intro i s t hi h
  rw [exec_unit s hi] at h
  rcases debugCommand_cases h with ⟨-, rfl⟩ | ⟨-, -, rfl⟩ | ⟨hbad, u, hu, rfl⟩
  · exact ⟨rfl, fun _ => ⟨rfl, rfl⟩, fun _ _ => rfl⟩
  · exact ⟨rfl, fun _ => ⟨rfl, rfl⟩, fun _ _ => rfl⟩
  · refine ⟨rfl, fun _ => ⟨rfl, rfl⟩, fun a ha => Memory.read_writeRange_outside _ _ _ (.inr ?_)⟩
    rw [Nat.zero_add]
    exact ha u (lenTooLong_eq_false.1 hbad) hu

end Sys2Proof.Machine
end

section
/-! PROOFS. Where a command stops (R9, R247): only on an unwritten byte of the payload, and there it does; and that
every command completes where the payload may be read (R263). -/

namespace Sys2Proof.Machine

variable {s : State} {f : Fault}

/-! ### No command is refused -/

theorem execProcessPacket_ne_refused {m : Bool} {q : Refusal} : execProcessPacket m s ≠ .refused q := by
  by_cases hl : PacketLegal s
  · rw [execProcessPacket_of_legal hl]
    cases packetBody s <;> simp
  · rw [execProcessPacket_of_not_legal hl]
    simp

theorem exec_ne_refused {i : Instr} {q : Refusal} : exec i s ≠ .refused q := by
  cases i with
  | processPacket m => exact execProcessPacket_ne_refused
  | forceFinalize => rw [exec, execForceFinalize_eq]; simp
  | softReset => rw [exec, execSoftReset]; simp
  | readBits n => exact debugCommand_ne_refused
  | decodeWord => exact debugCommand_ne_refused
  | extractUnit => exact debugCommand_ne_refused
  | cdpUnit a b => exact debugCommand_ne_refused
  | otherUnit d e => exact debugCommand_ne_refused

/-! ### A fault is on an unwritten byte of the payload -/

/-- The fault names a byte of the payload that the host has not written, in a build that faults on it (R9). -/
def FaultsOnPayload (s : State) (f : Fault) : Prop :=
  s.cfg.unwrittenRead = .fault ∧ ∃ a < s.argLen.toNat, s.pktWritten a = false ∧ f = .unwrittenPkt a

theorem faultsOnPayload_of_pktByte {a : Nat} (ha : a < s.argLen.toNat) (h : pktByte s a = .error f) :
    FaultsOnPayload s f := by
  obtain ⟨hb, hw, hf⟩ := pktByte_eq_error h
  exact ⟨hb, a, ha, hw, hf⟩

theorem FaultsIn.onPayload {sl : Slice} (h : FaultsIn s sl f)
    (hsl : sl.base + (sl.bitLen + 7) / 8 ≤ s.argLen.toNat) : FaultsOnPayload s f := by
  obtain ⟨a, -, hhi, ha⟩ := h
  exact faultsOnPayload_of_pktByte (Nat.lt_of_lt_of_le hhi hsl) ha

theorem debugSlice_end (s : State) : (debugSlice s).base + ((debugSlice s).bitLen + 7) / 8 ≤ s.argLen.toNat := by
  simp only [debugSlice]
  omega

/-- The unit loop faults only on a unit it reads. -/
theorem unitLoop_faultsIn {sl : Slice} {n c : Nat} {r : PacketRun} (hs : SameReads s r.st)
    (h : unitLoop sl n c r = .error f) : FaultsIn s sl f := by
  induction n generalizing c r with
  | zero => cases h
  | succ n ih =>
    rw [unitLoop, hs.extract] at h
    split at h
    · rename_i hx
      cases h
      exact extractAncUnit_faultsIn hx
    · cases h
    · split at h
      · cases h
      · exact ih (hs.accept _) h

/-- The body of a packet faults only on byte 4 or on a unit it reads, both in the payload (R187, R189). -/
theorem packetBody_faultsOnPayload (hl : PacketLegal s) (h : packetBody s = .error f) : FaultsOnPayload s f := by
  obtain ⟨-, h5, -⟩ := hl
  obtain ⟨-, -, hb⟩ | ⟨-, hb⟩ | ⟨hh, hb⟩ := packetBody_cases s
  · cases h.symm.trans hb
  · cases h.symm.trans hb
  · rcases bind_eq_error.1 (hb.symm.trans h) with hc | ⟨count, -, hloop⟩
    · exact faultsOnPayload_of_pktByte (by omega) hc
    · refine (unitLoop_faultsIn (r := { openedRun s with count := count }) (afterOpen_sameReads s) hloop).onPayload ?_
      simp only [packetSlice]
      omega

theorem execProcessPacket_fault {m : Bool} (h : execProcessPacket m s = .fault f) :
    PacketLegal s ∧ packetBody s = .error f := by
  by_cases hl : PacketLegal s
  · rw [execProcessPacket_of_legal hl] at h
    refine ⟨hl, ?_⟩
    cases hb : packetBody s with
    | ok r => rw [hb] at h; cases h
    | error g => rw [hb] at h; cases h; rfl
  · rw [execProcessPacket_of_not_legal hl] at h
    cases h

theorem exec_unit_faultsOnPayload {i : Instr}
    (hi : i = .extractUnit ∨ (∃ a b, i = .cdpUnit a b) ∨ (∃ d e, i = .otherUnit d e))
    (h : exec i s = .fault f) : FaultsOnPayload s f := by
  rw [exec_unit s hi] at h
  exact (unitRead_faultsIn (debugCommand_fault h).2).onPayload (debugSlice_end s)

theorem exec_faultsOnPayload {i : Instr} (h : exec i s = .fault f) : FaultsOnPayload s f := by
  cases i with
  | processPacket m =>
    obtain ⟨hl, hb⟩ := execProcessPacket_fault h
    exact packetBody_faultsOnPayload hl hb
  | forceFinalize => rw [exec, execForceFinalize_eq] at h; cases h
  | softReset => cases h
  | readBits n => exact (readBits_faultsIn (debugCommand_fault h).2).onPayload (debugSlice_end s)
  | decodeWord => exact (decodeAncWord_faultsIn (debugCommand_fault h).2).onPayload (debugSlice_end s)
  | extractUnit => exact exec_unit_faultsOnPayload (.inl rfl) h
  | cdpUnit a b => exact exec_unit_faultsOnPayload (.inr (.inl ⟨a, b, rfl⟩)) h
  | otherUnit d e => exact exec_unit_faultsOnPayload (.inr (.inr ⟨d, e, rfl⟩)) h

/-- Settles O17: a fault is on a payload byte that may not be read (`exec_faultsOnPayload`), no command is refused, and
no result is `NONE` (`exec_result_ne_none`). -/
theorem everyCommandCompletes : Obligations.EveryCommandCompletes := by
  intro i s hr
  cases h : exec i s with
  | next t =>
    exact ⟨t, rfl, exec_result_ne_none h⟩
  | fault f =>
    obtain ⟨hb, a, ha, hw, -⟩ := exec_faultsOnPayload h
    rcases hr a ha with hany | hwr
    · rw [hb] at hany; cases hany
    · rw [hw] at hwr; cases hwr
  | refused q => exact absurd h exec_ne_refused

/-! ### Reads that stop -/

theorem pktByte_of_unwritten {a : Nat} (hb : s.cfg.unwrittenRead = .fault) (hw : s.pktWritten a = false) :
    pktByte s a = .error (.unwrittenPkt a) := by
  have hn : s.pktRam.read a = none := by simpa [State.pktWritten] using hw
  rw [pktByte, hn, hb]

/-- A read inside the slice that touches an unwritten byte faults: some bit of the read lies in that byte (R68). -/
theorem readBits_of_unwritten {sl : Slice} {c n : Nat} (hb : s.cfg.unwrittenRead = .fault) (hn : 1 ≤ n)
    (hfit : c + n ≤ sl.bitLen) (hw : TouchesUnwritten s sl c n) : ∃ f, readBits s sl c n = .error (.fault f) := by
  obtain ⟨a, hlo, hhi, ha⟩ := hw
  cases h : readBits s sl c n with
  | ok p =>
    obtain ⟨v, c'⟩ := p
    obtain ⟨-, -, bits, hlen, -, hbits⟩ := readBits_eq_ok h
    obtain ⟨j, hj, hja⟩ : ∃ j < bits.length, sl.base + (c + j) / 8 = a :=
      ⟨max c (8 * (a - sl.base)) - c, by omega, by omega⟩
    have hbit := hbits j hj
    rw [streamBit, hja, pktByte_of_unwritten hb ha] at hbit
    cases hbit
  | error e =>
    cases e with
    | exhausted => rw [readBits_exhausted] at h; omega
    | fault f => exact ⟨f, rfl⟩

theorem decodeAncWord_of_unwritten {sl : Slice} {c : Nat} (hb : s.cfg.unwrittenRead = .fault)
    (hfit : c + 10 ≤ sl.bitLen) (hw : TouchesUnwritten s sl c 10) :
    ∃ f, decodeAncWord s sl c = .error (.fault f) := by
  obtain ⟨f, hf⟩ := readBits_of_unwritten hb (by omega) hfit hw
  exact ⟨f, decodeAncWord_eq_error.2 hf⟩

theorem exec_readBits_of_fault {n : BitVec 6} (h1 : 1 ≤ n.toNat) (h32 : n.toNat ≤ 32) (hl : LenLegal s)
    (h : readBits s (debugSlice s) s.argCursor.toNat n.toNat = .error (.fault f)) :
    exec (.readBits n) s = .fault f := by
  rw [exec_readBits_of_legal h1 h32 hl, h]; rfl

theorem exec_decodeWord_of_fault (hl : LenLegal s)
    (h : decodeAncWord s (debugSlice s) s.argCursor.toNat = .error (.fault f)) : exec .decodeWord s = .fault f := by
  rw [exec_decodeWord_of_legal hl, h]; rfl

theorem exec_unit_of_fault {i : Instr} (hl : LenLegal s)
    (hi : i = .extractUnit ∨ (∃ a b, i = .cdpUnit a b) ∨ (∃ d e, i = .otherUnit d e))
    (h : unitRead i s = .error (.fault f)) : exec i s = .fault f := by
  rw [exec_unit s hi, lenTooLong_eq_false.2 hl, h]; rfl

/-- The loop over units that decode and fit, with a unit after them whose extraction faults (R189, R247). -/
theorem unitLoop_of_fault {sl : Slice} {k n c : Nat} {r : PacketRun} {us : List AncUnit}
    (hs : SameReads s r.st) (hk : k < n) (hu : unitsFrom s sl k c = .ok us)
    (hx : extractAncUnit s sl (unitsEnd c us) = .error (.fault f))
    (hf : r.st.wrOff.toNat + (captionBytes us).length ≤ s.cfg.cap.toNat) : unitLoop sl n c r = .error f := by
  obtain ⟨j, rfl⟩ : ∃ j, n = k + (j + 1) := ⟨n - k - 1, by omega⟩
  rw [unitLoop_of_units hs hu hf, unitLoop, (hs.acceptAll us).extract, hx]

theorem execProcessPacket_of_fault {m : Bool} (hl : PacketLegal s) (h : packetBody s = .error f) :
    execProcessPacket m s = .fault f := by
  rw [execProcessPacket_of_legal hl, h]

/-- Settles O18: a fault is on an unwritten payload byte (`exec_faultsOnPayload`) and no command is refused; and each
read that touches such a byte stops (`readBits_of_unwritten`), and with it the command. -/
theorem onlyUnwrittenBytesFault : Obligations.OnlyUnwrittenBytesFault := by
  refine ⟨fun i s => ⟨fun f => exec_faultsOnPayload, fun r => exec_ne_refused⟩,
    fun s sl c n => readBits_of_unwritten, fun s hb hl => ⟨?_, ?_, ?_⟩, fun m s hl ha hh => ⟨?_, ?_⟩⟩
  · intro n h1 h32 hfit hw
    obtain ⟨f, hf⟩ := readBits_of_unwritten hb h1 hfit hw
    exact ⟨f, exec_readBits_of_fault h1 h32 hl hf⟩
  · intro hfit hw
    obtain ⟨f, hf⟩ := decodeAncWord_of_unwritten hb hfit hw
    have hunit : extractAncUnit s (debugSlice s) s.argCursor.toNat = .error (.fault f) := by
      rw [extractAncUnit, hf, error_bind]
    exact ⟨⟨f, exec_decodeWord_of_fault hl hf⟩, f, exec_unit_of_fault hl (.inl rfl) hunit⟩
  · rintro hfit hw i (⟨a, b, rfl⟩ | ⟨d, e, rfl⟩)
    all_goals obtain ⟨f, hf⟩ := decodeAncWord_of_unwritten (sl := debugSlice s) hb hfit hw
    · exact ⟨f, exec_unit_of_fault hl (.inr (.inl ⟨a, b, rfl⟩)) (by rw [unitRead, cdpUnitBody, hf, error_bind])⟩
    · exact ⟨f, exec_unit_of_fault hl (.inr (.inr ⟨d, e, rfl⟩)) (by rw [unitRead, otherUnitBody, hf, error_bind])⟩
  · exact fun hb hw => execProcessPacket_of_fault hl (packetBody_of_unread ha hh (pktByte_of_unwritten hb hw))
  · intro count k us f hc hk hu hx hf
    refine execProcessPacket_of_fault hl ?_
    rw [packetBody_of_count ha hh hc]
    exact unitLoop_of_fault (afterOpen_sameReads s) hk hu hx (by rw [afterOpen_wrOff]; exact hf)

end Sys2Proof.Machine
end

section
/-! PROOFS. The step: what it runs (R25, R88), where it holds (R246, R247), and the table word placed for it
(assumptions 2 and 4). -/

namespace Sys2Proof.Machine

/-- Settles O6: the state of `step_eq_exec_issued`, written out. -/
theorem stepRunsDecodedCommand : Obligations.StepRunsDecodedCommand :=
  fun _ _ _ _ hf hh hd => step_eq_exec_issued hf hh hd

/-- Settles O9: the two branches of the step that look at no access. -/
theorem stepWithoutAccess : Obligations.StepWithoutAccess := by
  refine fun s => ⟨fun hf hh => ?_, fun hf => if_pos hf⟩
  have hf' : s.faulted ≠ true := Bool.eq_false_iff.1 hf
  rw [step, if_neg hf', hh]

/-- `EXTRACT_UNIT` where the debug slice holds two words at the cursor runs the unit those words decode to: both read
the same body after the words (R88, R160). -/
theorem exec_extractUnit_eq_exec_decodeUnitId {s : State} {d e : DecodedWord} {k : UnitId}
    (hd : decodeAncWord s (debugSlice s) s.argCursor.toNat = .ok d)
    (he : decodeAncWord s (debugSlice s) d.next = .ok e) (hk : k = d.raw ++ e.raw) :
    exec .extractUnit s = exec (decodeUnitId k) s := by
  subst hk
  obtain ⟨hdn, -⟩ := decodeAncWord_eq_ok hd
  obtain ⟨hen, -⟩ := decodeAncWord_eq_ok he
  have hcur : e.next = s.argCursor.toNat + 20 := by omega
  have hread : unitRead .extractUnit s = unitRead (decodeUnitId (d.raw ++ e.raw)) s := by
    refine (extractAncUnit_of_ids hd he).trans ?_
    rw [hcur, isCdpId_append, decodeUnitId_append]
    split <;> rfl
  have hkind : (∃ a b, decodeUnitId (d.raw ++ e.raw) = .cdpUnit a b)
      ∨ ∃ d' e', decodeUnitId (d.raw ++ e.raw) = .otherUnit d' e' := by
    rw [decodeUnitId_append]
    split
    · exact .inl ⟨_, _, rfl⟩
    · exact .inr ⟨_, _, rfl⟩
  rw [exec_unit s (.inl rfl), exec_unit s (.inr hkind), hread]

/-- Settles O7: the step runs `EXTRACT_UNIT`, which is the unit its two words decode to. -/
theorem stepRunsDecodedUnit : Obligations.StepRunsDecodedUnit := by
  rintro s s' rest d e hf hh rfl hd he
  rw [step_eq_exec_issued (i := .extractUnit) hf hh (by decide)]
  exact exec_extractUnit_eq_exec_decodeUnitId hd he rfl

/-! ### Placed table words -/

/-- The step of a placed command word that decodes (R25). -/
theorem step_placeCommand {s : State} {w : Word} {i : Instr} (hf : s.faulted = false) (hd : decodeCommand w = .ok i) :
    step (placeCommand s w) = exec i { s with cmd := w, draw := s.draw + 1 } :=
  step_eq_exec_issued (s := placeCommand s w) (rest := s.host) hf rfl hd

/-- Bytes stored from a byte of the slice on are their bits from that byte's first bit on (R120). -/
theorem bitsAt_of_bytes {s : State} {sl : Slice} (bs : List Byte) (i : Nat) (hl : 8 * (i + bs.length) ≤ sl.bitLen)
    (h : ∀ (j : Nat) (hj : j < bs.length), s.pktRam.read (sl.base + i + j) = some bs[j]) :
    BitsAt s sl (8 * i) (bs.flatMap msbBits) := by
  induction bs generalizing i with
  | nil => exact ⟨by simpa using hl, fun j hj => absurd hj (Nat.not_lt_zero j)⟩
  | cons b bs ih =>
    simp only [List.length_cons] at hl
    rw [List.flatMap_cons, bitsAt_append_iff, length_msbBits]
    refine ⟨⟨by rw [length_msbBits]; omega, fun j hj => ?_⟩, ih (i + 1) (by omega) fun j hj => ?_⟩
    · rw [length_msbBits] at hj
      have hread : s.pktRam.read (sl.base + (8 * i + j) / 8) = some b := by
        rw [show (8 * i + j) / 8 = i by omega]
        exact h 0 (Nat.zero_lt_succ _)
      rw [streamBitOrder s sl _ b hread, getElem_msbBits, BitVec.getMsbD, decide_eq_true hj, Bool.true_and,
        show (8 * i + j) % 8 = j by omega]
    · rw [show sl.base + (i + 1) + j = sl.base + i + (j + 1) by omega]
      exact h (j + 1) (Nat.succ_lt_succ hj)

/-- The bits of a placed unit's bytes begin with its identifier pair (R88). -/
theorem unitImage_bits (k : UnitId) : ∃ rest, (unitImage k).flatMap msbBits = msbBits k ++ rest := by
  have hk : (k.extractLsb' 12 8 ++ k.extractLsb' 4 8 ++ k.extractLsb' 0 4 : UnitId) = k := by
    rw [BitVec.extractLsb'_append_extractLsb'_eq_extractLsb' (start₁ := 4) (len₁ := 8) (start₂ := 12) rfl]
    exact (BitVec.extractLsb'_append_extractLsb'_eq_extractLsb' (start₁ := 0) (len₁ := 4) rfl).trans
      BitVec.extractLsb'_eq_self
  have hbits : msbBits (k.extractLsb' 12 8) ++ msbBits (k.extractLsb' 4 8) ++ msbBits (k.extractLsb' 0 4)
      = msbBits k := by
    rw [← msbBits_append, ← msbBits_append]
    exact congrArg msbBits hk
  refine ⟨msbBits 0#4 ++ (List.replicate 11 0#8).flatMap msbBits, ?_⟩
  rw [← hbits]
  simp only [unitImage, List.cons_append, List.nil_append, List.flatMap_cons, msbBits_append, List.append_assoc]

/-- A placed unit's identifier pair stands at the start of the debug slice. -/
theorem bitsAt_placedUnit {s : State} {k : UnitId} {m : Memory} (hm : s.pktRam = m.writeRange 0 (unitImage k))
    (hl : s.argLen = 14) : BitsAt s (debugSlice s) 0 (msbBits k) := by
  have hlen : (unitImage k).length = 14 := rfl
  have hbits : BitsAt s (debugSlice s) (8 * 0) ((unitImage k).flatMap msbBits) := by
    refine bitsAt_of_bytes (unitImage k) 0 ?_ fun j hj => ?_
    · simp [debugSlice, hl, hlen]
    · rw [hm]
      exact Memory.read_writeRange_inside m 0 (unitImage k) hj
  obtain ⟨rest, hrest⟩ := unitImage_bits k
  rw [hrest, bitsAt_append_iff] at hbits
  exact hbits.1

/-- With an identifier pair at the cursor, `EXTRACT_UNIT` is the unit it decodes to (R88, R160). -/
theorem exec_extractUnit_of_id {s : State} {k : UnitId}
    (h : BitsAt s (debugSlice s) s.argCursor.toNat (msbBits k)) :
    exec .extractUnit s = exec (decodeUnitId k) s := by
  obtain ⟨d, e, rfl⟩ : ∃ d e : AncWord10, k = d ++ e := ⟨didOfId k, sdidOfId k, (append_ofId k).symm⟩
  rw [msbBits_append, bitsAt_append_iff, length_msbBits] at h
  obtain ⟨hd, he⟩ := h
  exact exec_extractUnit_eq_exec_decodeUnitId (decodeAncWord_of_field d hd) (decodeAncWord_of_field e he) rfl

/-- Settles O8: a placed command word is the next step's (`step_placeCommand`), and a placed unit is what
`EXTRACT_UNIT` finds at the cursor. -/
theorem placedTableWordRuns : Obligations.PlacedTableWordRuns := by
  intro s hf
  refine ⟨fun w i hd => ?_, fun k => ?_⟩
  · have hplace : s.withFetchWord 32 w.toNat = placeCommand s w := by
      rw [State.withFetchWord, if_pos rfl, BitVec.ofNat_toNat, BitVec.setWidth_eq]
    rw [hplace, step_placeCommand hf hd]
  · have hplace : s.withFetchWord 24 k.toNat = placeUnit s k := by
      rw [State.withFetchWord, if_neg (by decide), BitVec.ofNat_toNat, BitVec.setWidth_eq]
    rw [hplace]
    have hd : decodeCommand 6 = .ok .extractUnit := by decide
    refine (step_placeCommand (s := { s with
      pktRam := s.pktRam.writeRange 0 (unitImage k), argLen := 14, argCursor := 0 }) hf hd).trans ?_
    exact exec_extractUnit_of_id (bitsAt_placedUnit (m := s.pktRam) rfl rfl)

end Sys2Proof.Machine
end

section
/-! PROOFS. The host's accesses (R22 to R24, R61 to R64) and the ones that are refused (R247). -/

namespace Sys2Proof.Machine

variable {s : State} {rest : List HostAction}

/-! ### Writes -/

/-- A write to `CSR` stores the bits at the five registers the host writes, and nothing at another offset (R22, R23). -/
theorem writeCsr_eq (s : State) (off : Nat) (v : Word) :
    writeCsr s off v =
      if off = 0x00 then { s with cmd := v }
      else if off = 0x04 then { s with argTs := v }
      else if off = 0x08 then { s with argLen := v.setWidth 16 }
      else if off = 0x0C then { s with argHdrLen := v.setWidth 16 }
      else if off = 0x10 then { s with argCursor := v }
      else s := by
  split_ifs with hcmd hts hlen hhdr hcur
  iterate 5 · subst off; rfl
  cases hr : regAt off with
  | none => simp only [writeCsr, hr]
  | some r =>
    have hmem := mem_registerMap_of_regAt hr
    cases r with
    | cmd => exact absurd (by simpa [registerMap] using hmem) hcmd
    | argTs => exact absurd (by simpa [registerMap] using hmem) hts
    | argLen => exact absurd (by simpa [registerMap] using hmem) hlen
    | argHdrLen => exact absurd (by simpa [registerMap] using hmem) hhdr
    | argCursor => exact absurd (by simpa [registerMap] using hmem) hcur
    | _ => simp only [writeCsr, hr]

theorem issuedCommand_writeCsr_eq_none {off width : Nat} (v : Word) (h : off ≠ 0x00) :
    issuedCommand (.writeCsr off width v) = none := by
  cases hi : issuedCommand (.writeCsr off width v) with
  | none => rfl
  | some w =>
    have hx := issuedCommand_eq_some.1 hi
    simp [h] at hx

theorem legalCsr_eq_true {off width : Nat} : legalCsr off width = true ↔ off % 4 = 0 ∧ off ≤ 0xFC ∧ width = 32 := by
  simp [legalCsr, and_assoc]

/-- Settles O56: the access is legal and issues no command, so the step is `writeCsr`, by its offset (`writeCsr_eq`). -/
theorem hostCsrWrite : Obligations.HostCsrWrite := by
  intro s off v rest hf hh halign hmax hcmd
  have hlegal : legalCsr off 32 = true := legalCsr_eq_true.2 ⟨halign, hmax, rfl⟩
  have hwidth : v.setWidth 16 = v.extractLsb' 0 16 := BitVec.setWidth_eq_extractLsb' (by decide)
  rw [step_access hf hh (issuedCommand_writeCsr_eq_none v hcmd), hostAccess, if_pos hlegal, writeCsr_eq, if_neg hcmd,
    hwidth]
  rfl

/-- Settles O58: the step of either access, and what a read after the store gives. -/
theorem hostByteWrites : Obligations.HostByteWrites := by
  intro s a b rest hf
  refine ⟨fun hh ha => ⟨s.pktRam.write a b, ?_, Memory.read_write_same _ a b, fun c hc =>
    Memory.read_write_other _ b hc⟩, fun hh => step_access hf hh rfl⟩
  exact (step_access hf hh rfl).trans (if_pos ha)

/-! ### Reads -/

/-- Settles O57: each read is the step of its access, which answers the value and changes nothing else. -/
theorem hostReads : Obligations.HostReads := by
  intro s rest hf
  refine ⟨fun off hh halign hmax => ?_, fun a hh ha => ?_, fun a hh ha => ?_⟩
  · have hlegal : legalCsr off 32 = true := legalCsr_eq_true.2 ⟨halign, hmax, rfl⟩
    have hread : readCsr (s.advance rest) off = readCsr s off := by
      unfold readCsr
      cases regAt off with
      | none => rfl
      | some r => cases r <;> rfl
    rw [step_access hf hh rfl, hostAccess, if_pos hlegal, hread]
    rfl
  · refine ⟨_, (step_access hf hh rfl).trans (if_pos ha), fun b hb => ?_⟩
    rw [hostPktByte, show (s.advance rest).pktRam.read a = some b from hb, Option.getD_some]
  · refine ⟨_, (step_access hf hh rfl).trans (if_pos ha), fun b hlt hb => ?_⟩
    rw [unitByte, if_pos (show a < (s.advance rest).unitLen.toNat from hlt),
      show (s.advance rest).unitBuf.read a = some b from hb, Option.getD_some]

/-! ### Refusals -/

/-- The accesses R247 (b) names, under a build whose `PKT_MAX_BYTES` is `pktMax`. -/
def RefusedAccess (pktMax : Nat) (x : HostAction) : Prop :=
  (∃ off width v, (x = .writeCsr off width v ∨ x = .readCsr off width)
    ∧ (off % 4 ≠ 0 ∨ 0xFC < off ∨ width ≠ 32))
  ∨ (∃ a b, (x = .writePkt a b ∨ x = .readPkt a) ∧ pktMax ≤ a)
  ∨ ∃ a, x = .readUnit a ∧ 95 < a

/-- An `if` that answers or refuses refuses exactly where its condition fails. -/
theorem ite_refused {p : Prop} [Decidable p] {t : State} {q : Refusal} :
    (∃ r, (if p then .next t else .refused q : Host.Outcome State Fault Refusal) = .refused r) ↔ ¬ p := by
  by_cases h : p <;> simp [h]

theorem hostAccess_refused_iff {x : HostAction} :
    (∃ r, hostAccess x s = .refused r) ↔ RefusedAccess s.cfg.pktMax.toNat x := by
  have hcsr {off width : Nat} : ¬ legalCsr off width = true ↔ off % 4 ≠ 0 ∨ 0xFC < off ∨ width ≠ 32 := by
    rw [legalCsr_eq_true]; omega
  cases x with
  | writePkt a b => exact ite_refused.trans (by simp [RefusedAccess])
  | readPkt a => exact ite_refused.trans (by simp [RefusedAccess])
  | writeCsr off width v => exact (ite_refused.trans hcsr).trans (by simp [RefusedAccess])
  | readCsr off width => exact (ite_refused.trans hcsr).trans (by simp [RefusedAccess])
  | writeUnit a b => simp [hostAccess, RefusedAccess]
  | readUnit a => exact ite_refused.trans (by simp [RefusedAccess])
  | hardReset => simp [hostAccess, RefusedAccess]

/-- A step is refused where its access is: a command never is (`exec_ne_refused`). -/
theorem step_refused_iff {x : HostAction} (hf : s.faulted = false) (hh : s.host = x :: rest) :
    (∃ r, step s = .refused r) ↔ ∃ r, hostAccess x (s.advance rest) = .refused r := by
  cases hi : issuedCommand x with
  | none => rw [step_access hf hh hi]
  | some w =>
    obtain rfl := issuedCommand_eq_some.1 hi
    have hstep (r : Refusal) : step s ≠ .refused r := by
      cases hd : decodeCommand w with
      | ok i => rw [step_eq_exec_issued hf hh hd]; exact exec_ne_refused
      | error e => rw [step_eq_illegalCommand_issued hf hh hd]; simp
    simp [hstep, hostAccess_writeCmd]

/-- Settles O59: a step is refused where its access is, and those are the accesses named. -/
theorem refusedAccesses : Obligations.RefusedAccesses :=
  fun _ _ _ hf hh => (step_refused_iff hf hh).trans hostAccess_refused_iff

end Sys2Proof.Machine
end

section
/-! PROOFS. What the registers read: after power-on (R260), the codes of `RESULT` (R95), and the layout of every
register (R23, R25 to R48). -/

namespace Sys2Proof.Machine

/-- Settles O11: power-on reset is the hard reset of itself under the default build (`readCsr_hardReset`). -/
theorem powerOnValues : Obligations.PowerOnValues := by
  refine ⟨fun off => ?_, rfl, fun _ => rfl, rfl⟩
  have hbuild : (Config.default.pktMax ++ 0#15 ++ BitVec.ofBool (Config.default.skipPolicy = .declared) : Word)
      = 0x08000000 := by decide
  have hread := readCsr_hardReset State.reset off
  rw [show State.reset.cfg = Config.default from rfl, hbuild] at hread
  exact hread

/-- Settles O27, the codes of `RESULT` one by one. -/
theorem resultCodes : Obligations.ResultCodes := by
  refine ⟨rfl, rfl, rfl, rfl, rfl, rfl, rfl, rfl, rfl, fun r => ?_⟩
  cases r with
  | error e => cases e <;> decide
  | _ => decide

/-! ### The layouts -/

open BitVec (extractLsb'_append_eq_right extractLsb'_append_eq_left)

/-- A field above the low part of a concatenation is a field of its high part. -/
theorem extractLsb'_high {a b start len : Nat} {x : BitVec a} {y : BitVec b} {z : BitVec len}
    (h : x.extractLsb' start len = z) : (x ++ y).extractLsb' (start + b) len = z := by
  rw [BitVec.extractLsb'_append_eq_of_le (Nat.le_add_left b start), Nat.add_sub_cancel, h]

theorem getLsbD_high {a b i : Nat} {x : BitVec a} {y : BitVec b} {z : Bool} (h : x.getLsbD i = z) :
    (x ++ y).getLsbD (i + b) = z := by
  rw [BitVec.getLsbD_append, if_neg (by omega), Nat.add_sub_cancel, h]

theorem getLsbD_flag {a : Nat} {x : BitVec a} {p : Bool} : (x ++ BitVec.ofBool p).getLsbD 0 = p := by
  rw [BitVec.getLsbD_append]
  simp

/-- The layout of `RESP` (R30), from bit 0 up. -/
theorem Resp.word_fields (r : Resp) :
    r.word.extractLsb' 0 4 = r.result.code ∧ r.word.getLsbD 4 = r.stale ∧ r.word.getLsbD 5 = r.mark
    ∧ r.word.extractLsb' 6 2 = r.nemit ∧ r.word.extractLsb' 8 8 = r.nunits ∧ r.word.extractLsb' 16 8 = r.ancCount
    ∧ r.word.extractLsb' 24 8 = 0 := by
  refine ⟨extractLsb'_append_eq_right, getLsbD_high getLsbD_flag, getLsbD_high (getLsbD_high getLsbD_flag),
    ?_, ?_, ?_, ?_⟩
  · exact extractLsb'_high (extractLsb'_high (extractLsb'_high extractLsb'_append_eq_right))
  · exact extractLsb'_high (extractLsb'_high (extractLsb'_high (extractLsb'_high extractLsb'_append_eq_right)))
  · exact extractLsb'_high (extractLsb'_high (extractLsb'_high (extractLsb'_high (extractLsb'_high
      extractLsb'_append_eq_right))))
  · exact extractLsb'_high (extractLsb'_high (extractLsb'_high (extractLsb'_high (extractLsb'_high
      extractLsb'_append_eq_left))))

/-- The layout of `LAST_UNIT` (R36). -/
theorem LastUnit.word_fields (u : LastUnit) :
    u.word.extractLsb' 0 8 = u.did ∧ u.word.extractLsb' 8 8 = u.sdid ∧ u.word.extractLsb' 16 8 = u.dc
    ∧ u.word.getLsbD 24 = u.cdp ∧ u.word.extractLsb' 25 7 = 0 :=
  ⟨extractLsb'_append_eq_right, extractLsb'_high extractLsb'_append_eq_right,
    extractLsb'_high (extractLsb'_high extractLsb'_append_eq_right),
    getLsbD_high (getLsbD_high (getLsbD_high getLsbD_flag)),
    extractLsb'_high (extractLsb'_high (extractLsb'_high extractLsb'_append_eq_left))⟩

/-- The layout of `LAST_CDP_A` (R37). -/
theorem LastCdpA.word_fields (u : LastCdpA) :
    u.word.extractLsb' 0 8 = u.id0 ∧ u.word.extractLsb' 8 8 = u.id1 ∧ u.word.extractLsb' 16 8 = u.cdpLen
    ∧ u.word.extractLsb' 24 8 = u.rate :=
  ⟨extractLsb'_append_eq_right, extractLsb'_high extractLsb'_append_eq_right,
    extractLsb'_high (extractLsb'_high extractLsb'_append_eq_right),
    extractLsb'_high (extractLsb'_high extractLsb'_append_eq_left)⟩

/-- The layout of `LAST_CDP_B` (R38). -/
theorem LastCdpB.word_fields (u : LastCdpB) :
    u.word.extractLsb' 0 8 = u.flags ∧ u.word.extractLsb' 8 8 = u.ccWord ∧ u.word.extractLsb' 16 16 = 0 :=
  ⟨extractLsb'_append_eq_right, extractLsb'_high extractLsb'_append_eq_right,
    extractLsb'_high extractLsb'_append_eq_left⟩

/-- A register narrower than 32 bits reads its value in the low bits and 0 above (R23). -/
theorem setWidth_fields {n m : Nat} (c : BitVec n) :
    (c.setWidth (n + m)).extractLsb' 0 n = c ∧ (c.setWidth (n + m)).extractLsb' n m = 0 := by
  constructor <;> ext i hi
  · simp [hi, Nat.lt_add_right m hi]
  · simp

/-- The layout of `CONFIG` (R41). -/
theorem configWord_fields (c : Config) :
    ((configWord c).getLsbD 0 = true ↔ c.skipPolicy = .declared) ∧ (configWord c).extractLsb' 1 15 = 0
    ∧ (configWord c).extractLsb' 16 16 = c.pktMax := by
  refine ⟨?_, extractLsb'_high extractLsb'_append_eq_right,
    extractLsb'_high extractLsb'_append_eq_left⟩
  have hbit : (configWord c).getLsbD 0 = SkipPolicy.bit c.skipPolicy := getLsbD_flag
  rw [hbit, SkipPolicy.bit_eq_decide, decide_eq_true_eq]

/-- Above the last register of the map every offset is reserved (R23). -/
theorem readCsr_of_reserved (s : State) {off : Nat} (h : 0x5C ≤ off) : readCsr s off = 0 := by
  unfold readCsr
  cases hr : regAt off with
  | none => rfl
  | some r =>
    have hmem := mem_registerMap_of_regAt hr
    have hlow : ∀ x ∈ registerMap, x.1 ≤ 0x58 := by decide
    have := hlow _ hmem
    omega

/-- Settles O60: the whole registers and the reserved offsets by the map, the others by the layout of their word. -/
theorem registerLayouts : Obligations.RegisterLayouts := by
  refine ⟨fun s => ⟨rfl, rfl, rfl, rfl, rfl, rfl, rfl, rfl, rfl, rfl, rfl, rfl, rfl, rfl, rfl, rfl,
      fun off h _ => readCsr_of_reserved s h⟩,
    fun s => s.resp.word_fields, fun s => ⟨?_, ?_⟩, fun s => s.lastUnit.word_fields, fun s => s.lastCdpA.word_fields,
    fun s => s.lastCdpB.word_fields, fun s => setWidth_fields (m := 12) s.lastCdpC, fun s => configWord_fields s.cfg⟩
  · change ((BitVec.ofBool s.status.acc).setWidth 32).getLsbD 0 = true ↔ _
    cases s.status <;> decide
  · change ((BitVec.ofBool s.status.acc).setWidth 32).extractLsb' 1 31 = 0
    exact (setWidth_fields (m := 31) _).2

end Sys2Proof.Machine
end
